-- ==== Sys2Proof/Word.lean ====
section
/-! DEFINITION. The words of the hardware: bytes, nibbles, seconds counts, and the three buttons. -/

namespace Sys2Proof

/-- A command byte, a character code, an 8-bit register (00_scope.md section 6.1). -/
abbrev Byte := BitVec 8

/-- What the four data lines carry (20_memory.md R46). -/
abbrev Nibble := BitVec 4

/-- The width of configuredSeconds and currentSeconds (10_state.md R11, R12). -/
abbrev Seconds := BitVec 32

/-- An address of the display controller's character memory (20_memory.md R41). -/
abbrev Address := BitVec 7

/-- The three push buttons (10_state.md R23, R26). -/
inductive Button where
  | start
  | sec
  | min
deriving DecidableEq, Repr

/-- A register-select, enable or flag bit as a number of one bit. -/
def bit (b : Bool) : BitVec 1 := BitVec.ofBool b

end Sys2Proof
end

