-- ==== Sys2Proof/Config.lean ====
section
/-! DEFINITION. What the spec leaves open: free values (no body, so no proof can see one) and the two electrical
polarities. The parameters that the spec fixes stand in Sys2Proof/Machine/Params.lean. -/

namespace Sys2Proof.Config

/-- The address counter after an event the spec gives no result for (93_implementation_defined.md U3, U5, U6; log 19, 22). -/
opaque freeAddress : Nat → Address

/-- The function-set register's DL, N, F bits after such an event (log 19). -/
opaque freeFunction : Nat → BitVec 3

/-- The display-control register's bits after such an event (log 19). -/
opaque freeDisplay : Nat → BitVec 3

/-- The entry-mode register's bits after such an event (log 19). -/
opaque freeEntry : Nat → BitVec 2

/-- How long the controller still executes after such an event (93_implementation_defined.md U3; log 19). -/
opaque freeBusy : Nat → Nat

/-- The lower half of a command or character taken in 8-bit mode, which nobody drives (30_encoding.md R70; log 17). -/
opaque freeHalf : Nat → Nibble

/-- Which register-select a byte is taken with whose halves came with different ones (20_memory.md R54; log 31). -/
opaque freeSelect : Nat → Bool

/-- BTN_ASSERTED_LEVEL, the level of a button line that means asserted: OPEN (decision D17; log 26). -/
opaque btnAssertedLevel : Bool

/-- ALARM_ON_LEVEL, the level of the alarm line that means on: OPEN (decision D18; log 26). -/
opaque alarmOnLevel : Bool

end Sys2Proof.Config
end

