-- ==== Sys2Proof/Machine/Params.lean ====
section
/-! DEFINITION. The parameters of 00_scope.md section 5 at the values the spec gives them (log 1). Each stands here once;
a different choice of the spec is a change of this file alone. -/

namespace Sys2Proof.Config

/-- ROW_CUTOFF, the first column of the second internal row. -/
def rowCutoff : Nat := 8

/-- MAX_COL, the largest legal column; COLS is one more. -/
def maxCol : Nat := 15

/-- COLS, the number of logical columns. -/
def cols : Nat := 16

/-- ROW2_BASE, "internal second-row base address offset". -/
def row2Base : Nat := 0x40

/-- ROW2_ADJUST = ROW2_BASE - ROW_CUTOFF = 0x38. -/
def row2Adjust : Nat := row2Base - rowCutoff

/-- TICK_THRESHOLD, hardware ticks per one-second event. -/
def tickThreshold : Byte := 25

/-- HOURS_MAX, hour saturation. -/
def hoursMax : Nat := 255

def cmdClear : Byte := 0x01
def cmdHome : Byte := 0x02
def cmdEntry : Byte := 0x04
def cmdDisplay : Byte := 0x08
def cmdFunction : Byte := 0x20
def cmdSetAddr : Byte := 0x80

/-- Entry mode: left-to-right, no auto-shift (decision D6). -/
def entryFlags : Byte := 0x02

/-- Display on, no cursor, no blink (decision D6). -/
def displayFlags : Byte := 0x04

/-- 4-bit bus, two internal rows, 5x8 font (decision D6). -/
def functionFlags : Byte := 0x08

/-- HANDSHAKE_NIBBLE (decision D7). -/
def handshakeNibble : Nibble := 0x3

/-- SWITCH_NIBBLE (decision D7). -/
def switchNibble : Nibble := 0x2

/-- RS_COMMAND, the register-select level of a command (decision D3). -/
def rsCommand : Bool := false

/-- RS_DATA, the register-select level of a character (decision D3). -/
def rsData : Bool := true

def tPowerOn : Nat := 40000
def tInit1 : Nat := 4100
def tInit2 : Nat := 100
def tInit3 : Nat := 100
def tSetup : Nat := 1
def tHold : Nat := 1
def tCycle : Nat := 100

/-- The waits between the two nibbles of one byte transaction (30_encoding.md R61, R62). -/
def tBetweenHalves : Nat := tCycle + tSetup + tHold

/-- The wait the block makes after clear and home (90_conflicts.md C5). -/
def tClear : Nat := 2000

/-- What the controller itself needs after clear and home, "≥1.52ms" (90_conflicts.md C5). -/
def tExecute : Nat := 1520

def tComboSettle : Nat := 50000
def tDebounce : Nat := 150000

/-- COLON_ON_PARITY: `sc mod 2` at which a blinking colon is shown: even (decision D13). -/
def colonOnParity : Byte := 0

def charDigit0 : Nat := 0x30
def charColon : Byte := 0x3A
def charBlank : Byte := 0x20

/-- ALARM_ON_TRANSITION_TICK (decision D12). -/
def alarmOnTransitionTick : Bool := true

/-- BOOT_RENDER, whether boot ends with one render (decision D20). -/
def bootRender : Bool := true

end Sys2Proof.Config
end

