-- ==== Sys2Proof/Syntax.lean ====
section
/-! DEFINITION. The rows of spec/opcode_table.json, one constructor each, and the two row families the hardware itself
decodes: the controller's wire words and the handler's dispatch rows. -/

namespace Sys2Proof

/-- The five formats (30_encoding.md R60). They are five separate code spaces: the same bits mean one thing on the wire,
another in the handler's decode, and another as an operation's number (log 10). -/
inductive Format where
  | wire9
  | hs5
  | nib
  | dispatch5
  | opsel
deriving DecidableEq, Repr

/-- What a byte transaction says to the controller (30_encoding.md R64-R69, R71, R72). -/
inductive LcdWord where
  | clear
  | home
  | entry (i s : Bool)
  | display (d c b : Bool)
  | function (l n f : Bool) (x : BitVec 2)
  | setAddr (a : Address)
  | data (ch : Byte)
deriving DecidableEq, Repr

/-- The rows of the dispatcher decode, in priority order (30_encoding.md R75). -/
inductive DispatchRow where
  | reset
  | start
  | sec
  | min
  | idle
deriving DecidableEq, Repr

/-- One constructor per row of spec/opcode_table.json. -/
inductive Instr where
  -- WIRE9: the wire words of one byte transaction
  | lcdClear
  | lcdHome
  | lcdEntry (i s : Bool)
  | lcdDisplay (d c b : Bool)
  | lcdFunction (l n f : Bool) (x : BitVec 2)
  | lcdSetAddr (a : Address)
  | lcdData (ch : Byte)
  -- HS5: the handshake nibbles
  | hsNib3
  | hsNib2
  -- NIB: one nibble transfer
  | nib (n : Nibble)
  -- DISPATCH5: the handler's choice, with the vector's remaining bits
  | dspReset (efStart efSec efMin : Bool)
  | dspStart (lvlSec lvlMin efSec efMin : Bool)
  | dspSec (lvlSec lvlMin efMin : Bool)
  | dspMin (lvlSec lvlMin : Bool)
  | dspNone (lvlSec lvlMin : Bool)
  -- OPSEL: the operations of the block
  | initializeDisplay
  | setCursor (col : Byte)
  | clear
  | home
  | setText (text : List Byte)
  | addText (text : List Byte)
  | writeChar (ch : Byte)
  | writeByte (rs : Bool) (b : Byte)
  | writeNibble (n : Nibble)
  | startButton
  | secButton
  | minButton
  | resetGesture
  | tick
  | render
  | handler
  -- OPSEL 0x7 under its two other names (30_encoding.md R77)
  | command (b : Byte)
  | data (b : Byte)
deriving DecidableEq, Repr

/-- The core operation an instruction's words stand for: `command b` is `writeByte 0 b`, `data b` is `writeByte 1 b`
(30_encoding.md R77); every other instruction is itself. -/
def Instr.canonical : Instr → Instr
  | .command b => .writeByte false b
  | .data b => .writeByte true b
  | i => i

/-- Why a word is no instruction. -/
inductive DecodeReject where
  /-- Too few or too many bytes for the format and operation. -/
  | wrongLength
  /-- A bit is set that the format does not have. -/
  | strayBits
  /-- A command byte with no base code in the source: 0x00, 0x03, 0x10-0x1F, 0x40-0x7F (30_encoding.md R74). -/
  | noBaseCode
  /-- A handshake unit that is neither nibble 3 nor nibble 2 with register-select 0 (30_encoding.md R70). -/
  | notHandshake
deriving DecidableEq, Repr

/-- The answer of a decoder: a value, or why there is none. -/
inductive Decoded (α : Type) where
  | ok (a : α)
  | error (why : DecodeReject)
deriving DecidableEq, Repr

end Sys2Proof
end

