-- ==== Sys2Proof/WellFormed.lean ====
section
/-! DEFINITION. Which instruction terms stand for words of the table. -/

namespace Sys2Proof

/-- A dispatch row applies only when no earlier row matched (30_encoding.md R75), so the rows below DSP.RESET carry no
vector in which both levels are asserted. Every other row admits all values of its operands. -/
def Instr.wellFormed : Instr → Bool
  | .dspStart ls lm _ _ => !(ls && lm)
  | .dspSec ls lm _ => !(ls && lm)
  | .dspMin ls lm => !(ls && lm)
  | .dspNone ls lm => !(ls && lm)
  | .lcdClear | .lcdHome | .lcdEntry .. | .lcdDisplay .. | .lcdFunction .. | .lcdSetAddr .. | .lcdData ..
  | .hsNib3 | .hsNib2 | .nib .. | .dspReset ..
  | .initializeDisplay | .setCursor .. | .clear | .home | .setText .. | .addText .. | .writeChar ..
  | .writeByte .. | .writeNibble .. | .startButton | .secButton | .minButton | .resetGesture | .tick
  | .render | .handler | .command .. | .data .. => true

end Sys2Proof
end

