-- ==== Sys2Proof/Decode.lean ====
section
/-! DEFINITION. Decoding, total on any bytes and rejecting by name, then the encoder. The byte layout of an operation
request is the model's (log 10): WIRE9 is two bytes, low first; HS5, NIB and DISPATCH5 are one byte; OPSEL is the
operation's number in one byte and then its operands, a byte each, a text as all the bytes that remain. -/

namespace Sys2Proof

/-- A byte transaction read by its leading 1 (30_encoding.md R64, patterns of R65-R69, R71, R72). -/
def lcdOfByte (rs : Bool) (b : Byte) : Option LcdWord :=
  if rs then some (.data b)
  else if b.getLsbD 7 then some (.setAddr (b.extractLsb' 0 7))
  else if b.extractLsb' 5 3 = 0b001#3 then
    some (.function (b.getLsbD 4) (b.getLsbD 3) (b.getLsbD 2) (b.extractLsb' 0 2))
  else if b.extractLsb' 3 5 = 0b00001#5 then some (.display (b.getLsbD 2) (b.getLsbD 1) (b.getLsbD 0))
  else if b.extractLsb' 2 6 = 0b000001#6 then some (.entry (b.getLsbD 1) (b.getLsbD 0))
  else if b = 0b00000010#8 then some .home
  else if b = 0b00000001#8 then some .clear
  else none

/-- The register-select bit of a wire word: 1 for a character, 0 for a command (30_encoding.md R62). -/
def LcdWord.rs : LcdWord → Bool
  | .data _ => Config.rsData
  | .clear | .home | .entry .. | .display .. | .function .. | .setAddr .. => Config.rsCommand

/-- Command byte assembly: base code OR operand (30_encoding.md R64); a character is passed unchanged (R72). -/
def LcdWord.byte : LcdWord → Byte
  | .clear => Config.cmdClear
  | .home => Config.cmdHome
  | .entry i s => Config.cmdEntry ||| (bit i ++ bit s).setWidth 8
  | .display d c b => Config.cmdDisplay ||| (bit d ++ bit c ++ bit b).setWidth 8
  | .function l n f x => Config.cmdFunction ||| (bit l ++ bit n ++ bit f ++ x).setWidth 8
  | .setAddr a => Config.cmdSetAddr ||| a.setWidth 8
  | .data ch => ch

/-- The verdicts of a trace decoder (30_encoding.md R74). -/
inductive WireVerdict where
  | emitted
  | reservedOperand
  | reservedNoBase
deriving DecidableEq, Repr

/-- Whether a DDRAM address is one the block ever sends: 0x00-0x07 and 0x40-0x47 (20_memory.md R44). -/
def displayedAddress (a : Address) : Bool :=
  decide (a.toNat < 0x08) || (decide (0x40 ≤ a.toNat) && decide (a.toNat < 0x48))

/-- The words the block can emit, the words of a base code with an operand it never uses, and the rest
(30_encoding.md R74). -/
def wireVerdict (rs : Bool) (b : Byte) : WireVerdict :=
  match lcdOfByte rs b with
  | some .clear => .emitted
  | some .home => .emitted
  | some (.data _) => .emitted
  | some (.entry ..) => if b = 0x06 then .emitted else .reservedOperand
  | some (.display ..) => if b = 0x0C then .emitted else .reservedOperand
  | some (.function ..) => if b = 0x28 then .emitted else .reservedOperand
  | some (.setAddr a) => if displayedAddress a then .emitted else .reservedOperand
  | none => .reservedNoBase

/-- The row of the table a wire word is. -/
def LcdWord.toInstr : LcdWord → Instr
  | .clear => .lcdClear
  | .home => .lcdHome
  | .entry i s => .lcdEntry i s
  | .display d c b => .lcdDisplay d c b
  | .function l n f x => .lcdFunction l n f x
  | .setAddr a => .lcdSetAddr a
  | .data ch => .lcdData ch

/-- The dispatcher decode of the vector `lvl_sec ‖ lvl_min ‖ ef_start ‖ ef_sec ‖ ef_min`, first matching row
(30_encoding.md R75). -/
def dispatchRow (v : BitVec 5) : DispatchRow :=
  if v.extractLsb' 3 2 = 0b11#2 then .reset
  else if v.getLsbD 2 then .start
  else if v.getLsbD 1 then .sec
  else if v.getLsbD 0 then .min
  else .idle

/-- The dispatch row of a vector as an instruction, with the vector's remaining bits as its operands. -/
def dispatchInstr (v : BitVec 5) : Instr :=
  match dispatchRow v with
  | .reset => .dspReset (v.getLsbD 2) (v.getLsbD 1) (v.getLsbD 0)
  | .start => .dspStart (v.getLsbD 4) (v.getLsbD 3) (v.getLsbD 1) (v.getLsbD 0)
  | .sec => .dspSec (v.getLsbD 4) (v.getLsbD 3) (v.getLsbD 0)
  | .min => .dspMin (v.getLsbD 4) (v.getLsbD 3)
  | .idle => .dspNone (v.getLsbD 4) (v.getLsbD 3)

/-- Format WIRE9. -/
def decodeWire9 (w : BitVec 9) : Decoded Instr :=
  match lcdOfByte (w.getLsbD 8) (w.extractLsb' 0 8) with
  | some word => .ok word.toInstr
  | none => .error .noBaseCode

/-- Format HS5 (30_encoding.md R70). -/
def decodeHs5 (w : BitVec 5) : Decoded Instr :=
  if w = 0b00011#5 then .ok .hsNib3
  else if w = 0b00010#5 then .ok .hsNib2
  else .error .notHandshake

/-- A byte that must hold a value of `w` bits. -/
def narrow (w : Nat) (b : Byte) : Decoded (BitVec w) :=
  if b.toNat < 2 ^ w then .ok (BitVec.ofNat w b.toNat) else .error .strayBits

/-- An operation that takes no operand byte. -/
def plainOp (i : Instr) : List Byte → Decoded Instr
  | [] => .ok i
  | _ :: _ => .error .wrongLength

/-- An operation that takes one operand byte. -/
def byteOp (f : Byte → Decoded Instr) : List Byte → Decoded Instr
  | [b] => f b
  | [] => .error .wrongLength
  | _ :: _ :: _ => .error .wrongLength

/-- The operand bytes of `writeByte rs b`. -/
def writeByteOp : List Byte → Decoded Instr
  | [rs, b] => match narrow 1 rs with
    | .ok r => .ok (.writeByte (r.getLsbD 0) b)
    | .error e => .error e
  | [] => .error .wrongLength
  | [_] => .error .wrongLength
  | _ :: _ :: _ :: _ => .error .wrongLength

/-- The operand byte of `writeNibble n`. -/
def writeNibbleOp (b : Byte) : Decoded Instr :=
  match narrow 4 b with
  | .ok n => .ok (.writeNibble n)
  | .error e => .error e

/-- Format OPSEL: the operation's number (30_encoding.md R76) and its operand bytes. -/
def decodeOpsel (op : Nibble) (args : List Byte) : Decoded Instr :=
  match op.toNat with
  | 0 => plainOp .initializeDisplay args
  | 1 => byteOp (fun b => .ok (.setCursor b)) args
  | 2 => plainOp .clear args
  | 3 => plainOp .home args
  | 4 => .ok (.setText args)
  | 5 => .ok (.addText args)
  | 6 => byteOp (fun b => .ok (.writeChar b)) args
  | 7 => writeByteOp args
  | 8 => byteOp writeNibbleOp args
  | 9 => plainOp .startButton args
  | 10 => plainOp .secButton args
  | 11 => plainOp .minButton args
  | 12 => plainOp .resetGesture args
  | 13 => plainOp .tick args
  | 14 => plainOp .render args
  | _ => plainOp .handler args

/-- Reads one request: a format and its bytes. -/
def decode (fmt : Format) (bytes : List Byte) : Decoded Instr :=
  match fmt, bytes with
  | .wire9, [lo, hi] => match narrow 1 hi with
    | .ok h => decodeWire9 (h ++ lo)
    | .error e => .error e
  | .hs5, [b] => match narrow 5 b with
    | .ok w => decodeHs5 w
    | .error e => .error e
  | .nib, [b] => match narrow 4 b with
    | .ok n => .ok (.nib n)
    | .error e => .error e
  | .dispatch5, [b] => match narrow 5 b with
    | .ok v => .ok (dispatchInstr v)
    | .error e => .error e
  | .opsel, op :: args => match narrow 4 op with
    | .ok o => decodeOpsel o args
    | .error e => .error e
  | _, _ => .error .wrongLength

/-- The format a row stands under in the table. -/
def Instr.format : Instr → Format
  | .lcdClear | .lcdHome | .lcdEntry .. | .lcdDisplay .. | .lcdFunction .. | .lcdSetAddr .. | .lcdData .. => .wire9
  | .hsNib3 | .hsNib2 => .hs5
  | .nib .. => .nib
  | .dspReset .. | .dspStart .. | .dspSec .. | .dspMin .. | .dspNone .. => .dispatch5
  | .initializeDisplay | .setCursor .. | .clear | .home | .setText .. | .addText .. | .writeChar ..
  | .writeByte .. | .writeNibble .. | .startButton | .secButton | .minButton | .resetGesture | .tick
  | .render | .handler | .command .. | .data .. => .opsel

/-- The two bytes of a WIRE9 word. -/
def LcdWord.bytes (w : LcdWord) : List Byte := [w.byte, (bit w.rs).setWidth 8]

/-- The 5-bit dispatch vector from its bits, most significant first (30_encoding.md R75). -/
def dispatchVectorOf (lvlSec lvlMin efStart efSec efMin : Bool) : BitVec 5 :=
  bit lvlSec ++ bit lvlMin ++ bit efStart ++ bit efSec ++ bit efMin

/-- The bytes of an instruction, from the encoding tables of 30_encoding.md R65-R72, R75, R76. -/
def encode : Instr → List Byte
  | .lcdClear => LcdWord.clear.bytes
  | .lcdHome => LcdWord.home.bytes
  | .lcdEntry i s => (LcdWord.entry i s).bytes
  | .lcdDisplay d c b => (LcdWord.display d c b).bytes
  | .lcdFunction l n f x => (LcdWord.function l n f x).bytes
  | .lcdSetAddr a => (LcdWord.setAddr a).bytes
  | .lcdData ch => (LcdWord.data ch).bytes
  | .hsNib3 => [Config.handshakeNibble.setWidth 8]
  | .hsNib2 => [Config.switchNibble.setWidth 8]
  | .nib n => [n.setWidth 8]
  | .dspReset es ec em => [(dispatchVectorOf true true es ec em).setWidth 8]
  | .dspStart ls lm ec em => [(dispatchVectorOf ls lm true ec em).setWidth 8]
  | .dspSec ls lm em => [(dispatchVectorOf ls lm false true em).setWidth 8]
  | .dspMin ls lm => [(dispatchVectorOf ls lm false false true).setWidth 8]
  | .dspNone ls lm => [(dispatchVectorOf ls lm false false false).setWidth 8]
  | .initializeDisplay => [0x0]
  | .setCursor col => [0x1, col]
  | .clear => [0x2]
  | .home => [0x3]
  | .setText text => 0x4 :: text
  | .addText text => 0x5 :: text
  | .writeChar ch => [0x6, ch]
  | .writeByte rs b => [0x7, (bit rs).setWidth 8, b]
  | .writeNibble n => [0x8, n.setWidth 8]
  | .startButton => [0x9]
  | .secButton => [0xA]
  | .minButton => [0xB]
  | .resetGesture => [0xC]
  | .tick => [0xD]
  | .render => [0xE]
  | .handler => [0xF]
  | .command b => [0x7, (bit Config.rsCommand).setWidth 8, b]
  | .data b => [0x7, (bit Config.rsData).setWidth 8, b]

/-- How many operand bytes of zeros follow an operation's number when the table gives them no bits; a text is empty. -/
def operandBytes (op : Nat) : Nat :=
  match op with
  | 1 => 1
  | 6 => 1
  | 7 => 2
  | 8 => 1
  | _ => 0

/-- The request that a word of spec/opcode_table.json stands for. The five formats are separate code spaces, and a number
alone does not say which is meant: more than 8 bits are WIRE9, a number below 16 is OPSEL, one above is DISPATCH5
(log 10). -/
def tableRequest (nbits w : Nat) : Format × List Byte :=
  if 8 < nbits then (.wire9, [BitVec.ofNat 8 w, BitVec.ofNat 8 (w / 256)])
  else if nbits = 5 ∨ 16 ≤ w then (.dispatch5, [BitVec.ofNat 8 w])
  else (.opsel, BitVec.ofNat 8 w :: List.replicate (operandBytes w) 0)

/-- The instruction the decoder reads from a word numbered as spec/opcode_table.json numbers it. -/
def decodeTableWord (nbits w : Nat) : Option Instr :=
  match decode (tableRequest nbits w).1 (tableRequest nbits w).2 with
  | .ok i => some i
  | .error _ => none

end Sys2Proof
end

