-- ==== Sys2Proof/Machine/State.lean ====
section
/-! DEFINITION. The machine's state as plain data, its reset value, and the reasons a step can stop. -/

namespace Sys2Proof.Machine

/-- The four modes of the TimeKeeper (10_state.md R14). -/
inductive Mode where
  | stopped
  | paused
  | running
  | alarm
deriving DecidableEq, Repr

/-- The sequencer's context, in place of a program counter (10_state.md R21). -/
inductive Ctx where
  | foreground
  | inHandler
deriving DecidableEq, Repr

/-- What the boot sequence does next (70_reset_and_hazards.md R183, steps 2 to 5). -/
inductive BootStep where
  | bringUp
  | firstRender
  | enableTimer
  | idle
deriving DecidableEq, Repr

/-- The pin-level trace events, level L0 (00_scope.md section 6.3). -/
inductive Event where
  | dirOut
  | rs (v : Bool)
  | d (n : Nibble)
  | en (v : Bool)
  | alarm (v : Bool)
  | wait (t : Nat)
  | clrf (b : Button)
deriving DecidableEq, Repr

/-- What the environment can do: the statements of 30_encoding.md R78 as data, the hardware tick of 10_state.md R24, and
the power-up of 70_reset_and_hazards.md R180. `raise` is a level change alone, which 10_state.md R26 lets come at any time: a
press whose edge the handler's clear erases leaves just that (20_memory.md R56, 42_input_dispatcher.md R135; log 13).
`proceed` is the model's own: the environment lets the block run its next operation (60_exceptions.md R153 leaves the
moment to it; log 11). -/
inductive Input where
  | proceed
  | press (b : Button)
  | release (b : Button)
  | raise (b : Button)
  | setFlag (b : Button)
  | hardwareTick
  | powerUp
  | operation (fmt : Format) (bytes : List Byte)
deriving DecidableEq, Repr

/-- The display controller's bus width and nibble pairing (30_encoding.md R70, 20_memory.md R54). `unknown` is the width
before the handshake and after anything the spec gives no result for, with how many handshake nibbles in a row have
arrived since (log 17). `fourHalf` has taken the high nibble of a byte, with register-select as it stood then, `gap`
microseconds ago. -/
inductive Bus where
  | unknown (knocks : Nat)
  | eight
  | four
  | fourHalf (rs : Bool) (hi : Nibble) (gap : Nat)
deriving DecidableEq, Repr

/-- Character memory: (address, byte) pairs with addresses strictly rising. A cell that is not listed has no known
value (log 4). -/
abbrev Ddram := List Host.Cell

/-- The display controller, a write-only sink (20_memory.md R47, R48; 10_state.md R27-R30). -/
structure Controller where
  /-- Bus width and pairing (R70, R54). -/
  bus : Bus
  /-- Microseconds before the controller accepts a transfer: the execution of a clear or home (30_encoding.md R65,
  70_reset_and_hazards.md R192), the power-on settle and the handshake waits (R193; log 20). -/
  busy : Nat
  /-- Address counter (20_memory.md R48). -/
  ac : Address
  /-- Character cells (20_memory.md R41, R48). -/
  ddram : Ddram
  /-- Function-set register, DL N F (10_state.md R27). -/
  function : BitVec 3
  /-- Display-control register, D C B (10_state.md R28). -/
  display : BitVec 3
  /-- Entry-mode register, I/D S (10_state.md R29). -/
  entry : BitVec 2
  /-- The model's own: a byte with the verdict `reserved` of 30_encoding.md R74 has arrived since the last handshake
  nibble (log 18). -/
  reservedSeen : Bool
  /-- The model's own: index of the next free value (log 19). -/
  freeIx : Nat
deriving DecidableEq, Repr

/-- Everything the spec gives the machine. The lines of INVENTORY.md's State heading, in its order. -/
structure State where
  /-- configuredSeconds (10_state.md R11). -/
  cfg : Seconds
  /-- currentSeconds (10_state.md R12). -/
  cur : Seconds
  /-- secondCounter (10_state.md R13). -/
  sc : Byte
  /-- The mode (10_state.md R14). -/
  mode : Mode
  /-- The tick counter (10_state.md R16). -/
  tc : Byte
  /-- The tracked cursor (10_state.md R17, R18). -/
  cursor : Byte
  /-- The alarm output, true is on (10_state.md R19). -/
  alarm : Bool
  /-- Register-select line (10_state.md R20). -/
  lcdRs : Bool
  /-- Enable line (10_state.md R20). -/
  lcdEn : Bool
  /-- Data lines (10_state.md R20). -/
  lcdD : Nibble
  /-- The six display lines are outputs (10_state.md R20). -/
  lcdDir : Bool
  /-- Sequencer context (10_state.md R21). -/
  ctx : Ctx
  /-- Edge-flags (10_state.md R23). -/
  efStart : Bool
  efSec : Bool
  efMin : Bool
  /-- Timer pending flag (10_state.md R24). -/
  tp : Bool
  /-- The timer interrupt is enabled toward the handler (10_state.md R35, 70_reset_and_hazards.md R183 step 4). -/
  irqEnabled : Bool
  /-- What the boot sequence does next (70_reset_and_hazards.md R183). -/
  boot : BootStep
  /-- Button levels, true is asserted (10_state.md R26). -/
  lvlStart : Bool
  lvlSec : Bool
  lvlMin : Bool
  /-- The display controller (10_state.md R32, 20_memory.md section 3). -/
  controller : Controller
  /-- The output trace, oldest event first (10_state.md R22). -/
  trace : List Event
  /-- The model's own: what the environment does next (log 9). -/
  inbox : List Input
deriving DecidableEq, Repr

/-- The one fault. The hardware raises none (60_exceptions.md R150). -/
inductive Fault where
  /-- Raised by reading `cursor` before initialize() has written it: "a model must treat a read of it as a fault"
  (10_state.md R18, 93_implementation_defined.md U7). Safe: the model stops. -/
  | uninitialisedRead
deriving DecidableEq, Repr

/-- The refusals: preconditions of the spec that a step does not meet. -/
inductive Refusal where
  /-- An instruction that has no meaning in this model yet. Safe. -/
  | notModelled (mnemonic : String)
  /-- A DisplayDriver operation other than initialize() while the six lines are not outputs, raised by every operation
  that drives them (93_implementation_defined.md U4, 70_reset_and_hazards.md R185). Safe: no successor state. -/
  | driverBeforeInitialize
  /-- `writeChar` with the cursor at 16 or more, raised by writeChar, addText and setText (40_display_driver.md R100,
  93_implementation_defined.md U1, U2). Safe: no successor state. -/
  | writePastColumn15
  /-- A handler invocation before boot step 4, raised by Handler (93_implementation_defined.md U8). Safe. -/
  | handlerBeforeEnable
  /-- A handler invocation inside another, raised by Handler: "no second invocation can begin" (10_state.md R21,
  60_exceptions.md R157). Safe. -/
  | handlerReentered
  /-- An operation request whose bits are no row of the table, raised by the step (30_encoding.md R74). Safe. -/
  | undecodable (why : DecodeReject)
deriving DecidableEq, Repr

/-- The controller at power-on: bus width unknown, nothing known in memory, not settled yet (70_reset_and_hazards.md R193);
the register values are the model's (93_implementation_defined.md U6; log 3, 4). -/
def Controller.reset : Controller where
  bus := .unknown 0
  busy := Config.tPowerOn
  ac := 0
  ddram := []
  function := 0
  display := 0
  entry := 0
  reservedSeen := false
  freeIx := 0

/-- The machine after power-on reset and before the boot sequence (10_state.md R35). The values of `cursor`, the display
lines and the levels are the model's (log 2, 3). -/
def State.reset : State where
  cfg := 0
  cur := 0
  sc := 0
  mode := .stopped
  tc := 0
  cursor := 0
  alarm := false
  lcdRs := false
  lcdEn := false
  lcdD := 0
  lcdDir := false
  ctx := .foreground
  efStart := false
  efSec := false
  efMin := false
  tp := false
  irqEnabled := false
  boot := .bringUp
  lvlStart := false
  lvlSec := false
  lvlMin := false
  controller := Controller.reset
  trace := []
  inbox := []

end Sys2Proof.Machine
end

