-- ==== Sys2Proof/Machine/Memory.lean ====
section
/-! DEFINITION. The display controller's character memory (20_memory.md R41, R48, R49): a list of cells in one
canonical form. -/

namespace Sys2Proof.Machine

/-- The number of DDRAM cells, by the 7-bit address of the set-address command (20_memory.md R41). -/
def ddramSize : Nat := 128

/-- Addresses rise strictly from `lo` on and stay inside the memory. -/
def Ddram.risesFrom (lo : Nat) : Ddram → Bool
  | [] => true
  | (a, _) :: rest => decide (lo ≤ a) && decide (a < ddramSize) && Ddram.risesFrom (a + 1) rest

/-- The canonical form: equal memories are equal lists. An unlisted cell has no value, so no entry can equal it (log 4). -/
def Ddram.wf (m : Ddram) : Bool := Ddram.risesFrom 0 m

/-- The known value of a cell, if there is one. -/
def Ddram.read (m : Ddram) (a : Nat) : Option Byte :=
  match m with
  | [] => none
  | (b, v) :: rest => if a = b then some v else Ddram.read rest a

/-- `MemWrite(addr, 1, v)` (00_scope.md section 6.3). -/
def Ddram.write (m : Ddram) (a : Nat) (v : Byte) : Ddram :=
  match m with
  | [] => [(a, v)]
  | (b, w) :: rest =>
    if a < b then (a, v) :: (b, w) :: rest
    else if a = b then (a, v) :: rest
    else (b, w) :: Ddram.write rest a v

/-- `n` cells from address `a` on, all with the value `v`. -/
def Ddram.filled (v : Byte) (a : Nat) : Nat → Ddram
  | 0 => []
  | n + 1 => (a, v) :: Ddram.filled v (a + 1) n

/-- The memory after a clear: every cell blank (20_memory.md R49). -/
def Ddram.blank : Ddram := Ddram.filled Config.charBlank 0 ddramSize

end Sys2Proof.Machine
end

