-- ==== Sys2Proof/Machine/Operands.lean ====
section
/-! DEFINITION. Operand forms: the nibble split, the column clamp and the column-to-address translation, the
decomposition of a seconds count and its two-digit formatting. -/

namespace Sys2Proof.Machine

/-- The first nibble on the wire, `b[7:4]` (20_memory.md R46, 30_encoding.md R63). -/
def hiNibble (b : Byte) : Nibble := b.extractLsb' 4 4

/-- The second nibble on the wire, `b[3:0]` (20_memory.md R46, 30_encoding.md R63). -/
def loNibble (b : Byte) : Nibble := b.extractLsb' 0 4

/-- The byte of two nibbles, `hi ‖ lo` (30_encoding.md R63). -/
def joinNibbles (hi lo : Nibble) : Byte := hi ++ lo

/-- The column clamp, `min(col, 15)`: "clamped, not rejected" (40_display_driver.md R96). -/
def clampColumn (col : Byte) : Nat := min col.toNat Config.maxCol

/-- The row-address offset logic, `A(c)` (20_memory.md R45). -/
def columnAddress (c : Nat) : Address :=
  if c < Config.rowCutoff then BitVec.ofNat 7 c else BitVec.ofNat 7 (c + Config.row2Adjust)

/-- `hrs = min(v div 3600, 255)` (41_timekeeper.md R117). -/
def hoursOf (v : Seconds) : Nat := min (v.toNat / 3600) Config.hoursMax

/-- `mns = (v div 60) mod 60` (41_timekeeper.md R117). -/
def minutesOf (v : Seconds) : Nat := v.toNat / 60 % 60

/-- `scs = v mod 60` (41_timekeeper.md R117). -/
def secondsOf (v : Seconds) : Nat := v.toNat % 60

/-- The character code of a decimal digit (30_encoding.md R73). -/
def digitChar (d : Nat) : Byte := BitVec.ofNat 8 (Config.charDigit0 + d)

/-- Two-digit formatting, the tens digit clamped to 9 (41_timekeeper.md R119). -/
def twoDigits (n : Nat) : List Byte := [digitChar (min (n / 10) 9), digitChar (n % 10)]

/-- RENDER_LAYOUT, "HH:MM:SS" from column 0 (41_timekeeper.md R121, decision D14). -/
def renderLayout (hrs mns scs : Nat) (colonOn : Bool) : List Byte :=
  let sep := if colonOn then Config.charColon else Config.charBlank
  twoDigits hrs ++ sep :: twoDigits mns ++ sep :: twoDigits scs

/-- `RenderText(v, colonOn)` (41_timekeeper.md R121). -/
def renderText (v : Seconds) (colonOn : Bool) : List Byte :=
  renderLayout (hoursOf v) (minutesOf v) (secondsOf v) colonOn

end Sys2Proof.Machine
end

