-- ==== Sys2Proof/Machine/Controller.lean ====
section
/-! DEFINITION. The display controller as a sink of nibble transfers (20_memory.md R48, R49; 30_encoding.md R70, R80). -/

namespace Sys2Proof.Machine

/-- Nothing is known of the registers and the cells any more: each register is a free value, no cell has a value
(93_implementation_defined.md U3, U5, U6; log 17, 18, 19). -/
def Controller.forget (c : Controller) : Controller :=
  { c with
    ac := Config.freeAddress c.freeIx
    ddram := []
    function := Config.freeFunction c.freeIx
    display := Config.freeDisplay c.freeIx
    entry := Config.freeEntry c.freeIx
    freeIx := c.freeIx + 1 }

/-- After a timing violation, a reserved byte, or a pulse that is no handshake nibble on a bus of unknown width: the width,
the pairing, the contents, and whether and how long the controller still executes are all unknown
(93_implementation_defined.md U3, U5, U6; log 18, 19). -/
def Controller.scramble (c : Controller) : Controller :=
  { c.forget with bus := .unknown 0, busy := Config.freeBusy c.freeIx }

/-- Time passes over the half of a byte that has arrived. -/
def Bus.elapse (t : Nat) (bus : Bus) : Bus :=
  match bus with
  | .unknown knocks => .unknown knocks
  | .eight => .eight
  | .four => .four
  | .fourHalf rs hi gap => .fourHalf rs hi (gap + t)

/-- Time passes: a wait of at least `t` microseconds, in which an execution that takes no longer ends. The power-on settle
is the longest (70_reset_and_hazards.md R193), so a wait of that length ends any. -/
def Controller.elapse (t : Nat) (c : Controller) : Controller :=
  { c with bus := c.bus.elapse t, busy := if c.busy ≤ t ∨ Config.tPowerOn ≤ t then 0 else c.busy - t }

/-- A function-set command taken as one nibble in 8-bit mode: its upper half gives DL, its lower half is driven by nobody
(30_encoding.md R70; log 17). The handshake starts the controller's byte stream afresh, so no verdict stands (log 18). -/
def Controller.handshake (width8 : Bool) (c : Controller) : Controller :=
  { c with
    bus := if width8 then .eight else .four
    function := bit width8 ++ (Config.freeHalf c.freeIx).extractLsb' 2 2
    reservedSeen := false
    freeIx := c.freeIx + 1 }

/-- A handshake nibble on a bus of unknown width, `knocks` of them having come before it: the third gives 8-bit mode
(30_encoding.md R70), the waits after the first and the second are 70_reset_and_hazards.md R193's, and what else the
nibbles do to the controller is unknown (93_implementation_defined.md U6; log 17, 20). -/
def Controller.knock (knocks : Nat) (c : Controller) : Controller :=
  match knocks with
  | 0 => { c.forget with bus := .unknown 1, busy := Config.tInit1 }
  | 1 => { c.forget with bus := .unknown 2, busy := Config.tInit2 }
  | _ + 2 => c.forget.handshake true

/-- The address counter after a character: it advances by one, modulo 128, when entry mode is left-to-right
(20_memory.md R48, 10_state.md R29, R30); otherwise the spec gives no value (log 22). -/
def Controller.advance (c : Controller) : Controller :=
  if c.entry.getLsbD 1 then { c with ac := c.ac + 1 }
  else { c with ac := Config.freeAddress c.freeIx, freeIx := c.freeIx + 1 }

/-- What an emitted word does in the controller (20_memory.md R48, R49; 10_state.md R27-R29; 30_encoding.md R70 for the
bus width). -/
def Controller.obey (w : LcdWord) (c : Controller) : Controller :=
  match w with
  | .clear => { c with ddram := Ddram.blank, ac := 0, busy := Config.tExecute }
  | .home => { c with ac := 0, busy := Config.tExecute }
  | .entry i s => { c with entry := bit i ++ bit s }
  | .display d cu b => { c with display := bit d ++ bit cu ++ bit b }
  | .function l n f _ => { c with function := bit l ++ bit n ++ bit f, bus := if l then .eight else .four }
  | .setAddr a => { c with ac := a }
  | .data ch => { c with ddram := c.ddram.write c.ac.toNat ch }.advance

/-- A reserved byte has a verdict and no meaning, and the sink has no step for it (30_encoding.md R74, decision D39,
93_implementation_defined.md U5): the verdict is recorded, and nothing is known of the controller any more, neither its
contents nor its bus mode, its pairing or whether it executes (log 18). -/
def Controller.reserved (c : Controller) : Controller := { c.scramble with reservedSeen := true }

/-- The word a byte is, among those the block can emit (30_encoding.md R74). -/
def emittedWord (rs : Bool) (b : Byte) : Option LcdWord :=
  if wireVerdict rs b = .emitted then lcdOfByte rs b else none

/-- A whole byte reaches the controller. -/
def Controller.takeByte (rs : Bool) (b : Byte) (c : Controller) : Controller :=
  match emittedWord rs b with
  | some w => c.obey w
  | none => c.reserved

/-- One pulse in 8-bit mode is a whole command or character, whose upper half is the nibble and whose lower half nobody
drives (30_encoding.md R70, decision D7; log 17): nibbles 3 and 2 are the function-set commands of the handshake. A command
whose byte is then a reserved one has no step (R74). -/
def Controller.takeWhole (rs : Bool) (n : Nibble) (c : Controller) : Controller :=
  if rs = Config.rsCommand ∧ n = Config.handshakeNibble then c.handshake true
  else if rs = Config.rsCommand ∧ n = Config.switchNibble then c.handshake false
  else ({ c with freeIx := c.freeIx + 1 } : Controller).takeByte rs (joinNibbles n (Config.freeHalf c.freeIx))

/-- The second half of a byte in 4-bit mode, whatever it was meant as: "an odd number of transfers would leave the
controller reading every later low nibble as a high nibble" (20_memory.md R54). Where register-select changed between the
halves, which of the two the byte is taken with is a free value (log 31). -/
def Controller.takePair (rsHi : Bool) (hi : Nibble) (rs : Bool) (lo : Nibble) (c : Controller) : Controller :=
  if rsHi = rs then ({ c with bus := .four } : Controller).takeByte rs (joinNibbles hi lo)
  else ({ c with bus := .four, freeIx := c.freeIx + 1 } : Controller).takeByte (Config.freeSelect c.freeIx)
    (joinNibbles hi lo)

/-- A nibble arrives `gap` microseconds after the first half of a byte in 4-bit mode. A handshake nibble that comes later
than the second half of a transaction does belongs to a handshake, which works "from any prior state" (30_encoding.md R70),
and the transaction before it was cut, which has no result in the spec (20_memory.md R54): it counts as a handshake nibble
on a bus of unknown width, the second one when the first half was one too, sent as long before as R193 of
70_reset_and_hazards.md asks. Any other nibble completes the byte (log 17). -/
def Controller.takeSecond (rsHi : Bool) (hi : Nibble) (gap : Nat) (rs : Bool) (n : Nibble) (c : Controller) : Controller :=
  if (rs = Config.rsCommand ∧ n = Config.handshakeNibble) ∧ Config.tBetweenHalves < gap then
    c.knock (if (rsHi = Config.rsCommand ∧ hi = Config.handshakeNibble) ∧ Config.tInit1 ≤ gap then 1 else 0)
  else c.takePair rsHi hi rs n

/-- One nibble transfer arrives, with register-select `rs` (30_encoding.md R80: the nibble of the whole pulse). In 4-bit
mode nibbles pair up, high first (20_memory.md R54); in 8-bit mode a pulse is a whole command; on a bus of unknown width
nibble 3, sent three times, forces 8-bit mode (30_encoding.md R70). A transfer while the controller accepts none has no
defined result (93_implementation_defined.md U3). -/
def Controller.receive (rs : Bool) (n : Nibble) (c : Controller) : Controller :=
  if c.busy ≠ 0 then c.scramble
  else match c.bus with
    | .unknown knocks =>
      if rs = Config.rsCommand ∧ n = Config.handshakeNibble then c.knock knocks else c.scramble
    | .eight => c.takeWhole rs n
    | .four => { c with bus := .fourHalf rs n 0 }
    | .fourHalf rsHi hi gap => c.takeSecond rsHi hi gap rs n

/-- One enable pulse as the controller sees it: the setup and hold waits, the nibble, the cycle wait
(30_encoding.md R61). -/
def Controller.pulse (rs : Bool) (n : Nibble) (c : Controller) : Controller :=
  (((c.elapse Config.tSetup).elapse Config.tHold).receive rs n).elapse Config.tCycle

/-- One byte transaction as the controller sees it, high nibble first (30_encoding.md R62). -/
def Controller.send (rs : Bool) (b : Byte) (c : Controller) : Controller :=
  (c.pulse rs (hiNibble b)).pulse rs (loNibble b)

/-- The character shown at a logical column: the content of cell `A(c)` (20_memory.md R43). -/
def Controller.shown (c : Controller) (column : Nat) : Option Byte :=
  c.ddram.read (columnAddress column).toNat

end Sys2Proof.Machine
end

