-- ==== Sys2Proof/Machine/Ops.lean ====
section
/-! DEFINITION. The shared operations over the state: outcomes in sequence, trace events and pins, the nibble and byte
transfers, the entry to and exit from the one interrupt handler, and the checked register read. -/

namespace Sys2Proof.Machine

/-- The outcome of a step of this machine. -/
abbrev Result := Host.Outcome State Fault Refusal

/-- `call Op` inside another operation (00_scope.md section 6.3): what follows runs on the state the first part leaves. -/
def andThen (r : Result) (f : State → Result) : Result :=
  match r with
  | .next s => f s
  | .fault e => .fault e
  | .refused e => .refused e

/-- `emit(e)`: the trace grows by one event (00_scope.md section 6.3, 10_state.md R22). -/
def State.emit (e : Event) (s : State) : State := { s with trace := s.trace ++ [e] }

/-- `wait(t)`: at least `t` microseconds elapse (00_scope.md section 6.3, 70_reset_and_hazards.md R190); the controller
has that much longer to execute. -/
def State.wait (t : Nat) (s : State) : State :=
  { s.emit (.wait t) with controller := s.controller.elapse t }

/-- The data lines are driven (40_display_driver.md R90). -/
def State.driveData (n : Nibble) (s : State) : State := { s.emit (.d n) with lcdD := n }

/-- The enable line is driven (40_display_driver.md R90). -/
def State.driveEnable (v : Bool) (s : State) : State := { s.emit (.en v) with lcdEn := v }

/-- The register-select line is driven (40_display_driver.md R91). -/
def State.driveSelect (v : Bool) (s : State) : State := { s.emit (.rs v) with lcdRs := v }

/-- The six lines become outputs, all driven to 0, with the one event `DIR_OUT` (40_display_driver.md R95, decision D32). -/
def State.configureLines (s : State) : State :=
  { s.emit .dirOut with lcdDir := true, lcdRs := false, lcdEn := false, lcdD := 0 }

/-- The alarm output is driven (10_state.md R19). -/
def State.driveAlarm (v : Bool) (s : State) : State := { s.emit (.alarm v) with alarm := v }

/-- The controller takes the nibble that one enable pulse offers (30_encoding.md R80). -/
def State.deliver (s : State) : State :=
  { s with controller := s.controller.receive s.lcdRs s.lcdD }

/-- One nibble transfer (40_display_driver.md R90, 30_encoding.md R61). -/
def State.pulseNibble (n : Nibble) (s : State) : State :=
  (((((((s.driveData n).driveEnable false).wait Config.tSetup).driveEnable true).wait Config.tHold).driveEnable
    false).deliver).wait Config.tCycle

/-- One byte transaction, high nibble first (40_display_driver.md R91, 30_encoding.md R62). -/
def State.sendByte (rs : Bool) (b : Byte) (s : State) : State :=
  ((s.driveSelect rs).pulseNibble (hiNibble b)).pulseNibble (loNibble b)

/-- A command byte (40_display_driver.md R92). -/
def State.sendCommand (b : Byte) (s : State) : State := s.sendByte Config.rsCommand b

/-- A wire word as a byte transaction (30_encoding.md R62). -/
def State.sendWord (w : LcdWord) (s : State) : State := s.sendByte w.rs w.byte

/-- The precondition of every DisplayDriver operation other than initialize(): the lines are outputs
(93_implementation_defined.md U4). -/
def State.withDriver (s : State) (f : State → Result) : Result :=
  if s.lcdDir then f s else .refused .driverBeforeInitialize

/-- Reading the tracked cursor. Before `initialize()` has run, "a model must treat a read of it as a fault" (10_state.md R18;
93_implementation_defined.md U7, treatment `fault`); `initialize()` writes it when it makes the lines outputs
(40_display_driver.md R95). `withDriver` comes before every use of it (U4, log 6), so no instruction is stopped here. -/
def State.withCursor (s : State) (f : Byte → Result) : Result :=
  if s.lcdDir then f s.cursor else .fault .uninitialisedRead

/-- Taking the one interrupt: the request is cleared and the context becomes InHandler; nothing is saved
(60_exceptions.md R156). -/
def State.enterHandler (s : State) : State := { s with tp := false, ctx := .inHandler }

/-- Returning from it: the context becomes Foreground; nothing is restored (60_exceptions.md R158). -/
def State.leaveHandler (s : State) : State := { s with ctx := .foreground }

/-- The electrical level of the alarm line (decision D18; log 26). -/
def State.alarmLevel (s : State) : Bool := s.alarm == Config.alarmOnLevel

/-- The logical value of a button line from its electrical level (decision D17; log 26). -/
def assertedOf (level : Bool) : Bool := level == Config.btnAssertedLevel

end Sys2Proof.Machine
end

