-- ==== Sys2Proof/Machine/Flags.lean ====
section
/-! DEFINITION. Edge-flags, input levels, the dispatch vector and the parity conditions (10_state.md R23-R26). -/

namespace Sys2Proof.Machine

/-- A button's edge-flag (10_state.md R23). -/
def State.flag (s : State) : Button → Bool
  | .start => s.efStart
  | .sec => s.efSec
  | .min => s.efMin

/-- A button's level, true is asserted (10_state.md R26). -/
def State.level (s : State) : Button → Bool
  | .start => s.lvlStart
  | .sec => s.lvlSec
  | .min => s.lvlMin

/-- Writes a button's edge-flag. -/
def State.setFlag (b : Button) (v : Bool) (s : State) : State :=
  match b with
  | .start => { s with efStart := v }
  | .sec => { s with efSec := v }
  | .min => { s with efMin := v }

/-- Writes a button's level. -/
def State.setLevel (b : Button) (v : Bool) (s : State) : State :=
  match b with
  | .start => { s with lvlStart := v }
  | .sec => { s with lvlSec := v }
  | .min => { s with lvlMin := v }

/-- `emit(CLRF(b)); x[ef_b] <- 0`, the handler's clear (42_input_dispatcher.md R132, R133). -/
def State.clearFlag (b : Button) (s : State) : State := (s.emit (.clrf b)).setFlag b false

/-- The vector the handler forms at the combo check (30_encoding.md R75). -/
def State.dispatchVector (s : State) : BitVec 5 :=
  dispatchVectorOf s.lvlSec s.lvlMin s.efStart s.efSec s.efMin

/-- secondCounter is even (41_timekeeper.md R116). -/
def evenSeconds (sc : Byte) : Bool := sc % 2 == 0

/-- The phase at which a blinking colon is shown (41_timekeeper.md R118, decision D13). -/
def colonPhase (sc : Byte) : Bool := sc % 2 == Config.colonOnParity

/-- Whether a render shows the colon (41_timekeeper.md R118). -/
def State.colonOn (s : State) : Bool :=
  match s.mode with
  | .stopped => true
  | .running => true
  | .paused => colonPhase s.sc
  | .alarm => colonPhase s.sc

/-- The seconds count a render shows (41_timekeeper.md R118). -/
def State.shownSeconds (s : State) : Seconds :=
  match s.mode with
  | .stopped => s.cfg
  | .paused => s.cur
  | .running => s.cur
  | .alarm => s.cur

end Sys2Proof.Machine
end

