-- ==== Sys2Proof/Machine/Driver.lean ====
section
/-! DEFINITION. DisplayDriver operations (40_display_driver.md R90-R101). -/

namespace Sys2Proof.Machine

/-- `command(0x80 | A(c))` and the tracked cursor, with the column clamped (40_display_driver.md R96). -/
def State.moveCursor (col : Byte) (s : State) : State :=
  { s.sendCommand (LcdWord.setAddr (columnAddress (clampColumn col))).byte with
    cursor := BitVec.ofNat 8 (clampColumn col) }

/-- `clear()` (40_display_driver.md R97). -/
def State.clearDisplay (s : State) : State :=
  { (s.sendCommand Config.cmdClear).wait Config.tClear with cursor := 0 }

/-- `home()` (40_display_driver.md R98). -/
def State.homeDisplay (s : State) : State :=
  { (s.sendCommand Config.cmdHome).wait Config.tClear with cursor := 0 }

/-- The body of `writeChar(ch)` for a cursor that is in range (40_display_driver.md R100). -/
def State.placeChar (ch : Byte) (s : State) : State :=
  let s := if s.cursor.toNat = Config.rowCutoff then s.moveCursor (BitVec.ofNat 8 Config.rowCutoff) else s
  { s.sendByte Config.rsData ch with cursor := s.cursor + 1 }

/-- `writeChar(ch)`, refused past column 15 (40_display_driver.md R100, 93_implementation_defined.md U1). -/
def putChar (ch : Byte) (s : State) : Result :=
  s.withCursor fun cursor =>
    if Config.cols ≤ cursor.toNat then .refused .writePastColumn15 else .next (s.placeChar ch)

/-- `addText(s)`: each character in order (40_display_driver.md R101). -/
def putText : List Byte → State → Result
  | [], s => .next s
  | ch :: rest, s => andThen (putChar ch s) (putText rest)

/-- `setText(s)`: clear, then write (40_display_driver.md R99). -/
def replaceText (text : List Byte) (s : State) : Result := putText text s.clearDisplay

/-- The power-on settle and the handshake of `initialize()` (40_display_driver.md R95, 30_encoding.md R70). -/
def State.handshake (s : State) : State :=
  ((((((((s.configureLines.wait Config.tPowerOn).driveSelect Config.rsCommand).pulseNibble
    Config.handshakeNibble).wait Config.tInit1).pulseNibble
    Config.handshakeNibble).wait Config.tInit2).pulseNibble
    Config.handshakeNibble).wait Config.tInit3).pulseNibble Config.switchNibble

/-- `initialize()` (40_display_driver.md R95). -/
def State.bringUpDisplay (s : State) : State :=
  (((s.handshake.sendCommand (Config.cmdFunction ||| Config.functionFlags)).sendCommand
    (Config.cmdDisplay ||| Config.displayFlags)).clearDisplay).sendCommand
    (Config.cmdEntry ||| Config.entryFlags)

/-! The meanings of the rows. -/

/-- `initialize()` (R95); a second call repeats the whole sequence (93_implementation_defined.md U11). -/
def execInitializeDisplay (s : State) : Result := .next s.bringUpDisplay

/-- `setCursor(col)` (R96). -/
def execSetCursor (col : Byte) (s : State) : Result := s.withDriver fun s => .next (s.moveCursor col)

/-- `clear()` (R97). -/
def execClear (s : State) : Result := s.withDriver fun s => .next s.clearDisplay

/-- `home()` (R98). -/
def execHome (s : State) : Result := s.withDriver fun s => .next s.homeDisplay

/-- `setText(s)` (R99). -/
def execSetText (text : List Byte) (s : State) : Result := s.withDriver (replaceText text)

/-- `addText(s)` (R101). -/
def execAddText (text : List Byte) (s : State) : Result := s.withDriver (putText text)

/-- `writeChar(ch)` (R100). -/
def execWriteChar (ch : Byte) (s : State) : Result := s.withDriver (putChar ch)

/-- `writeByte(rs, b)` (R91). -/
def execWriteByte (rs : Bool) (b : Byte) (s : State) : Result := s.withDriver fun s => .next (s.sendByte rs b)

/-- `writeNibble(n)` (R90). -/
def execWriteNibble (n : Nibble) (s : State) : Result := s.withDriver fun s => .next (s.pulseNibble n)

/-- `command(b)` is `writeByte(0, b)` (R92). -/
def execCommand (b : Byte) (s : State) : Result := s.withDriver fun s => .next (s.sendCommand b)

/-- `data(b)` is `writeByte(1, b)` (R93). -/
def execData (b : Byte) (s : State) : Result := s.withDriver fun s => .next (s.sendByte Config.rsData b)

end Sys2Proof.Machine
end

