-- ==== Sys2Proof/Machine/TimeKeeper.lean ====
section
/-! DEFINITION. TimeKeeper events and the render that ends each (41_timekeeper.md R110-R121). -/

namespace Sys2Proof.Machine

/-- The text a render writes (41_timekeeper.md R118, R121). -/
def State.text (s : State) : List Byte := renderText s.shownSeconds s.colonOn

/-- `Render()` (41_timekeeper.md R118). -/
def renderDisplay (s : State) : Result := s.withDriver (replaceText s.text)

/-- The register updates of StartButton, with its alarm write on leaving Alarm (41_timekeeper.md R112). -/
def State.toggleRun (s : State) : State :=
  match s.mode with
  | .stopped => { s with cur := s.cfg, mode := .running, sc := 0 }
  | .paused => { s with mode := .running, sc := 0 }
  | .running => { s with mode := .paused, sc := 0 }
  | .alarm => { { s with mode := .stopped }.driveAlarm false with sc := 0 }

/-- The register updates of SecButton and MinButton, `k` seconds (41_timekeeper.md R113, R114). -/
def State.addTime (k : Seconds) (s : State) : State :=
  match s.mode with
  | .stopped => { s with cfg := s.cfg + k }
  | .running => if s.cfg ≠ 0 then { s with cur := s.cur + k } else s
  | .paused => if s.cfg ≠ 0 then { s with cur := s.cur + k } else s
  | .alarm => s

/-- The register updates and alarm write of ResetGesture (41_timekeeper.md R115). -/
def State.reinitialise (s : State) : State :=
  { s with mode := .stopped, cfg := 0, cur := 0, sc := 0 }.driveAlarm false

/-- The Running block of Tick, after `sc` has advanced (41_timekeeper.md R116). -/
def State.countSecond (s : State) : State :=
  let cur := if s.cfg ≠ 0 then s.cur - 1 else s.cur + 1
  if cur = 0 then { s with cur := cur, mode := .alarm, sc := 0 } else { s with cur := cur }

/-- The alarm output follows the parity of `sc` in Alarm mode; with ALARM_ON_TRANSITION_TICK false the tick that enters
Alarm does not write it (41_timekeeper.md R116, decision D12). -/
def State.soundAlarm (modeBefore : Mode) (s : State) : State :=
  if s.mode = .alarm ∧ (Config.alarmOnTransitionTick ∨ modeBefore = .alarm) then s.driveAlarm (evenSeconds s.sc) else s

/-- The register updates and alarm write of Tick (41_timekeeper.md R116). -/
def State.secondTick (s : State) : State :=
  let t := { s with sc := s.sc + 1 }
  (if t.mode = .running then t.countSecond else t).soundAlarm s.mode

/-! The events: updates, alarm write, render (41_timekeeper.md R110). -/

/-- `StartButton` (R112). -/
def execStartButton (s : State) : Result := renderDisplay s.toggleRun

/-- `SecButton` (R113). -/
def execSecButton (s : State) : Result := renderDisplay (s.addTime 1)

/-- `MinButton` (R114). -/
def execMinButton (s : State) : Result := renderDisplay (s.addTime 60)

/-- `ResetGesture` (R115). -/
def execResetGesture (s : State) : Result := renderDisplay s.reinitialise

/-- `Tick` (R116). -/
def execTick (s : State) : Result := renderDisplay s.secondTick

/-- `Render` (R118). -/
def execRender (s : State) : Result := renderDisplay s

end Sys2Proof.Machine
end

