-- ==== Sys2Proof/Machine/Boot.lean ====
section
/-! DEFINITION. The boot sequence, one operation a step (70_reset_and_hazards.md R183). -/

namespace Sys2Proof.Machine

/-- Step 2, 3 or 4 of the boot sequence; nothing once it is over. -/
def bootStep (s : State) : Result :=
  match s.boot with
  | .bringUp => .next { s.bringUpDisplay with boot := .firstRender }
  | .firstRender =>
    if Config.bootRender then andThen (renderDisplay s) fun t => .next { t with boot := .enableTimer }
    else .next { s with boot := .enableTimer }
  | .enableTimer => .next { s with irqEnabled := true, boot := .idle }
  | .idle => .next s

/-- The rest of the boot sequence, in one go. -/
def bootSequence (s : State) : Result := andThen (andThen (bootStep s) bootStep) bootStep

/-- The state with its boot sequence completed (log 9). -/
def State.booted (s : State) : State :=
  match bootSequence s with
  | .next t => t
  | .fault _ => s
  | .refused _ => s

end Sys2Proof.Machine
end

