-- ==== Sys2Proof/Machine/Dispatcher.lean ====
section
/-! DEFINITION. InputDispatcher: the interrupt handler and the branches of its dispatch decode
(42_input_dispatcher.md R130-R134). -/

namespace Sys2Proof.Machine

/-- Step 1, tick scaling (R131). -/
def scaleTick (s : State) : Result :=
  let s := { s with tc := s.tc + 1 }
  if s.tc = Config.tickThreshold then execTick { s with tc := 0 } else .next s

/-- Step 2's branch: settle, clear both flags, fire (R132). -/
def serveCombo (s : State) : Result :=
  execResetGesture (((s.wait Config.tComboSettle).clearFlag .sec).clearFlag .min)

/-- A branch of step 3: the event, then the debounce wait, then the flag clear (R133). -/
def serveButton (b : Button) (event : State → Result) (s : State) : Result :=
  andThen (event s) fun s => .next ((s.wait Config.tDebounce).clearFlag b)

/-- The branch of a dispatch row (30_encoding.md R75). -/
def serveRow (row : DispatchRow) (s : State) : Result :=
  match row with
  | .reset => serveCombo s
  | .start => serveButton .start execStartButton s
  | .sec => serveButton .sec execSecButton s
  | .min => serveButton .min execMinButton s
  | .idle => .next s

/-- Steps 2 and 3, on the vector as it stands after step 1 (R132, R133, R135). -/
def dispatch (s : State) : Result := serveRow (dispatchRow s.dispatchVector) s

/-- One whole invocation: entry, steps 1 to 3, exit (R134; 60_exceptions.md R156, R158). -/
def invokeHandler (s : State) : Result :=
  andThen (andThen (scaleTick s.enterHandler) dispatch) fun s => .next s.leaveHandler

/-- `Handler` (R134), with its preconditions: the interrupt is enabled (93_implementation_defined.md U8) and no
invocation is running (10_state.md R21). -/
def execHandler (s : State) : Result :=
  if s.irqEnabled = false then .refused .handlerBeforeEnable
  else if s.ctx = .inHandler then .refused .handlerReentered
  else invokeHandler s

/-- The events one invocation fires, in order, as instructions (42_input_dispatcher.md R130, R138). -/
def State.eventsFired (s : State) : List Instr :=
  (if s.tc + 1 = Config.tickThreshold then [.tick] else []) ++
    match dispatchRow s.dispatchVector with
    | .reset => [.resetGesture]
    | .start => [.startButton]
    | .sec => [.secButton]
    | .min => [.minButton]
    | .idle => []

/-! The dispatch rows as instructions: the branch the row stands for (log 24). -/

/-- `DSP.RESET` (R132). -/
def execDspReset (_efStart _efSec _efMin : Bool) (s : State) : Result := serveRow .reset s

/-- `DSP.START` (R133). -/
def execDspStart (_lvlSec _lvlMin _efSec _efMin : Bool) (s : State) : Result := serveRow .start s

/-- `DSP.SEC` (R133). -/
def execDspSec (_lvlSec _lvlMin _efMin : Bool) (s : State) : Result := serveRow .sec s

/-- `DSP.MIN` (R133). -/
def execDspMin (_lvlSec _lvlMin : Bool) (s : State) : Result := serveRow .min s

/-- `DSP.NONE` (R134). -/
def execDspNone (_lvlSec _lvlMin : Bool) (s : State) : Result := serveRow .idle s

end Sys2Proof.Machine
end

