-- ==== Sys2Proof/Machine/Wire.lean ====
section
/-! DEFINITION. The wire words, the handshake nibbles and the nibble transfer as instructions (30_encoding.md R61-R72).
A WIRE9 word is one byte transaction: its pin sequence (R62) and the controller's answer to it (20_memory.md R48, R49). -/

namespace Sys2Proof.Machine

/-- `LCD.CLEAR` (30_encoding.md R65). -/
def execLcdClear (s : State) : Result := s.withDriver fun s => .next (s.sendWord .clear)

/-- `LCD.HOME` (30_encoding.md R66). -/
def execLcdHome (s : State) : Result := s.withDriver fun s => .next (s.sendWord .home)

/-- `LCD.ENTRY` (30_encoding.md R67). -/
def execLcdEntry (i sh : Bool) (s : State) : Result := s.withDriver fun s => .next (s.sendWord (.entry i sh))

/-- `LCD.DISPLAY` (30_encoding.md R68). -/
def execLcdDisplay (d c b : Bool) (s : State) : Result := s.withDriver fun s => .next (s.sendWord (.display d c b))

/-- `LCD.FUNCTION` (30_encoding.md R69). -/
def execLcdFunction (l n f : Bool) (x : BitVec 2) (s : State) : Result :=
  s.withDriver fun s => .next (s.sendWord (.function l n f x))

/-- `LCD.SETADDR` (30_encoding.md R71). -/
def execLcdSetAddr (a : Address) (s : State) : Result := s.withDriver fun s => .next (s.sendWord (.setAddr a))

/-- `LCD.DATA` (30_encoding.md R72). -/
def execLcdData (ch : Byte) (s : State) : Result := s.withDriver fun s => .next (s.sendWord (.data ch))

/-- `HS.NIB3`: one nibble transfer with register-select 0 (30_encoding.md R60, R70; log 23). -/
def execHsNib3 (s : State) : Result :=
  s.withDriver fun s => .next ((s.driveSelect Config.rsCommand).pulseNibble Config.handshakeNibble)

/-- `HS.NIB2`: one nibble transfer with register-select 0 (30_encoding.md R60, R70; log 23). -/
def execHsNib2 (s : State) : Result :=
  s.withDriver fun s => .next ((s.driveSelect Config.rsCommand).pulseNibble Config.switchNibble)

/-- `NIB`: one nibble transfer, "with the register-select line as it stands" (30_encoding.md R60, R61). -/
def execNib (n : Nibble) (s : State) : Result := s.withDriver fun s => .next (s.pulseNibble n)

end Sys2Proof.Machine
end

