-- ==== Sys2Proof/Machine/Dispatch.lean ====
section
/-! DEFINITION. One arm per row of spec/opcode_table.json. -/

namespace Sys2Proof.Machine

def exec (i : Instr) (s : State) : Host.Outcome State Fault Refusal :=
  match i with
  -- WIRE9
  | .lcdClear => Sys2Proof.Machine.execLcdClear s
  | .lcdHome => Sys2Proof.Machine.execLcdHome s
  | .lcdEntry b1 b0 => Sys2Proof.Machine.execLcdEntry b1 b0 s
  | .lcdDisplay d c b => Sys2Proof.Machine.execLcdDisplay d c b s
  | .lcdFunction l n f x => Sys2Proof.Machine.execLcdFunction l n f x s
  | .lcdSetAddr a => Sys2Proof.Machine.execLcdSetAddr a s
  | .lcdData ch => Sys2Proof.Machine.execLcdData ch s
  -- HS5 and NIB
  | .hsNib3 => Sys2Proof.Machine.execHsNib3 s
  | .hsNib2 => Sys2Proof.Machine.execHsNib2 s
  | .nib n => Sys2Proof.Machine.execNib n s
  -- DISPATCH5
  | .dspReset es ec em => Sys2Proof.Machine.execDspReset es ec em s
  | .dspStart ls lm ec em => Sys2Proof.Machine.execDspStart ls lm ec em s
  | .dspSec ls lm em => Sys2Proof.Machine.execDspSec ls lm em s
  | .dspMin ls lm => Sys2Proof.Machine.execDspMin ls lm s
  | .dspNone ls lm => Sys2Proof.Machine.execDspNone ls lm s
  -- OPSEL
  | .initializeDisplay => Sys2Proof.Machine.execInitializeDisplay s
  | .setCursor col => Sys2Proof.Machine.execSetCursor col s
  | .clear => Sys2Proof.Machine.execClear s
  | .home => Sys2Proof.Machine.execHome s
  | .setText text => Sys2Proof.Machine.execSetText text s
  | .addText text => Sys2Proof.Machine.execAddText text s
  | .writeChar ch => Sys2Proof.Machine.execWriteChar ch s
  | .writeByte rs b => Sys2Proof.Machine.execWriteByte rs b s
  | .writeNibble n => Sys2Proof.Machine.execWriteNibble n s
  | .startButton => Sys2Proof.Machine.execStartButton s
  | .secButton => Sys2Proof.Machine.execSecButton s
  | .minButton => Sys2Proof.Machine.execMinButton s
  | .resetGesture => Sys2Proof.Machine.execResetGesture s
  | .tick => Sys2Proof.Machine.execTick s
  | .render => Sys2Proof.Machine.execRender s
  | .handler => Sys2Proof.Machine.execHandler s
  | .command b => Sys2Proof.Machine.execCommand b s
  | .data b => Sys2Proof.Machine.execData b s

end Sys2Proof.Machine
end

