-- ==== Sys2Proof/Machine/Environment.lean ====
section
/-! DEFINITION. What the environment does between two steps (30_encoding.md R78; 10_state.md R23, R24, R26). -/

namespace Sys2Proof.Machine

/-- Power-up: every register of the block at its reset value and the boot sequence next; the controller is a separate
device and may be left anywhere, also in the middle of a byte, not settled yet (70_reset_and_hazards.md R180, R193; log 14).
The levels and the rest of the inbox are the environment's. -/
def State.powerUp (s : State) : State :=
  { State.reset with
    lvlStart := s.lvlStart
    lvlSec := s.lvlSec
    lvlMin := s.lvlMin
    controller := { s.controller.scramble with busy := Config.tPowerOn }
    inbox := s.inbox }

/-- One environment action; `proceed` and an operation request change nothing themselves. -/
def State.react (s : State) : Input → State
  | .press b => (s.setLevel b true).setFlag b true
  | .release b => s.setLevel b false
  | .raise b => s.setLevel b true
  | .setFlag b => s.setFlag b true
  | .hardwareTick => { s with tp := true }
  | .powerUp => s.powerUp
  | .proceed => s
  | .operation _ _ => s

/-- The timer's request is taken now: pending, enabled, and the foreground runs (60_exceptions.md R153). -/
def State.requestTaken (s : State) : Bool := s.tp && s.irqEnabled && decide (s.ctx = .foreground)

end Sys2Proof.Machine
end

