-- ==== Sys2Proof/Machine/Foreground.lean ====
section
/-! DEFINITION. Whose turn it is, what the block does with its turn, and how an operation request is laid into the inbox (log 9, 11). -/

namespace Sys2Proof.Machine

/-- An operation request is decoded and run; bits that are no row are refused (30_encoding.md R74). -/
def runRequest (fmt : Format) (bytes : List Byte) (s : State) : Result :=
  match decode fmt bytes with
  | .ok i => exec i s
  | .error why => .refused (.undecodable why)

/-- After boot: a pending timer request is taken ("the next invocation begins at once", 60_exceptions.md R153, R158); else
"the foreground loop is idle" (10_state.md R21, 60_exceptions.md R166). -/
def idleStep (s : State) : Result := if s.requestTaken then exec .handler s else .next s

/-- The block's next operation: the boot sequence until it is over, then the handler when its request is pending. -/
def blockStep (s : State) : Result :=
  match s.boot with
  | .idle => idleStep s
  | .bringUp => bootStep s
  | .firstRender => bootStep s
  | .enableTimer => bootStep s

/-- An operation asked for directly (30_encoding.md R78): it waits for the end of boot, because none runs before
(70_reset_and_hazards.md R185). -/
def directStep (fmt : Format) (bytes : List Byte) (rest : List Input) (s : State) : Result :=
  match s.boot with
  | .idle => runRequest fmt bytes { s with inbox := rest }
  | .bringUp => bootStep s
  | .firstRender => bootStep s
  | .enableTimer => bootStep s

/-- Whose turn it is: the environment acts whenever it has something to do, at any moment of boot and before a pending
request too (60_exceptions.md R153, 70_reset_and_hazards.md R180, R190); the block runs its next operation when the
environment lets it or has nothing to do (log 11). -/
def turn (s : State) : Result :=
  match s.inbox with
  | [] => blockStep s
  | .proceed :: rest => blockStep { s with inbox := rest }
  | .operation fmt bytes :: rest => directStep fmt bytes rest s
  | .press b :: rest => .next ({ s with inbox := rest }.react (.press b))
  | .release b :: rest => .next ({ s with inbox := rest }.react (.release b))
  | .raise b :: rest => .next ({ s with inbox := rest }.react (.raise b))
  | .setFlag b :: rest => .next ({ s with inbox := rest }.react (.setFlag b))
  | .hardwareTick :: rest => .next ({ s with inbox := rest }.react .hardwareTick)
  | .powerUp :: rest => .next ({ s with inbox := rest }.react .powerUp)

/-- A request as the next thing the machine runs: the boot sequence is over, because no operation runs before it
(70_reset_and_hazards.md R183, R185), and the request heads the inbox. -/
def State.withRequest (s : State) (fmt : Format) (bytes : List Byte) : State :=
  { s.booted with inbox := .operation fmt bytes :: s.inbox }

end Sys2Proof.Machine
end

