-- ==== Sys2Proof/Machine/Step.lean ====
section
/-! DEFINITION. One step of the machine: one operation of the block or one action of the environment. -/

namespace Sys2Proof.Machine

/-- One step is one operation of the block or one action of the environment (00_scope.md R6, decision D1; log 11). -/
def step (s : State) : Host.Outcome State Fault Refusal := turn s

/-- The state whose next step runs the instruction that the table's word `w` stands for (log 9, 10). -/
def State.withFetchWord (s : State) (nbits w : Nat) : State :=
  s.withRequest (tableRequest nbits w).1 (tableRequest nbits w).2

end Sys2Proof.Machine
end

