-- ==== Sys2Proof/Machine/Trace.lean ====
section
/-! DEFINITION. The three views of a trace (30_encoding.md R79, R81), the pin sequences of the wire formats
(R61, R62), and the time a trace takes at least (70_reset_and_hazards.md R190, R198). -/

namespace Sys2Proof.Machine

/-- The pin sequence of one nibble transfer (30_encoding.md R61). -/
def nibbleEvents (n : Nibble) : List Event :=
  [.d n, .en false, .wait Config.tSetup, .en true, .wait Config.tHold, .en false, .wait Config.tCycle]

/-- The pin sequence of one byte transaction (30_encoding.md R62). -/
def byteEvents (rs : Bool) (b : Byte) : List Event :=
  .rs rs :: nibbleEvents (hiNibble b) ++ nibbleEvents (loNibble b)

/-- The pin sequence of `clear()` (40_display_driver.md R97). -/
def clearEvents : List Event := byteEvents Config.rsCommand Config.cmdClear ++ [.wait Config.tClear]

/-- The pin sequence of one `writeChar` at a given cursor (40_display_driver.md R100). -/
def charEvents (cursor : Nat) (ch : Byte) : List Event :=
  (if cursor = Config.rowCutoff then byteEvents Config.rsCommand 0xC0 else []) ++ byteEvents Config.rsData ch

/-- The pin sequence of `addText` from a given cursor (40_display_driver.md R101). -/
def textEvents (cursor : Nat) : List Byte → List Event
  | [] => []
  | ch :: rest => charEvents cursor ch ++ textEvents (cursor + 1) rest

/-- The pin sequence of a render of a text (41_timekeeper.md R118): `setText`. -/
def renderEvents (text : List Byte) : List Event := clearEvents ++ textEvents 0 text

/-- The pin sequence of `initialize()` (40_display_driver.md R95). -/
def bringUpEvents : List Event :=
  [.dirOut, .wait Config.tPowerOn, .rs Config.rsCommand] ++
  (nibbleEvents Config.handshakeNibble ++ [.wait Config.tInit1]) ++
  (nibbleEvents Config.handshakeNibble ++ [.wait Config.tInit2]) ++
  (nibbleEvents Config.handshakeNibble ++ [.wait Config.tInit3]) ++
  nibbleEvents Config.switchNibble ++
  byteEvents Config.rsCommand 0x28 ++ byteEvents Config.rsCommand 0x0C ++ clearEvents ++
  byteEvents Config.rsCommand 0x06

/-- The least time a trace takes, in microseconds: consecutive waits add (70_reset_and_hazards.md R190, R198). -/
def duration : List Event → Nat
  | [] => 0
  | .wait t :: rest => t + duration rest
  | .dirOut :: rest => duration rest
  | .rs _ :: rest => duration rest
  | .d _ :: rest => duration rest
  | .en _ :: rest => duration rest
  | .alarm _ :: rest => duration rest
  | .clrf _ :: rest => duration rest

/-- Level L1: nibble transfers and everything else. -/
inductive Event1 where
  | nib (rs : Bool) (n : Nibble)
  | other (e : Event)
deriving DecidableEq, Repr

/-- Level L2: bytes, handshake nibbles and everything else. -/
inductive Event2 where
  | byte (rs : Bool) (b : Byte)
  | handshake (n : Nibble)
  | other (e : Event1)
deriving DecidableEq, Repr

/-- The nibble whose pin sequence a trace begins with. -/
def leadingNibble : List Event → Option Nibble
  | .d n :: rest => if rest.take 6 = (nibbleEvents n).tail then some n else none
  | _ => none

/-- L0 to L1: each pin sequence of a nibble becomes one event with the most recent register-select value. `skip` counts
the events of the sequence that was just replaced. -/
def toL1From (rs : Bool) (skip : Nat) : List Event → List Event1
  | [] => []
  | e :: rest =>
    match skip with
    | k + 1 => toL1From rs k rest
    | 0 =>
      match leadingNibble (e :: rest) with
      | some n => .nib rs n :: toL1From rs 6 rest
      | none => match e with
        | .rs v => .other (.rs v) :: toL1From v 0 rest
        | _ => .other e :: toL1From rs 0 rest

/-- Level L1 of a trace (30_encoding.md R79). A nibble before the first register-select event of the trace is read with
register-select 0, the model's choice (log 28). -/
def toL1 (trace : List Event) : List Event1 := toL1From false 0 trace

/-- The byte whose three events a level L1 trace begins with (30_encoding.md R79). -/
def leadingByte : List Event1 → Option (Bool × Byte)
  | .other (.rs rs) :: .nib rsHi hi :: .nib rsLo lo :: _ =>
    if rsHi = rs ∧ rsLo = rs then some (rs, joinNibbles hi lo) else none
  | _ => none

/-- L1 to L2: the first four nibbles after DIR_OUT are handshake units, and the register-select event before them belongs
to them (log 28); after the handshake a register-select event and two nibbles with its value become one byte, and every
other event stays (30_encoding.md R79, R81). `units` counts the handshake nibbles still to come, `skip` the events of the
byte that was just replaced. -/
def toL2From (units skip : Nat) : List Event1 → List Event2
  | [] => []
  | e :: rest =>
    match skip with
    | k + 1 => toL2From units k rest
    | 0 =>
      match units, e with
      | _, .other .dirOut => .other e :: toL2From 4 0 rest
      | k + 1, .nib _ n => .handshake n :: toL2From k 0 rest
      | k + 1, .other (.rs _) => toL2From (k + 1) 0 rest
      | _, _ =>
        match leadingByte (e :: rest) with
        | some (rs, b) => .byte rs b :: toL2From units 2 rest
        | none => .other e :: toL2From units 0 rest

/-- Level L2 of a trace (30_encoding.md R79). -/
def toL2 (trace : List Event) : List Event2 := toL2From 0 0 (toL1 trace)

end Sys2Proof.Machine
end

