-- ==== Sys2Proof/Safety.lean ====
section
/-! DEFINITION. What counts as a safe state and what an operation may leave alone, in the terms the statements use. -/

namespace Sys2Proof.Machine

/-- What holds at reset and after every step, whatever operations the environment asks for: the alarm is off outside
Alarm (10_state.md R19, 41_timekeeper.md R122), the tick counter is below the threshold (10_state.md R16), the cursor is
at most 16 (10_state.md R17), enable rests low (40_display_driver.md R103), no handler is running between steps
(60_exceptions.md R158), the lines are outputs exactly once bring-up is over and the interrupt is enabled exactly once boot
is over (70_reset_and_hazards.md R183, R185), and the character memory is canonical. -/
structure State.Inv (s : State) : Prop where
  alarmOff : s.mode ≠ .alarm → s.alarm = false
  ticksBelow : s.tc.toNat < 25
  cursorRange : s.cursor.toNat ≤ 16
  enableLow : s.lcdEn = false
  foreground : s.ctx = .foreground
  linesOut : s.lcdDir = decide (s.boot ≠ .bringUp)
  interruptOn : s.irqEnabled = decide (s.boot = .idle)
  memory : s.controller.ddram.wf = true

/-- The controller as `initialize()` leaves it, ready for a byte: 4-bit mode between two bytes, not executing, function
0x28, display control 0x0C, entry mode 0x06, no reserved byte seen (93_implementation_defined.md U6). -/
structure Controller.Ready (c : Controller) : Prop where
  bus : c.bus = .four
  idle : c.busy = 0
  function : c.function = 0b010#3
  display : c.display = 0b100#3
  entry : c.entry = 0b10#2
  noReserved : c.reservedSeen = false

/-- The driver and the controller agree on a tracked cursor (20_memory.md R50): the address counter is the cursor's cell,
or, at the row cutoff, the cell after column 7's. -/
structure Controller.Agrees (cursor : Nat) (c : Controller) : Prop where
  ready : c.Ready
  range : cursor ≤ 16
  firstRow : cursor < 8 → c.ac.toNat = cursor
  atCutoff : cursor = 8 → c.ac = 0x08#7 ∨ c.ac = 0x40#7
  secondRow : 8 < cursor → c.ac.toNat = cursor + 0x38

/-- What `initialize()` and every defined driver operation leave (40_display_driver.md R103). -/
structure State.Linked (s : State) : Prop where
  linesOut : s.lcdDir = true
  enableLow : s.lcdEn = false
  agrees : s.controller.Agrees s.cursor.toNat

/-- The sixteen columns show a text, and blanks after it (20_memory.md R43, 41_timekeeper.md R121). -/
def State.Shows (s : State) (text : List Byte) : Prop :=
  ∀ c, c < 16 → s.controller.shown c = some (text.getD c 0x20#8)

/-- The TimeKeeper's registers and the alarm output are as before. -/
def KeepsTime (s t : State) : Prop :=
  t.cfg = s.cfg ∧ t.cur = s.cur ∧ t.sc = s.sc ∧ t.mode = s.mode ∧ t.alarm = s.alarm

/-- The edge-flags are as before. -/
def KeepsFlags (s t : State) : Prop := t.efStart = s.efStart ∧ t.efSec = s.efSec ∧ t.efMin = s.efMin

/-- The levels and what the environment does next are as before. -/
def KeepsEnvironment (s t : State) : Prop :=
  t.lvlStart = s.lvlStart ∧ t.lvlSec = s.lvlSec ∧ t.lvlMin = s.lvlMin ∧ t.inbox = s.inbox

/-- The sequencer's context, the timer request, the interrupt enable and the boot position are as before. -/
def KeepsControl (s t : State) : Prop :=
  t.ctx = s.ctx ∧ t.tp = s.tp ∧ t.irqEnabled = s.irqEnabled ∧ t.boot = s.boot

/-- Everything outside the DisplayDriver, its lines and the controller is as before. -/
def KeepsOutsideDriver (s t : State) : Prop :=
  KeepsTime s t ∧ KeepsFlags s t ∧ KeepsEnvironment s t ∧ KeepsControl s t ∧ t.tc = s.tc

/-- The controller's registers other than the address counter and the memory are as before. -/
def KeepsControllerModes (c d : Controller) : Prop :=
  d.bus = c.bus ∧ d.function = c.function ∧ d.display = c.display ∧ d.entry = c.entry ∧
    d.reservedSeen = c.reservedSeen ∧ d.freeIx = c.freeIx

/-- The state after one byte transaction `(rs, b)`, spelled out (30_encoding.md R62, 40_display_driver.md R91). -/
def State.afterByte (rs : Bool) (b : Byte) (s : State) : State :=
  { s with
    lcdRs := rs
    lcdD := b.extractLsb' 0 4
    lcdEn := false
    trace := s.trace ++
      [.rs rs, .d (b.extractLsb' 4 4), .en false, .wait 1, .en true, .wait 1, .en false, .wait 100,
        .d (b.extractLsb' 0 4), .en false, .wait 1, .en true, .wait 1, .en false, .wait 100]
    controller := s.controller.send rs b }

/-- The state after a further wait. -/
def State.afterWait (t : Nat) (s : State) : State :=
  { s with trace := s.trace ++ [.wait t], controller := s.controller.elapse t }

/-- The count a Tick leaves in Running (41_timekeeper.md R116). -/
def State.counted (s : State) : Seconds := if s.cfg ≠ 0 then s.cur - 1 else s.cur + 1

/-- An operation that ends with the render of a text (41_timekeeper.md R110, R118): after the events `before` come those of
the render; the driver, its lines and the controller end as `setText` of that text leaves them; everything outside the
TimeKeeper, the driver, the lines and the controller is as before. -/
structure EndsWithRender (s t : State) (before : List Event) (text : List Byte) : Prop where
  trace : t.trace = s.trace ++ before ++ renderEvents text
  driver : ∃ u, exec (.setText text) s = .next u ∧ t.cursor = u.cursor ∧ t.lcdRs = u.lcdRs ∧ t.lcdEn = u.lcdEn ∧
    t.lcdD = u.lcdD ∧ t.lcdDir = u.lcdDir ∧ t.controller = u.controller
  flags : KeepsFlags s t
  environment : KeepsEnvironment s t
  control : KeepsControl s t
  ticks : t.tc = s.tc

/-- The rows that drive single wire words or nibbles past the driver's bookkeeping: the tracked cursor does not follow them
(70_reset_and_hazards.md R194). All other rows are operations of the block as the spec defines them. -/
def isRawWire : Instr → Bool
  | .lcdClear | .lcdHome | .lcdEntry .. | .lcdDisplay .. | .lcdFunction .. | .lcdSetAddr .. | .lcdData ..
  | .hsNib3 | .hsNib2 | .nib .. | .writeByte .. | .writeNibble .. | .command .. | .data .. => true
  | .dspReset .. | .dspStart .. | .dspSec .. | .dspMin .. | .dspNone ..
  | .initializeDisplay | .setCursor .. | .clear | .home | .setText .. | .addText .. | .writeChar ..
  | .startButton | .secButton | .minButton | .resetGesture | .tick | .render | .handler => false

/-- The rows of the DisplayDriver and of the wire (files 30 and 40 of the spec). -/
def isDriverRow : Instr → Bool
  | .initializeDisplay | .setCursor .. | .clear | .home | .setText .. | .addText .. | .writeChar .. => true
  | .dspReset .. | .dspStart .. | .dspSec .. | .dspMin .. | .dspNone ..
  | .startButton | .secButton | .minButton | .resetGesture | .tick | .render | .handler => false
  | .lcdClear | .lcdHome | .lcdEntry .. | .lcdDisplay .. | .lcdFunction .. | .lcdSetAddr .. | .lcdData ..
  | .hsNib3 | .hsNib2 | .nib .. | .writeByte .. | .writeNibble .. | .command .. | .data .. => true

/-- A request to run an operation directly (30_encoding.md R78). -/
def Input.isOperation : Input → Bool
  | .operation _ _ => true
  | .proceed | .press _ | .release _ | .raise _ | .setFlag _ | .hardwareTick | .powerUp => false

/-- What holds in every run of the device itself, in which nobody asks for an operation directly: from the boot render on,
driver and controller agree and the display shows the text of the current state (41_timekeeper.md R122). -/
structure State.DisplayInv (s : State) : Prop where
  inv : s.Inv
  noOperations : s.inbox.all (fun i => !i.isOperation) = true
  afterBringUp : s.boot = .firstRender → s.Linked
  afterRender : s.boot = .enableTimer ∨ s.boot = .idle → s.Linked ∧ s.Shows s.text ∧ s.cursor = 8

/-- What a reader of the six lines can measure: the enable level, how long the data lines and the enable line have been
stable, in microseconds at least, and whether the trace has met the minimums so far. -/
structure Pins where
  en : Bool
  dataStable : Nat
  high : Nat
  low : Nat
  ok : Bool
deriving DecidableEq, Repr

/-- The wire contract (40_display_driver.md R94): (a) data stable at least T_SETUP before enable rises; (b) enable high at
least T_HOLD; (c) at least T_CYCLE from the end of a pulse to the next D, RS or rising enable; (e) neither register-select
nor the data lines change while enable is 1. -/
def Pins.see (p : Pins) : Event → Pins
  | .dirOut => { p with en := false, dataStable := 0, ok := p.ok && !p.en && decide (100 ≤ p.low) }
  | .rs _ => { p with ok := p.ok && !p.en && decide (100 ≤ p.low) }
  | .d _ => { p with dataStable := 0, ok := p.ok && !p.en && decide (100 ≤ p.low) }
  | .en true => { p with en := true, high := 0, ok := p.ok && !p.en && decide (1 ≤ p.dataStable) && decide (100 ≤ p.low) }
  | .en false =>
    if p.en then { p with en := false, low := 0, ok := p.ok && decide (1 ≤ p.high) } else p
  | .wait t => { p with dataStable := p.dataStable + t, high := p.high + t, low := p.low + t }
  | .alarm _ => p
  | .clrf _ => p

/-- A trace read from a point where the lines have been at rest for a cycle: every minimum is met, and it ends at rest. -/
def wireContract (trace : List Event) : Prop :=
  ∀ p : Pins, p.en = false → 100 ≤ p.low → p.ok = true →
    (trace.foldl Pins.see p).ok = true ∧ (trace.foldl Pins.see p).en = false ∧ 100 ≤ (trace.foldl Pins.see p).low

/-- Two states that differ at most in the display controller. -/
def SameBlock (s t : State) : Prop := t = { s with controller := t.controller }

/-- Two results that differ at most in the display controller: both run on, to such states, or both stop alike. -/
def SameBlockResult (q r : Result) : Prop :=
  match q, r with
  | .next s, .next t => SameBlock s t
  | .fault e, .fault f => e = f
  | .refused e, .refused f => e = f
  | .next _, .fault _ => False
  | .next _, .refused _ => False
  | .fault _, .next _ => False
  | .fault _, .refused _ => False
  | .refused _, .next _ => False
  | .refused _, .fault _ => False

end Sys2Proof.Machine
end

