-- ==== Sys2Proof/Certificates/Slice0/Obligations.lean ====
section
/-! DEFINITION. The statements for the provers, in the order of the spec's files: encodings, state and reset, memory,
the display driver, the TimeKeeper, the dispatcher, the interrupt, boot, and the machine as a whole. -/

open Sys2Proof Sys2Proof.Machine

/-! Encodings (30_encoding.md). -/

/-- Every well-formed instruction's words decode to it; `command` and `data` share writeByte's code and decode to it
(30_encoding.md R76, R77). The byte layout is the model's (log 10). -/
def Obligations.DecodeOfEncodeIsCanonical : Prop :=
  ∀ i : Instr, i.wellFormed = true → decode i.format (encode i) = .ok i.canonical

/-- Every request that decodes is, byte for byte, the encoding of the instruction it decodes to, and that instruction is
well-formed: no word has two readings and no bit of a word is ignored. The byte layout is the model's (log 10). -/
def Obligations.EncodeOfDecodeIsTheWord : Prop :=
  ∀ (fmt : Format) (bytes : List Byte) (i : Instr), decode fmt bytes = .ok i →
    i.format = fmt ∧ encode i = bytes ∧ i.wellFormed = true

/-- Words written out from the spec's encodings: pattern strings of R65-R72, R75 and R76. -/
def Obligations.WrittenOutWordsDecode : Prop :=
  decode .wire9 [0b00000001, 0b0] = .ok .lcdClear ∧
  decode .wire9 [0b00000010, 0b0] = .ok .lcdHome ∧
  decode .wire9 [0b00000110, 0b0] = .ok (.lcdEntry true false) ∧
  decode .wire9 [0b00001100, 0b0] = .ok (.lcdDisplay true false false) ∧
  decode .wire9 [0b00101000, 0b0] = .ok (.lcdFunction false true false 0) ∧
  decode .wire9 [0b11000111, 0b0] = .ok (.lcdSetAddr 0x47) ∧
  decode .wire9 [0b00111010, 0b1] = .ok (.lcdData 0x3A) ∧
  decode .hs5 [0b00011] = .ok .hsNib3 ∧
  decode .nib [0b1010] = .ok (.nib 0xA) ∧
  decode .dispatch5 [0b00110] = .ok (.dspStart false false true false) ∧
  decode .opsel [0x1, 20] = .ok (.setCursor 20) ∧
  decode .opsel [0x7, 1, 0x3A] = .ok (.writeByte true 0x3A)

/-- The first matching row of the dispatcher decode, for each of the 32 vectors (R75). -/
def Obligations.DispatchTakesFirstMatchingRow : Prop :=
  ∀ lvlSec lvlMin efStart efSec efMin : Bool,
    dispatchRow (dispatchVectorOf lvlSec lvlMin efStart efSec efMin) =
      if lvlSec && lvlMin then .reset
      else if efStart then .start
      else if efSec then .sec
      else if efMin then .min
      else .idle

/-- The verdicts of R74: the words the block can emit, the command bytes with a base code and an operand it never uses,
and those with no base code, which are no instruction. -/
def Obligations.WireVerdictsFollowTheLists : Prop :=
  (∀ ch : Byte, wireVerdict true ch = .emitted) ∧
  (∀ b : Byte, wireVerdict false b = .emitted ↔
    b = 0x01 ∨ b = 0x02 ∨ b = 0x06 ∨ b = 0x0C ∨ b = 0x28 ∨ (0x80 ≤ b ∧ b ≤ 0x87) ∨ (0xC0 ≤ b ∧ b ≤ 0xC7)) ∧
  (∀ b : Byte, wireVerdict false b = .reservedOperand ↔
    b = 0x04 ∨ b = 0x05 ∨ b = 0x07 ∨ (0x08 ≤ b ∧ b ≤ 0x0B) ∨ (0x0D ≤ b ∧ b ≤ 0x0F) ∨ (0x20 ≤ b ∧ b ≤ 0x27) ∨
      (0x29 ≤ b ∧ b ≤ 0x3F) ∨ (0x88 ≤ b ∧ b ≤ 0xBF) ∨ 0xC8 ≤ b) ∧
  (∀ b : Byte, wireVerdict false b = .reservedNoBase ↔
    b = 0x00 ∨ b = 0x03 ∨ (0x10 ≤ b ∧ b ≤ 0x1F) ∨ (0x40 ≤ b ∧ b ≤ 0x7F)) ∧
  (∀ b : Byte, wireVerdict false b = .reservedNoBase ↔ decode .wire9 [b, 0] = .error .noBaseCode)

/-- A byte transaction in a trace reads back as that one byte, at level L2 after the handshake, and a nibble transfer alone
stays the nibble it is at level L1 (R79). -/
def Obligations.ByteTransactionReadsBackAsItsByte : Prop :=
  (∀ (r rs : Bool) (b : Byte) (rest : List Event),
    toL2From 0 0 (toL1From r 0 (byteEvents rs b ++ rest)) = .byte rs b :: toL2From 0 0 (toL1From rs 0 rest)) ∧
  (∀ (r : Bool) (n : Nibble) (rest : List Event),
    toL2From 0 0 (toL1From r 0 (nibbleEvents n ++ rest)) = .other (.nib r n) :: toL2From 0 0 (toL1From r 0 rest))

/-! State and reset (10_state.md). -/

/-- The reset values the spec gives (R35); those the model chose (log 2, 3) are not here. -/
def Obligations.ResetGivesTheStatedValues : Prop :=
  State.reset.cfg = 0 ∧ State.reset.cur = 0 ∧ State.reset.sc = 0 ∧ State.reset.mode = .stopped ∧
  State.reset.tc = 0 ∧ State.reset.alarm = false ∧
  State.reset.efStart = false ∧ State.reset.efSec = false ∧ State.reset.efMin = false ∧
  State.reset.tp = false ∧ State.reset.lcdDir = false ∧ State.reset.ctx = .foreground ∧
  State.reset.irqEnabled = false ∧ State.reset.boot = .bringUp ∧ State.reset.trace = [] ∧
  State.reset.controller.bus = .unknown 0

/-! Memory (20_memory.md). -/

/-- The row-address offset logic (R45): its two branches, its worked values, its image and its injectivity. -/
def Obligations.ColumnAddressesFollowTheOffsetLogic : Prop :=
  (∀ c, c < 16 → (columnAddress c).toNat = if c < 8 then c else c + 0x38) ∧
  (∀ c d, c < 16 → d < 16 → columnAddress c = columnAddress d → c = d) ∧
  (∀ a : Address, (∃ c, c < 16 ∧ columnAddress c = a) ↔ a.toNat ≤ 0x07 ∨ (0x40 ≤ a.toNat ∧ a.toNat ≤ 0x47)) ∧
  columnAddress 7 = 0x07 ∧ columnAddress 8 = 0x40 ∧ columnAddress 15 = 0x47

/-- The nibble split (R63, R46). -/
def Obligations.NibblesAreTheHalvesOfAByte : Prop :=
  ∀ b : Byte, hiNibble b = b.extractLsb' 4 4 ∧ loNibble b = b.extractLsb' 0 4 ∧
    joinNibbles (hiNibble b) (loNibble b) = b ∧ b.toNat = 16 * (hiNibble b).toNat + (loNibble b).toNat

/-- Character memory: a read after a write gives the byte written, every other cell is as before, and a write inside the
memory keeps the canonical form. -/
def Obligations.MemoryReadsBackWhatWasWritten : Prop :=
  ∀ (m : Ddram) (a : Nat) (v : Byte),
    (m.write a v).read a = some v ∧
    (∀ b, b ≠ a → (m.write a v).read b = m.read b) ∧
    (m.wf = true → a < 128 → (m.write a v).wf = true)

/-- The block cannot read the display (R47): started from two states that differ only in the controller, every instruction
stops alike or ends in two states that differ only in the controller. -/
def Obligations.BlockNeverReadsTheDisplay : Prop :=
  ∀ (i : Instr) (s t : State), SameBlock s t → SameBlockResult (exec i s) (exec i t)

/-! The display driver (40_display_driver.md) and the wire. -/

/-- One nibble transfer, whole (R90, R61): writeNibble and NIB. That the controller takes the nibble at the falling edge,
and counts the waits, is the model's choice (log 16, 20). -/
def Obligations.NibbleTransferPulsesEnableOnce : Prop :=
  ∀ (n : Nibble) (i : Instr) (s : State), s.lcdDir = true → (i = .writeNibble n ∨ i = .nib n) →
    exec i s = .next { s with
      lcdD := n
      lcdEn := false
      trace := s.trace ++ [.d n, .en false, .wait 1, .en true, .wait 1, .en false, .wait 100]
      controller := (((s.controller.elapse 1).elapse 1).receive s.lcdRs n).elapse 100 }

/-- One byte transaction, whole (R91, R92, R93, R62): writeByte, command and data. The controller's clause is two nibble
transfers as the model has them (log 16, 20). -/
def Obligations.ByteTransactionSendsHighNibbleFirst : Prop :=
  ∀ (rs : Bool) (b : Byte) (i : Instr) (s : State), s.lcdDir = true →
    (i = .writeByte rs b ∨ (rs = false ∧ i = .command b) ∨ (rs = true ∧ i = .data b)) →
    exec i s = .next { s with
      lcdRs := rs
      lcdD := b.extractLsb' 0 4
      lcdEn := false
      trace := s.trace ++
        [.rs rs, .d (b.extractLsb' 4 4), .en false, .wait 1, .en true, .wait 1, .en false, .wait 100,
          .d (b.extractLsb' 0 4), .en false, .wait 1, .en true, .wait 1, .en false, .wait 100]
      controller := (s.controller.pulse rs (b.extractLsb' 4 4)).pulse rs (b.extractLsb' 0 4) }

/-- Each wire word is one byte transaction with the bits of its pattern (R65-R69, R71, R72), the controller's part as in
log 16 and 20. -/
def Obligations.WireWordsSendTheirPatterns : Prop :=
  ∀ s : State, s.lcdDir = true →
    exec .lcdClear s = .next (s.afterByte false 0b00000001) ∧
    exec .lcdHome s = .next (s.afterByte false 0b00000010) ∧
    (∀ i sh : Bool, exec (.lcdEntry i sh) s = .next (s.afterByte false (0b000001#6 ++ bit i ++ bit sh))) ∧
    (∀ d c b : Bool, exec (.lcdDisplay d c b) s = .next (s.afterByte false (0b00001#5 ++ bit d ++ bit c ++ bit b))) ∧
    (∀ (l n f : Bool) (x : BitVec 2),
      exec (.lcdFunction l n f x) s = .next (s.afterByte false (0b001#3 ++ bit l ++ bit n ++ bit f ++ x))) ∧
    (∀ a : Address, exec (.lcdSetAddr a) s = .next (s.afterByte false (0b1#1 ++ a))) ∧
    (∀ ch : Byte, exec (.lcdData ch) s = .next (s.afterByte true ch))

/-- What the controller does with each command byte and character in 4-bit mode when it is not executing: the emitted words
(20_memory.md R48, R49, 10_state.md R27-R29, 30_encoding.md R65, R66), with the frame of its memory, and the reserved
command bytes, for which a sink has no step: the verdict is recorded, the bus mode is unknown and no cell is known
(30_encoding.md R74, log 18). That clear and home keep it busy for 1.52 ms, less the cycle wait already made, is the model's
reading (log 20). -/
def Obligations.ControllerObeysWireWords : Prop :=
  ∀ s : State, s.lcdDir = true → s.controller.bus = .four → s.controller.busy = 0 →
    (∃ t, exec .lcdClear s = .next t ∧
      t.controller = { s.controller with ddram := t.controller.ddram, ac := 0, busy := 1420 } ∧
      ∀ a, a < 128 → t.controller.ddram.read a = some 0x20) ∧
    (∃ t, exec .lcdHome s = .next t ∧ t.controller = { s.controller with ac := 0, busy := 1420 }) ∧
    (∃ t, exec (.lcdEntry true false) s = .next t ∧ t.controller = { s.controller with entry := 0b10 }) ∧
    (∃ t, exec (.lcdDisplay true false false) s = .next t ∧ t.controller = { s.controller with display := 0b100 }) ∧
    (∃ t, exec (.lcdFunction false true false 0) s = .next t ∧
      t.controller = { s.controller with function := 0b010 }) ∧
    (∀ a : Address, (a.toNat ≤ 0x07 ∨ 0x40 ≤ a.toNat ∧ a.toNat ≤ 0x47) →
      ∃ t, exec (.lcdSetAddr a) s = .next t ∧ t.controller = { s.controller with ac := a }) ∧
    (∀ ch : Byte, ∃ t, exec (.lcdData ch) s = .next t ∧
      (s.controller.entry.getLsbD 1 = true →
        t.controller = { s.controller with ddram := t.controller.ddram, ac := s.controller.ac + 1 }) ∧
      t.controller.ddram.read s.controller.ac.toNat = some ch ∧
      ∀ a, a ≠ s.controller.ac.toNat → t.controller.ddram.read a = s.controller.ddram.read a) ∧
    (∀ b : Byte, wireVerdict false b ≠ .emitted → ∃ t, exec (.command b) s = .next t ∧
      t.controller.reservedSeen = true ∧ t.controller.bus = .unknown 0 ∧ ∀ a, t.controller.ddram.read a = none)

/-- The handshake nibbles, each one nibble transfer with register-select 0 (R70, R60). That the unit drives register-select
itself when it is run alone is the model's choice (log 23); the controller's clause is log 16, 17 and 20. -/
def Obligations.HandshakeNibblesAreSingleTransfers : Prop :=
  ∀ (i : Instr) (n : Nibble) (s : State), s.lcdDir = true → (i = .hsNib3 ∧ n = 3 ∨ i = .hsNib2 ∧ n = 2) →
    exec i s = .next { s with
      lcdRs := false
      lcdD := n
      lcdEn := false
      trace := s.trace ++ [.rs false, .d n, .en false, .wait 1, .en true, .wait 1, .en false, .wait 100]
      controller := (((s.controller.elapse 1).elapse 1).receive false n).elapse 100 }

/-- Three times nibble 3, with the waits of 70_reset_and_hazards.md R193 before and between them, bring the controller to
8-bit mode from any prior state, and nibble 2 after the last wait then to 4-bit mode, with nothing pending (R70,
40_display_driver.md R95). What the nibbles do in between, and that 40 ms end any execution, is the model's (log 17, 20). -/
def Obligations.HandshakeReachesFourBitModeFromAnyState : Prop :=
  ∀ s : State, s.lcdDir = true → ∃ t u v w,
    exec .hsNib3 (s.afterWait 40000) = .next t ∧ exec .hsNib3 (t.afterWait 4100) = .next u ∧
    exec .hsNib3 (u.afterWait 100) = .next v ∧ exec .hsNib2 (v.afterWait 100) = .next w ∧
    v.controller.bus = .eight ∧ w.controller.bus = .four ∧ w.controller.busy = 0

/-- `initialize()` (R95) from every state, the controller's included (93_implementation_defined.md U6): its trace, the
lines, the cursor's first value, the frame, and the controller it leaves: 4-bit mode, function 0x28, display control
0x0C, entry mode 0x06, every cell blank, the address counter 0. That three handshake nibbles and 40 ms ready any
controller is the model's reading (log 17, 20), and so is the blank in every cell (log 30). -/
def Obligations.InitializeReadiesAnyController : Prop :=
  ∀ s : State, ∃ t, exec .initializeDisplay s = .next t ∧
    t.trace = s.trace ++ bringUpEvents ∧
    t.lcdDir = true ∧ t.lcdRs = false ∧ t.lcdEn = false ∧ t.lcdD = 6 ∧ t.cursor = 0 ∧
    KeepsOutsideDriver s t ∧
    t.Linked ∧ t.controller.ac = 0 ∧ ∀ a, a < 128 → t.controller.ddram.read a = some 0x20

/-- `setCursor(col)` (R96): the column is clamped, the address sent, and the tracked cursor receives the clamped value. The
controller's part of the next state is the byte transaction's (log 16, 20). -/
def Obligations.SetCursorSendsTheClampedColumn : Prop :=
  ∀ (col : Byte) (s : State), s.lcdDir = true →
    let c := min col.toNat 15
    let addr := if c < 8 then c else c + 0x38
    exec (.setCursor col) s =
      .next { s.afterByte false (0x80 ||| BitVec.ofNat 8 addr) with cursor := BitVec.ofNat 8 c }

/-- `clear()` and `home()` (R97, R98): the command, the 2 ms wait, the cursor at 0. The controller's part of the next state
is the byte transaction's and the wait's (log 16, 20). -/
def Obligations.ClearAndHomeWaitAndResetTheCursor : Prop :=
  ∀ s : State, s.lcdDir = true →
    exec .clear s = .next { (s.afterByte false 0x01).afterWait 2000 with cursor := 0 } ∧
    exec .home s = .next { (s.afterByte false 0x02).afterWait 2000 with cursor := 0 }

/-- `writeChar(ch)` (R100) with the cursor in range: at column 8 the set-address byte 0xC0 first, then the character, then
the cursor advances; past column 15 it is refused (93_implementation_defined.md U1). The controller's part of the next
state is the byte transactions' (log 16, 20). -/
def Obligations.WriteCharSwitchesRowAtColumnEight : Prop :=
  ∀ (ch : Byte) (s : State), s.lcdDir = true →
    (s.cursor.toNat < 16 → s.cursor ≠ 8 →
      exec (.writeChar ch) s = .next { s.afterByte true ch with cursor := s.cursor + 1 }) ∧
    (s.cursor = 8 →
      exec (.writeChar ch) s = .next { (s.afterByte false 0xC0).afterByte true ch with cursor := 9 }) ∧
    (16 ≤ s.cursor.toNat → exec (.writeChar ch) s = .refused .writePastColumn15)

/-- Stores to the character memory, whenever the driver and the controller agree: a character lands in the cell of the
tracked column and every other cell is as before (20_memory.md R50), and an operation that only moves the address counter
stores nothing (R96, R98: "DDRAM contents are not changed"). -/
def Obligations.OnlyCharactersStoreAndInTheirColumn : Prop :=
  (∀ (ch : Byte) (s t : State), s.Linked → exec (.writeChar ch) s = .next t →
    s.cursor.toNat < 16 ∧
    t.controller.ddram.read (columnAddress s.cursor.toNat).toNat = some ch ∧
    ∀ a, a ≠ (columnAddress s.cursor.toNat).toNat → t.controller.ddram.read a = s.controller.ddram.read a) ∧
  (∀ (i : Instr) (s t : State), ((∃ col, i = .setCursor col) ∨ i = .home) → s.Linked → exec i s = .next t →
    ∀ a, t.controller.ddram.read a = s.controller.ddram.read a)

/-- `addText(s)` (R101): writeChar for each character in order, so it completes exactly when the text fits. -/
def Obligations.AddTextWritesCharactersInOrder : Prop :=
  ∀ s : State, s.lcdDir = true →
    exec (.addText []) s = .next s ∧
    (∀ ch rest, exec (.addText (ch :: rest)) s = andThen (exec (.writeChar ch) s) (exec (.addText rest))) ∧
    (∀ text : List Byte, s.cursor.toNat + text.length ≤ 16 → ∃ t, exec (.addText text) s = .next t ∧
      t.cursor.toNat = s.cursor.toNat + text.length ∧
      t.trace = s.trace ++ textEvents s.cursor.toNat text ∧ KeepsOutsideDriver s t ∧ t.lcdDir = true) ∧
    (∀ text : List Byte, s.cursor.toNat ≤ 16 → 16 < s.cursor.toNat + text.length →
      exec (.addText text) s = .refused .writePastColumn15)

/-- `setText(s)` (R99): clear, then addText; it completes exactly when the text has at most 16 characters, and the cursor
ends after the last. -/
def Obligations.SetTextClearsThenWrites : Prop :=
  ∀ (text : List Byte) (s : State), s.lcdDir = true →
    exec (.setText text) s = andThen (exec .clear s) (exec (.addText text)) ∧
    (text.length ≤ 16 → ∃ t, exec (.setText text) s = .next t ∧ t.cursor.toNat = text.length ∧
      t.trace = s.trace ++ clearEvents ++ textEvents 0 text ∧ KeepsOutsideDriver s t ∧ t.lcdDir = true) ∧
    (16 < text.length → exec (.setText text) s = .refused .writePastColumn15)

/-- After `setText` on a ready controller the sixteen columns show the text and then blanks, and every cell that is no
column's is blank (20_memory.md R43, R45, R49; 95_test_vectors.md 2.4). -/
def Obligations.SetTextIsWhatTheDisplayShows : Prop :=
  ∀ (text : List Byte) (s t : State), s.controller.Ready → exec (.setText text) s = .next t →
    t.Shows text ∧
    ∀ a, a < 128 → (∀ c, c < 16 → a ≠ (columnAddress c).toNat) → t.controller.ddram.read a = some 0x20

/-- Before `initialize()` every operation that drives the display is refused (93_implementation_defined.md U4). -/
def Obligations.DriverIsRefusedBeforeInitialize : Prop :=
  ∀ (i : Instr) (s : State), s.lcdDir = false →
    i ≠ .initializeDisplay → i ≠ .handler → (∀ a b, i ≠ .dspNone a b) →
    exec i s = .refused .driverBeforeInitialize

/-- No row of the driver or of the wire touches an edge-flag, the alarm output, a TimeKeeper register, the inputs or the
sequencer; only `initialize()` changes the direction of the lines; enable ends low (40_display_driver.md, opening; R103). -/
def Obligations.DriverRowsKeepEverythingElse : Prop :=
  ∀ (i : Instr) (s t : State), isDriverRow i = true → exec i s = .next t →
    KeepsOutsideDriver s t ∧ t.lcdDir = true ∧ (i ≠ .initializeDisplay → s.lcdDir = true) ∧
    (s.lcdEn = false → t.lcdEn = false)

/-- Every operation of the block keeps the driver and the controller in agreement (20_memory.md R50, R103); the rows that
send bare words or nibbles are the ones that need not (70_reset_and_hazards.md R194). -/
def Obligations.OperationsKeepDriverAndControllerAgreeing : Prop :=
  ∀ (i : Instr) (s t : State), isRawWire i = false → s.Linked → exec i s = .next t → t.Linked

/-- Every instruction's trace meets the wire's minimums (R94). -/
def Obligations.EveryTraceMeetsTheWireContract : Prop :=
  ∀ (i : Instr) (s t : State), exec i s = .next t → ∃ events, t.trace = s.trace ++ events ∧ wireContract events

/-- The least time of each operation (70_reset_and_hazards.md R198). -/
def Obligations.OperationsTakeTheirMinimumTime : Prop :=
  ∀ s t : State, ∀ events : List Event, t.trace = s.trace ++ events →
    (∀ n, exec (.writeNibble n) s = .next t → duration events = 102) ∧
    (∀ rs b, exec (.writeByte rs b) s = .next t → duration events = 204) ∧
    (∀ b, exec (.command b) s = .next t → duration events = 204) ∧
    (∀ b, exec (.data b) s = .next t → duration events = 204) ∧
    (∀ col, exec (.setCursor col) s = .next t → duration events = 204) ∧
    (∀ ch, exec (.writeChar ch) s = .next t → duration events = if s.cursor = 8 then 408 else 204) ∧
    (exec .clear s = .next t → duration events = 2204) ∧
    (exec .home s = .next t → duration events = 2204) ∧
    (exec .initializeDisplay s = .next t → duration events = 47524) ∧
    (exec .render s = .next t → duration events = 3836) ∧
    (exec .handler s = .next t → duration events =
      (if s.tc + 1 = 25 then 3836 else 0) +
        match dispatchRow s.dispatchVector with
        | .reset => 53836
        | .start => 153836
        | .sec => 153836
        | .min => 153836
        | .idle => 0)

/-! The TimeKeeper (41_timekeeper.md). -/

/-- Decomposition of a seconds count (R117), with the property that reconstruction holds up to 921599 and fails above. -/
def Obligations.SecondsDecomposeAndReconstruct : Prop :=
  ∀ v : Seconds,
    hoursOf v = min (v.toNat / 3600) 255 ∧ minutesOf v = v.toNat / 60 % 60 ∧ secondsOf v = v.toNat % 60 ∧
    (3600 * hoursOf v + 60 * minutesOf v + secondsOf v = v.toNat ↔ v.toNat ≤ 921599)

/-- Two-digit formatting (R119): the tens digit is clamped to 9, the ones digit is not. -/
def Obligations.TwoDigitsClampTheTens : Prop :=
  ∀ n, n ≤ 255 → twoDigits n = [BitVec.ofNat 8 (0x30 + min (n / 10) 9), BitVec.ofNat 8 (0x30 + n % 10)] ∧
    (n ≤ 99 → min (n / 10) 9 * 10 + n % 10 = n) ∧ (100 ≤ n → min (n / 10) 9 = 9)

/-- The text of a render (R121): eight codes, both separators following the colon signal. -/
def Obligations.RenderTextIsEightCodes : Prop :=
  ∀ (v : Seconds) (colonOn : Bool),
    let sep : Byte := if colonOn then 0x3A else 0x20
    renderText v colonOn =
      twoDigits (hoursOf v) ++ [sep] ++ twoDigits (minutesOf v) ++ [sep] ++ twoDigits (secondsOf v) ∧
    (renderText v colonOn).length = 8

/-- `Render` (R118): the value by the mode, the colon by the mode and the parity of `sc`; nothing but the driver changes. -/
def Obligations.RenderShowsTheModesValue : Prop :=
  ∀ s : State, s.lcdDir = true → ∃ t, exec .render s = .next t ∧ KeepsTime s t ∧ t.cursor = 8 ∧
    EndsWithRender s t [] (match s.mode with
      | .stopped => renderText s.cfg true
      | .running => renderText s.cur true
      | .paused => renderText s.cur (decide (s.sc.toNat % 2 = 0))
      | .alarm => renderText s.cur (decide (s.sc.toNat % 2 = 0)))

/-- `StartButton` (R112), in each of the four modes. -/
def Obligations.StartButtonMovesTheMode : Prop :=
  ∀ s : State, s.lcdDir = true → ∃ t, exec .startButton s = .next t ∧ t.cfg = s.cfg ∧ t.sc = 0 ∧
    (s.mode = .stopped → t.mode = .running ∧ t.cur = s.cfg ∧ t.alarm = s.alarm ∧
      EndsWithRender s t [] (renderText s.cfg true)) ∧
    (s.mode = .paused → t.mode = .running ∧ t.cur = s.cur ∧ t.alarm = s.alarm ∧
      EndsWithRender s t [] (renderText s.cur true)) ∧
    (s.mode = .running → t.mode = .paused ∧ t.cur = s.cur ∧ t.alarm = s.alarm ∧
      EndsWithRender s t [] (renderText s.cur true)) ∧
    (s.mode = .alarm → t.mode = .stopped ∧ t.cur = s.cur ∧ t.alarm = false ∧
      EndsWithRender s t [.alarm false] (renderText s.cfg true))

/-- `SecButton` and `MinButton` (R113, R114), `k` seconds: `cfg` in Stopped, `cur` in Running and Paused when `cfg` is not
0, nothing otherwise; the render always. -/
def Obligations.TimeButtonsAddSeconds : Prop :=
  ∀ (k : Seconds) (i : Instr) (s : State), s.lcdDir = true → (k = 1 ∧ i = .secButton ∨ k = 60 ∧ i = .minButton) →
    ∃ t, exec i s = .next t ∧ t.mode = s.mode ∧ t.sc = s.sc ∧ t.alarm = s.alarm ∧
      t.cfg = (if s.mode = .stopped then s.cfg + k else s.cfg) ∧
      t.cur = (if (s.mode = .running ∨ s.mode = .paused) ∧ s.cfg ≠ 0 then s.cur + k else s.cur) ∧
      EndsWithRender s t [] t.text

/-- `ResetGesture` (R115), from every mode. -/
def Obligations.ResetGestureReinitialisesTheTimer : Prop :=
  ∀ s : State, s.lcdDir = true → ∃ t, exec .resetGesture s = .next t ∧
    t.mode = .stopped ∧ t.cfg = 0 ∧ t.cur = 0 ∧ t.sc = 0 ∧ t.alarm = false ∧
    EndsWithRender s t [.alarm false] [0x30, 0x30, 0x3A, 0x30, 0x30, 0x3A, 0x30, 0x30]

/-- `Tick` (R116), in each mode: `sc` advances; Running counts, and enters Alarm, with `sc` 0 and the alarm on, when the
count reaches 0; Alarm drives the alarm by the parity of `sc`. -/
def Obligations.TickCountsAndSoundsTheAlarm : Prop :=
  ∀ s : State, s.lcdDir = true → ∃ t, exec .tick s = .next t ∧ t.cfg = s.cfg ∧
    (s.mode = .stopped ∨ s.mode = .paused → t.sc = s.sc + 1 ∧ t.cur = s.cur ∧ t.mode = s.mode ∧ t.alarm = s.alarm ∧
      EndsWithRender s t [] t.text) ∧
    (s.mode = .running → s.counted ≠ 0 → t.sc = s.sc + 1 ∧ t.cur = s.counted ∧ t.mode = .running ∧
      t.alarm = s.alarm ∧ EndsWithRender s t [] t.text) ∧
    (s.mode = .running → s.counted = 0 → t.sc = 0 ∧ t.cur = 0 ∧ t.mode = .alarm ∧ t.alarm = true ∧
      EndsWithRender s t [.alarm true] t.text) ∧
    (s.mode = .alarm → t.sc = s.sc + 1 ∧ t.cur = s.cur ∧ t.mode = .alarm ∧
      t.alarm = decide ((s.sc + 1).toNat % 2 = 0) ∧
      EndsWithRender s t [.alarm (decide ((s.sc + 1).toNat % 2 = 0))] t.text)

/-- In Alarm the output alternates at every Tick, across the 8-bit wrap too, from the entering Tick on (R116;
95_test_vectors.md 1.8): if it agrees with the parity of `sc`, the next Tick inverts it and it agrees again. -/
def Obligations.AlarmAlternatesEveryTick : Prop :=
  ∀ s t : State, exec .tick s = .next t →
    (s.mode = .alarm → s.alarm = decide (s.sc.toNat % 2 = 0) →
      t.mode = .alarm ∧ t.alarm = !s.alarm ∧ t.alarm = decide (t.sc.toNat % 2 = 0)) ∧
    (s.mode = .running → t.mode = .alarm → t.alarm = decide (t.sc.toNat % 2 = 0))

/-- The only ways into Alarm and out of it, over all instructions (R111): in, by a Tick in Running whose count reaches 0
(run alone or inside a handler invocation on its 25th); out, by a start or a gesture, and then the output is off. -/
def Obligations.AlarmIsEnteredAndLeftOnlyAsTheTableSays : Prop :=
  ∀ (i : Instr) (s t : State), exec i s = .next t →
    (s.mode ≠ .alarm → t.mode = .alarm →
      s.mode = .running ∧ s.counted = 0 ∧ (i = .tick ∨ (i = .handler ∧ s.tc = 24))) ∧
    (s.mode = .alarm → t.mode ≠ .alarm →
      t.mode = .stopped ∧ t.alarm = false ∧
      (i = .startButton ∨ i = .resetGesture ∨ (∃ a b c d, i = .dspStart a b c d) ∨ (∃ a b c, i = .dspReset a b c) ∨
        (i = .handler ∧ (s.lvlSec && s.lvlMin || s.efStart) = true)))

/-- Every event ends with the display showing the state it leaves (R110, R122). -/
def Obligations.EventsShowTheStateTheyLeave : Prop :=
  ∀ (i : Instr) (s t : State),
    (i = .startButton ∨ i = .secButton ∨ i = .minButton ∨ i = .resetGesture ∨ i = .tick ∨ i = .render) →
    s.Linked → exec i s = .next t → t.Shows t.text ∧ t.cursor = 8

/-! The dispatcher and the interrupt (42_input_dispatcher.md, 60_exceptions.md). -/

/-- The branches of the dispatch (R132, R133, R134) as rows: the gesture after the settle wait and both clears; a button's
event, then the debounce wait, then its flag's clear; nothing. -/
def Obligations.DispatchRowsServeTheirEvents : Prop :=
  ∀ s : State, s.lcdDir = true →
    (∀ a b c, ∃ t, exec (.dspReset a b c) s = .next t ∧
      exec .resetGesture { s.afterWait 50000 with
        trace := s.trace ++ [.wait 50000, .clrf .sec, .clrf .min]
        efSec := false
        efMin := false } = .next t) ∧
    (∀ a b c d, ∃ u, exec .startButton s = .next u ∧ exec (.dspStart a b c d) s = .next { u.afterWait 150000 with
      trace := u.trace ++ [.wait 150000, .clrf .start]
      efStart := false }) ∧
    (∀ a b c, ∃ u, exec .secButton s = .next u ∧ exec (.dspSec a b c) s = .next { u.afterWait 150000 with
      trace := u.trace ++ [.wait 150000, .clrf .sec]
      efSec := false }) ∧
    (∀ a b, ∃ u, exec .minButton s = .next u ∧ exec (.dspMin a b) s = .next { u.afterWait 150000 with
      trace := u.trace ++ [.wait 150000, .clrf .min]
      efMin := false }) ∧
    (∀ a b, exec (.dspNone a b) s = .next s)

/-- `Handler` (R130, R131, R134; 60_exceptions.md R156, R158): entry clears the request and enters the handler's context;
the tick counter advances, and on 25 restarts and fires Tick; then the row of the dispatch vector runs; exit returns to
the foreground. That a row run as an instruction is the branch the handler takes is the model's choice (log 24). -/
def Obligations.HandlerTicksThenDispatchesThenReturns : Prop :=
  ∀ s : State, s.irqEnabled = true → s.ctx = .foreground →
    exec .handler s =
      andThen
        (andThen
          (if s.tc + 1 = 25 then exec .tick { s with tp := false, ctx := .inHandler, tc := 0 }
            else .next { s with tp := false, ctx := .inHandler, tc := s.tc + 1 })
          fun u => exec (dispatchInstr u.dispatchVector) u)
        fun t => .next { t with ctx := .foreground }

/-- Deferral, never loss (R136), and what one invocation leaves: it completes whenever the display is up, the request is
cleared, the context is the foreground's, levels and inbox are as before, and of the flags exactly the serviced one, or
in the combo path those of Sec and Min, are cleared. -/
def Obligations.HandlerClearsOnlyTheServicedFlags : Prop :=
  ∀ s : State, s.irqEnabled = true → s.ctx = .foreground → s.lcdDir = true →
    ∃ t, exec .handler s = .next t ∧ t.tp = false ∧ t.ctx = .foreground ∧ t.irqEnabled = true ∧ t.boot = s.boot ∧
      t.lcdDir = true ∧ KeepsEnvironment s t ∧ t.tc = (if s.tc + 1 = 25 then 0 else s.tc + 1) ∧
      t.efStart = (s.efStart && (s.lvlSec && s.lvlMin)) ∧
      t.efSec = (s.efSec && !(s.lvlSec && s.lvlMin) && s.efStart) ∧
      t.efMin = (s.efMin && !(s.lvlSec && s.lvlMin) && (s.efStart || s.efSec))

/-- An invocation with no tick due and nothing to service changes only `tc` and the request, and emits nothing (R134,
corner case (a)). -/
def Obligations.IdleInvocationChangesOnlyTheTickCounter : Prop :=
  ∀ s : State, s.irqEnabled = true → s.ctx = .foreground → s.tc + 1 ≠ 25 →
    s.efStart = false → s.efSec = false → s.efMin = false → (s.lvlSec && s.lvlMin) = false →
    exec .handler s = .next { s with tc := s.tc + 1, tp := false }

/-- No invocation before the interrupt is enabled (93_implementation_defined.md U8) and none inside another (R157). -/
def Obligations.HandlerIsRefusedEarlyAndNested : Prop :=
  ∀ s : State,
    (s.irqEnabled = false → exec .handler s = .refused .handlerBeforeEnable) ∧
    (s.irqEnabled = true → s.ctx = .inHandler → exec .handler s = .refused .handlerReentered)

/-- The Start button's level is read by nothing (10_state.md R26): changing it before an instruction is the same as changing
it after. -/
def Obligations.StartLevelIsReadByNothing : Prop :=
  ∀ (i : Instr) (s : State) (v : Bool),
    exec i { s with lvlStart := v } = andThen (exec i s) fun t => .next { t with lvlStart := v }

/-! Steps, boot and the whole machine (60_exceptions.md, 70_reset_and_hazards.md). -/

/-- After boot, an operation at the head of the inbox is decoded and run on the rest of the inbox; bits that decode to
nothing are refused; and a word of the table placed by withFetchWord is what the next step runs (log 9, 10, 11). -/
def Obligations.StepRunsTheDecodedOperation : Prop :=
  (∀ (s : State) (fmt : Format) (bytes : List Byte) (rest : List Input), s.boot = .idle →
    s.inbox = .operation fmt bytes :: rest →
    (∀ i, decode fmt bytes = .ok i → step s = exec i { s with inbox := rest }) ∧
    (∀ e, decode fmt bytes = .error e → step s = .refused (.undecodable e))) ∧
  (∀ (s : State) (nbits w : Nat) (i : Instr), s.boot = .idle → decodeTableWord nbits w = some i →
    step (s.withFetchWord nbits w) = exec i s)

/-- Whose turn it is (log 11). The environment acts whenever it has something to do, in boot and before a pending request
too. The block runs when the environment lets it or has nothing to do: in boot the next boot operation; after it a pending
request of the timer begins an invocation (60_exceptions.md R153, R158), otherwise nothing changes (10_state.md R21).
Hardware ticks that come before the block runs on merge into one request (10_state.md R24, 70_reset_and_hazards.md
R196). -/
def Obligations.StepLetsTheEnvironmentActThenTheBlock : Prop :=
  (∀ (s : State) (input : Input) (rest : List Input), s.inbox = input :: rest → input ≠ .proceed →
    input.isOperation = false → step s = .next ({ s with inbox := rest }.react input)) ∧
  (∀ (s : State) (rest : List Input), s.inbox = .proceed :: rest → step s = blockStep { s with inbox := rest }) ∧
  (∀ s : State, s.inbox = [] → step s = blockStep s) ∧
  (∀ s : State, s.boot = .idle →
    (s.tp = true → s.irqEnabled = true → s.ctx = .foreground → blockStep s = exec .handler s) ∧
    ((s.tp && s.irqEnabled && decide (s.ctx = .foreground)) = false → blockStep s = .next s)) ∧
  (∀ (s : State) (n : Nat) (rest : List Input), s.boot = .idle → s.irqEnabled = true → s.ctx = .foreground →
    s.inbox = List.replicate (n + 1) .hardwareTick ++ .proceed :: rest →
    Host.Core.run Sys2Proof.core (n + 2) s = exec .handler { s with tp := true, inbox := rest })

/-- What the environment's actions do (30_encoding.md R78, 10_state.md R23, R24, R26): a press sets level and flag, a
release clears the level, a raise sets the level alone (log 13), a bounce sets the flag, a hardware tick sets the one
request, and a second merges into it. -/
def Obligations.EnvironmentSetsInputsFlagsAndRequest : Prop :=
  ∀ (s : State) (b : Button),
    (s.react (.press b)).level b = true ∧ (s.react (.press b)).flag b = true ∧
    (s.react (.release b)).level b = false ∧ (s.react (.release b)).flag b = s.flag b ∧
    (s.react (.raise b)).level b = true ∧ (s.react (.raise b)).flag b = s.flag b ∧
    (s.react (.setFlag b)).flag b = true ∧ (s.react (.setFlag b)).level b = s.level b ∧
    (∀ c, c ≠ b → (s.react (.press b)).flag c = s.flag c ∧ (s.react (.press b)).level c = s.level c ∧
      (s.react (.release b)).flag c = s.flag c ∧ (s.react (.release b)).level c = s.level c ∧
      (s.react (.raise b)).flag c = s.flag c ∧ (s.react (.raise b)).level c = s.level c ∧
      (s.react (.setFlag b)).flag c = s.flag c ∧ (s.react (.setFlag b)).level c = s.level c) ∧
    (KeepsTime s (s.react (.press b)) ∧ KeepsTime s (s.react (.release b)) ∧ KeepsTime s (s.react (.raise b)) ∧
      KeepsTime s (s.react (.setFlag b))) ∧
    s.react .hardwareTick = { s with tp := true } ∧
    (s.react .hardwareTick).react .hardwareTick = s.react .hardwareTick

/-- Boot (70_reset_and_hazards.md R183, R184): from any state with the boot sequence before it, three steps in which the
environment does nothing run `initialize()`, the one render and the interrupt enable, in that order, and nothing else of
the block changes; an operation asked for directly waits for their end. -/
def Obligations.BootBringsUpRendersAndEnables : Prop :=
  ∀ s : State, s.boot = .bringUp → (∀ input rest, s.inbox = input :: rest → input.isOperation = true) → ∃ t u v,
    step s = .next t ∧ step t = .next u ∧ step u = .next v ∧
    t.boot = .firstRender ∧ t.trace = s.trace ++ bringUpEvents ∧ t.cursor = 0 ∧ t.lcdDir = true ∧
    u.boot = .enableTimer ∧ u.irqEnabled = s.irqEnabled ∧ u.trace = t.trace ++ renderEvents s.text ∧
    v = { u with irqEnabled := true, boot := .idle } ∧
    KeepsTime s v ∧ KeepsFlags s v ∧ KeepsEnvironment s v ∧ v.tc = s.tc ∧ v.tp = s.tp ∧ v.ctx = s.ctx ∧
    v.cursor = 8 ∧ v.lcdEn = false ∧ v.lcdRs = true ∧ v.Linked ∧ v.Shows s.text

/-- The state and the byte-level trace at the end of boot from reset (R184). -/
def Obligations.BootFromResetEndsAsStated : Prop :=
  ∃ t, Host.Core.run Sys2Proof.core 3 State.reset = .next t ∧
    t.cfg = 0 ∧ t.cur = 0 ∧ t.sc = 0 ∧ t.mode = .stopped ∧ t.tc = 0 ∧ t.alarm = false ∧
    t.efStart = false ∧ t.efSec = false ∧ t.efMin = false ∧
    t.lcdDir = true ∧ t.lcdRs = true ∧ t.lcdEn = false ∧ t.lcdD = 0 ∧ t.cursor = 8 ∧ t.ctx = .foreground ∧
    toL2 t.trace =
      [.other (.other .dirOut), .other (.other (.wait 40000)),
        .handshake 3, .other (.other (.wait 4100)), .handshake 3, .other (.other (.wait 100)),
        .handshake 3, .other (.other (.wait 100)), .handshake 2,
        .byte false 0x28, .byte false 0x0C, .byte false 0x01, .other (.other (.wait 2000)), .byte false 0x06,
        .byte false 0x01, .other (.other (.wait 2000)),
        .byte true 0x30, .byte true 0x30, .byte true 0x3A, .byte true 0x30, .byte true 0x30, .byte true 0x3A,
        .byte true 0x30, .byte true 0x30] ∧
    t.Shows [0x30, 0x30, 0x3A, 0x30, 0x30, 0x3A, 0x30, 0x30]

/-- A power-up (R180, R181), taken at any moment: it discards the block's state, every register at its reset value, the boot
sequence next, the trace empty. That the levels and the rest of the inbox stay, and that the controller's bus width is
unknown and its power-on settle begins, is the model's choice (log 14, 20). An operation it cuts short leaves nothing of
itself: from any state the operation has reached, the block ends in the same state. -/
def Obligations.PowerUpRestartsFromReset : Prop :=
  (∀ (s : State) (rest : List Input), s.inbox = .powerUp :: rest → ∃ c, step s = .next
    { State.reset with
      lvlStart := s.lvlStart
      lvlSec := s.lvlSec
      lvlMin := s.lvlMin
      inbox := rest
      controller := c } ∧ c.bus = .unknown 0 ∧ c.busy = 40000 ∧ c.ddram = []) ∧
  (∀ s reached : State, KeepsEnvironment s reached → SameBlock (s.react .powerUp) (reached.react .powerUp))

/-- Both invariants hold at reset. -/
def Obligations.ResetMeetsTheInvariants : Prop := State.reset.Inv ∧ State.reset.DisplayInv

/-- Every step keeps the invariant: alarm off outside Alarm (10_state.md R19), tick counter below 25 (R16), cursor at most
16 (R17), enable low (40_display_driver.md R103), the foreground's context between steps (60_exceptions.md R158), lines and
interrupt as the boot position says (70_reset_and_hazards.md R185), and the character memory canonical. -/
def Obligations.EveryStepKeepsTheInvariant : Prop :=
  ∀ s t : State, s.Inv → step s = .next t → t.Inv

/-- Every step of a run in which no operation is asked for directly keeps the display invariant: from the boot render on,
the display always shows the text of the current state (41_timekeeper.md R122), whatever buttons, ticks and power-ups
come. -/
def Obligations.TheDisplayAlwaysShowsTheCurrentState : Prop :=
  ∀ s t : State, s.DisplayInv → step s = .next t → t.DisplayInv

/-- In such a run no step ever stops: every step of the device itself has a next state (60_exceptions.md R150). -/
def Obligations.TheDeviceNeverStops : Prop :=
  ∀ s : State, s.DisplayInv → ∃ t, step s = .next t

/-- No operation and no step ever faults (60_exceptions.md R150): the one fault of the model, a read of the cursor before
`initialize()` wrote it, is never raised (10_state.md R18). -/
def Obligations.NothingEverFaults : Prop :=
  (∀ (i : Instr) (s : State) (e : Fault), exec i s ≠ .fault e) ∧ (∀ (s : State) (e : Fault), step s ≠ .fault e)

/-- The trace is a record that no instruction reads and to which an instruction only appends (00_scope.md section 6.3; that it
stands in State and grows until a power-up is log 15): with another trace before it, an
instruction is refused alike or does the same and appends the same events. -/
def Obligations.TraceOnlyGrowsAndIsNeverRead : Prop :=
  ∀ (i : Instr) (s : State) (past : List Event),
    (∀ t, exec i s = .next t → ∃ events, t.trace = s.trace ++ events ∧
      exec i { s with trace := past } = .next { t with trace := past ++ events }) ∧
    (∀ e, exec i s = .refused e → exec i { s with trace := past } = .refused e)

/-- Nibbles pair whatever they were meant as (20_memory.md R54), and a pulse in 8-bit mode is a whole command or character
with that upper half (30_encoding.md R70). In 4-bit mode a nibble alone leaves half a byte; from then on every byte sent
completes the byte before with its high nibble and leaves its low nibble as the high half of the next, as long as the pairs
are characters or emitted commands other than clear and home, and such a pair is obeyed. A pair that is a reserved command
has no step (R74): the mode is unknown after it (log 18). In 8-bit mode a character is stored and the mode stays, nibble 3
sets DL and the mode stays, nibble 2 clears DL and gives 4-bit mode, and any other command is obeyed if it is an emitted
word and has no step otherwise. The lower half in 8-bit mode is a free value (log 17), and so is which register-select a
mixed pair is taken with (log 31). A handshake nibble that comes later than a second half does is shut out, since it begins
a handshake (log 17). -/
def Obligations.NibblesPairInFourBitModeAndAreWholeInEight : Prop :=
  ∀ s : State, s.lcdDir = true → s.controller.busy = 0 →
    (∀ n, s.controller.bus = .four → ∃ t, exec (.nib n) s = .next t ∧
      t.controller = { s.controller with bus := .fourHalf s.lcdRs n 100 }) ∧
    (∀ rsHi hi gap rs b, s.controller.bus = .fourHalf rsHi hi gap →
      (rs = true ∨ b.extractLsb' 4 4 ≠ 3 ∨ gap ≤ 100) →
      let pair := joinNibbles hi (b.extractLsb' 4 4)
      (rsHi = true ∧ rs = true ∨ wireVerdict false pair = .emitted ∧ pair ≠ 0x01 ∧ pair ≠ 0x02) →
      ∃ t, exec (.writeByte rs b) s = .next t ∧ t.controller.bus = .fourHalf rs (b.extractLsb' 0 4) 100 ∧
        t.controller.busy = 0 ∧
        (rsHi = rs → ∃ w : LcdWord, w.rs = rs ∧ w.byte = pair ∧
          t.controller = { s.controller.obey w with bus := .fourHalf rs (b.extractLsb' 0 4) 100 }) ∧
        (rsHi ≠ rs → ∃ w : LcdWord, w.rs = Config.freeSelect s.controller.freeIx ∧ w.byte = pair ∧
          t.controller = { ({ s.controller with freeIx := s.controller.freeIx + 1 } : Controller).obey w with
            bus := .fourHalf rs (b.extractLsb' 0 4) 100 }) ∧
        (rsHi = true → rs = true → t.controller.ddram.read s.controller.ac.toNat = some pair)) ∧
    (∀ hi gap n, s.controller.bus = .fourHalf false hi gap → s.lcdRs = false → (n ≠ 3 ∨ gap ≤ 100) →
      wireVerdict false (joinNibbles hi n) ≠ .emitted →
      ∃ t, exec (.nib n) s = .next t ∧ t.controller.reservedSeen = true ∧ t.controller.bus = .unknown 0 ∧
        ∀ a, t.controller.ddram.read a = none) ∧
    (∀ n, s.controller.bus = .eight →
      let byte := joinNibbles n (Config.freeHalf s.controller.freeIx)
      ∃ t, exec (.nib n) s = .next t ∧
        (s.lcdRs = true → t.controller.bus = .eight ∧ t.controller.busy = 0 ∧
          t.controller.ddram.read s.controller.ac.toNat = some byte ∧
          (∀ a, a ≠ s.controller.ac.toNat → t.controller.ddram.read a = s.controller.ddram.read a) ∧
          (s.controller.entry.getLsbD 1 = true → t.controller.ac = s.controller.ac + 1)) ∧
        (s.lcdRs = false → n = 3 → t.controller.bus = .eight ∧ t.controller.function.getLsbD 2 = true ∧
          t.controller.ac = s.controller.ac ∧ t.controller.ddram = s.controller.ddram) ∧
        (s.lcdRs = false → n = 2 → t.controller.bus = .four ∧ t.controller.function.getLsbD 2 = false ∧
          t.controller.ac = s.controller.ac ∧ t.controller.ddram = s.controller.ddram) ∧
        (s.lcdRs = false → n ≠ 3 → n ≠ 2 →
          if wireVerdict false byte = .emitted then
            ∃ w : LcdWord, w.rs = false ∧ w.byte = byte ∧ t.controller =
              (({ s.controller with freeIx := s.controller.freeIx + 1 } : Controller).obey w).elapse 100
          else t.controller.reservedSeen = true ∧ t.controller.bus = .unknown 0 ∧
            ∀ a, t.controller.ddram.read a = none))
end

