-- ==== Sys2Proof/Laws/Decode.lean ====
section
/-! SUPPORT. What a decoder that answers has read, piece by piece. -/

namespace Sys2Proof

/-- A byte that narrows is its value widened again. -/
theorem narrow_ok {w : Nat} {b : Byte} {v : BitVec w} (h : narrow w b = .ok v) : b = v.setWidth 8 := by
  unfold narrow at h
  split at h
  · rename_i hb
    cases h
    apply BitVec.eq_of_toNat_eq
    simp [Nat.mod_eq_of_lt hb, Nat.mod_eq_of_lt b.isLt]
  · cases h

/-- A value widened to a byte narrows back. -/
theorem narrow_setWidth {w : Nat} (v : BitVec w) (hw : w ≤ 8) : narrow w (v.setWidth 8) = .ok v := by
  have h := v.isLt
  have h2 : 2 ^ w ≤ 2 ^ 8 := Nat.pow_le_pow_right (by decide) hw
  have h3 : (v.setWidth 8).toNat = v.toNat := by simp; omega
  unfold narrow
  rw [if_pos (by rw [h3]; exact h), h3]
  congr 1; apply BitVec.eq_of_toNat_eq; simp 

/-- A wire word that is read is sent as the bits it was read from. -/
theorem lcdOfByte_some {rs : Bool} {b : Byte} {w : LcdWord} (h : lcdOfByte rs b = some w) : w.rs = rs ∧ w.byte = b := by
  cases rs with
  | true => cases h; exact ⟨rfl, rfl⟩
  | false =>
    have : ∀ b : Byte, ∀ w ∈ lcdOfByte false b, w.rs = false ∧ w.byte = b := by decide
    exact this b w h

/-- The row of a wire word is encoded by the word's bytes. -/
theorem toInstr_encode (w : LcdWord) : w.toInstr.format = .wire9 ∧ encode w.toInstr = w.bytes ∧ w.toInstr.wellFormed = true := by
  cases w <;> exact ⟨rfl, rfl, rfl⟩

/-- The row of a dispatch vector is encoded by the vector. -/
theorem dispatchInstr_encode (v : BitVec 5) : (dispatchInstr v).format = .dispatch5 ∧
    encode (dispatchInstr v) = [v.setWidth 8] ∧ (dispatchInstr v).wellFormed = true := by
  revert v; decide

theorem plainOp_ok {i j : Instr} {args : List Byte} (h : plainOp i args = .ok j) : args = [] ∧ j = i := by
  cases args with
  | nil => cases h; exact ⟨rfl, rfl⟩
  | cons b rest => cases h

theorem byteOp_ok {f : Byte → Decoded Instr} {j : Instr} {args : List Byte} (h : byteOp f args = .ok j) :
    ∃ b, args = [b] ∧ f b = .ok j := by
  match args, h with
  | [b], h => exact ⟨b, rfl, h⟩

theorem bool_of_bit (r : BitVec 1) : bit (r.getLsbD 0) = r := by revert r; decide

theorem writeByteOp_ok {i : Instr} {args : List Byte} (h : writeByteOp args = .ok i) :
    ∃ (r : BitVec 1) (b : Byte), args = [r.setWidth 8, b] ∧ i = .writeByte (r.getLsbD 0) b := by
  match args, h with
  | [rs, b], h =>
    simp only [writeByteOp] at h
    split at h
    · rename_i r hr
      cases h
      exact ⟨r, b, by rw [narrow_ok hr], rfl⟩
    · cases h

theorem decodeOpsel_ok {o : Nibble} {args : List Byte} {i : Instr} (h : decodeOpsel o args = .ok i) :
    i.format = .opsel ∧ encode i = o.setWidth 8 :: args ∧ i.wellFormed = true := by
  obtain ⟨o, ho⟩ := o
  unfold decodeOpsel at h
  have : o = 0 ∨ o = 1 ∨ o = 2 ∨ o = 3 ∨ o = 4 ∨ o = 5 ∨ o = 6 ∨ o = 7 ∨ o = 8 ∨ o = 9 ∨ o = 10 ∨ o = 11 ∨ o = 12 ∨
    o = 13 ∨ o = 14 ∨ o = 15 := by simp at ho; omega
  rcases this with e | e | e | e | e | e | e | e | e | e | e | e | e | e | e | e <;> subst e <;>
   first
    | (obtain ⟨rfl, rfl⟩ := plainOp_ok h; exact ⟨rfl, rfl, rfl⟩)
    | (obtain ⟨b, rfl, hb⟩ := byteOp_ok h; cases hb; exact ⟨rfl, rfl, rfl⟩)
    | (cases h; exact ⟨rfl, rfl, rfl⟩)
    | skip
  · obtain ⟨r, b, rfl, rfl⟩ := writeByteOp_ok h
    exact ⟨rfl, by rw [encode, bool_of_bit]; rfl, rfl⟩
  · obtain ⟨b, rfl, hb⟩ := byteOp_ok h
    unfold writeNibbleOp at hb
    split at hb
    · rename_i n hn
      cases hb
      rw [narrow_ok hn]
      exact ⟨rfl, rfl, rfl⟩
    · cases hb

end Sys2Proof
end

