-- ==== Sys2Proof/Laws/Memory.lean ====
section
/-! SUPPORT. The laws of the character memory: read after write, and that every operation keeps the canonical form. -/

namespace Sys2Proof.Machine

@[simp] theorem Ddram.read_nil (a : Nat) : Ddram.read [] a = none := rfl

@[simp] theorem Ddram.wf_nil : Ddram.wf [] = true := rfl

theorem Ddram.read_write_same (m : Ddram) (a : Nat) (v : Byte) : (m.write a v).read a = some v := by
  induction m with
  | nil => simp [Ddram.write, Ddram.read]
  | cons cell rest ih =>
    obtain ⟨b, w⟩ := cell
    simp only [Ddram.write]
    split
    · simp [Ddram.read]
    · split
      · simp [Ddram.read]
      · rename_i h
        simp [Ddram.read, h, ih]

theorem Ddram.read_write_other (m : Ddram) {a b : Nat} (v : Byte) (h : b ≠ a) : (m.write a v).read b = m.read b := by
  induction m with
  | nil => simp [Ddram.write, Ddram.read, h]
  | cons cell rest ih =>
    obtain ⟨c, w⟩ := cell
    simp only [Ddram.write]
    split
    · simp [Ddram.read, h]
    · split
      · rename_i h2
        subst h2
        simp [Ddram.read, h]
      · simp only [Ddram.read, ih]

/-- A read after a write gives the value written there, and what stood there before elsewhere. -/
theorem Ddram.read_write (m : Ddram) (a b : Nat) (v : Byte) :
    (m.write a v).read b = if b = a then some v else m.read b := by
  split
  · rename_i h
    rw [h, Ddram.read_write_same]
  · exact Ddram.read_write_other m v ‹_›

theorem Ddram.risesFrom_mono {m : Ddram} {lo hi : Nat} (h : lo ≤ hi) (hm : m.risesFrom hi = true) :
    m.risesFrom lo = true := by
  cases m with
  | nil => rfl
  | cons cell rest =>
    simp only [Ddram.risesFrom, Bool.and_eq_true, decide_eq_true_eq] at hm ⊢
    exact ⟨⟨Nat.le_trans h hm.1.1, hm.1.2⟩, hm.2⟩

theorem Ddram.write_risesFrom {m : Ddram} {lo a : Nat} (v : Byte) (hlo : lo ≤ a) (ha : a < ddramSize)
    (hm : m.risesFrom lo = true) : (m.write a v).risesFrom lo = true := by
  induction m generalizing lo with
  | nil => simp [Ddram.write, Ddram.risesFrom, hlo, ha]
  | cons cell rest ih =>
    obtain ⟨b, w⟩ := cell
    simp only [Ddram.risesFrom, Bool.and_eq_true, decide_eq_true_eq] at hm
    simp only [Ddram.write]
    split
    · simp only [Ddram.risesFrom, Bool.and_eq_true, decide_eq_true_eq]
      exact ⟨⟨hlo, ha⟩, ⟨by omega, hm.1.2⟩, hm.2⟩
    · split
      · rename_i h
        subst h
        simp only [Ddram.risesFrom, Bool.and_eq_true, decide_eq_true_eq]
        exact ⟨⟨hlo, ha⟩, hm.2⟩
      · simp only [Ddram.risesFrom, Bool.and_eq_true, decide_eq_true_eq]
        exact ⟨hm.1, ih (by omega) hm.2⟩

/-- A write inside the memory keeps the canonical form. -/
theorem Ddram.write_wf {m : Ddram} {a : Nat} (v : Byte) (ha : a < ddramSize) (hm : m.wf = true) :
    (m.write a v).wf = true := Ddram.write_risesFrom v (Nat.zero_le a) ha hm

theorem Ddram.filled_risesFrom (v : Byte) (a n : Nat) (h : a + n ≤ ddramSize) :
    (Ddram.filled v a n).risesFrom a = true := by
  induction n generalizing a with
  | zero => rfl
  | succ n ih =>
    simp only [Ddram.filled, Ddram.risesFrom, Bool.and_eq_true, decide_eq_true_eq]
    exact ⟨⟨Nat.le_refl a, by omega⟩, ih (a + 1) (by omega)⟩

theorem Ddram.filled_read (v : Byte) (a n b : Nat) :
    (Ddram.filled v a n).read b = if a ≤ b ∧ b < a + n then some v else none := by
  induction n generalizing a with
  | zero => simp [Ddram.filled]
  | succ n ih =>
    simp only [Ddram.filled, Ddram.read, ih]
    split
    · rename_i h; subst h; simp
    · by_cases h : a + 1 ≤ b ∧ b < a + 1 + n
      · simp only [h, and_self, ite_true]; rw [if_pos]; omega
      · rw [if_neg h, if_neg]; omega

/-- A clear leaves a canonical memory. -/
theorem Ddram.blank_wf : Ddram.blank.wf = true := Ddram.filled_risesFrom _ 0 _ (Nat.le_refl _)

/-- After a clear every cell holds the blank. -/
theorem Ddram.blank_read {b : Nat} (h : b < ddramSize) : Ddram.blank.read b = some Config.charBlank := by
  simp only [Ddram.blank, Ddram.filled_read, Nat.zero_le, true_and, Nat.zero_add, h, if_true]

end Sys2Proof.Machine
end

