-- ==== Sys2Proof/Laws/Controller.lean ====
section
/-! SUPPORT. The laws of the display controller: what one nibble and one byte do to it. -/

namespace Sys2Proof.Machine

@[simp] theorem joinNibbles_split (b : Byte) : joinNibbles (hiNibble b) (loNibble b) = b := by
  revert b; decide

@[simp] theorem lcdOfByte_byte (w : LcdWord) : lcdOfByte w.rs w.byte = some w := by
  cases w with
  | clear => decide
  | home => decide
  | entry i s => revert i s; decide
  | display d c b => revert d c b; decide
  | function l n f x => revert l n f x; decide
  | setAddr a => revert a; decide
  | data ch => rfl

@[simp] theorem Controller.elapse_fields (t : Nat) (c : Controller) :
    (c.elapse t).bus = c.bus.elapse t ∧ (c.elapse t).busy = (if Config.tPowerOn ≤ t then 0 else c.busy - t) ∧
    (c.elapse t).ac = c.ac ∧ (c.elapse t).ddram = c.ddram ∧ (c.elapse t).function = c.function ∧
    (c.elapse t).display = c.display ∧ (c.elapse t).entry = c.entry ∧ (c.elapse t).reservedSeen = c.reservedSeen ∧
    (c.elapse t).freeIx = c.freeIx := by
  refine ⟨rfl, ?_, rfl, rfl, rfl, rfl, rfl, rfl, rfl⟩
  simp only [Controller.elapse]
  by_cases h1 : Config.tPowerOn ≤ t <;> by_cases h2 : c.busy ≤ t <;> simp [h1, h2]

/-- A controller that is not executing notices time only in the middle of a byte. -/
theorem Controller.elapse_of_idle {c : Controller} (t : Nat) (h : c.busy = 0) :
    c.elapse t = { c with bus := c.bus.elapse t } := by
  cases c; simp only at h; simp [Controller.elapse, h]

/-- Not executing and not in the middle of a byte, it does not notice time. -/
theorem Controller.elapse_of_rest {c : Controller} (t : Nat) (hb : c.bus.elapse t = c.bus) (h : c.busy = 0) :
    c.elapse t = c := by
  rw [Controller.elapse_of_idle t h, hb]

theorem Controller.elapse_of_four {c : Controller} (t : Nat) (hb : c.bus = .four) (h : c.busy = 0) : c.elapse t = c :=
  Controller.elapse_of_rest t (by rw [hb]; rfl) h

theorem Controller.Ready.elapse {c : Controller} (h : c.Ready) (t : Nat) : c.elapse t = c :=
  Controller.elapse_of_four t h.bus h.idle

/-- A pulse on a controller that accepts transfers: the waits before the nibble, the nibble, the cycle wait. -/
theorem Controller.pulse_of_idle {c : Controller} (hi : c.busy = 0) (rs : Bool) (n : Nibble) :
    c.pulse rs n = (Controller.receive rs n
      { c with bus := (c.bus.elapse Config.tSetup).elapse Config.tHold }).elapse Config.tCycle := by
  have e := Controller.elapse_of_idle (c := { c with bus := c.bus.elapse Config.tSetup }) Config.tHold hi
  rw [Controller.pulse, Controller.elapse_of_idle Config.tSetup hi, e]

/-- In 4-bit mode between two bytes a nibble is the first half of one. -/
theorem Controller.pulse_of_four {c : Controller} (hb : c.bus = .four) (hi : c.busy = 0) (rs : Bool) (n : Nibble) :
    c.pulse rs n = { c with bus := .fourHalf rs n Config.tCycle } := by
  rw [Controller.pulse_of_idle hi, Controller.receive, if_neg (not_not_intro hi)]
  simp only [hb, Bus.elapse]
  rw [Controller.elapse_of_idle _ (by exact hi)]
  simp only [Bus.elapse, Nat.zero_add]

/-- In 4-bit mode in the middle of a byte a nibble completes it, or begins a handshake. -/
theorem Controller.pulse_of_half {c : Controller} {rsHi : Bool} {hiHalf : Nibble} {gap : Nat}
    (hb : c.bus = .fourHalf rsHi hiHalf gap) (hi : c.busy = 0) (rs : Bool) (n : Nibble) :
    c.pulse rs n = (c.takeSecond rsHi hiHalf (gap + 1 + 1) rs n).elapse Config.tCycle := by
  rw [Controller.pulse_of_idle hi, Controller.receive, if_neg (not_not_intro hi)]
  simp only [hb, Bus.elapse]
  rfl

/-- It completes it, unless it is a handshake nibble that comes later than a second half. -/
theorem Controller.takeSecond_pairs {rsHi rs : Bool} {hi n : Nibble} {gap : Nat} (c : Controller)
    (h : rs = true ∨ n ≠ 3 ∨ gap ≤ 102) : c.takeSecond rsHi hi gap rs n = c.takePair rsHi hi rs n := by
  unfold Controller.takeSecond
  rw [if_neg]
  rintro ⟨⟨h1, h2⟩, h3⟩
  rcases h with h | h | h
  · exact absurd (h1.symm.trans h) (by decide)
  · exact h h2
  · exact absurd h3 (Nat.not_lt.2 h)

/-- In 8-bit mode a nibble is a whole command. -/
theorem Controller.pulse_of_eight {c : Controller} (hb : c.bus = .eight) (hi : c.busy = 0) (rs : Bool) (n : Nibble) :
    c.pulse rs n = (c.takeWhole rs n).elapse Config.tCycle := by
  have e : ({ c with bus := .eight } : Controller) = c := by cases c; cases hb; rfl
  rw [Controller.pulse_of_idle hi, Controller.receive, if_neg (not_not_intro hi)]
  simp only [hb, Bus.elapse, e]

/-- In 4-bit mode and not executing, a byte transaction is the byte, then the cycle wait. -/
theorem Controller.send_of_four {c : Controller} (rs : Bool) (b : Byte) (hb : c.bus = .four) (hi : c.busy = 0) :
    c.send rs b = (c.takeByte rs b).elapse Config.tCycle := by
  rw [Controller.send, Controller.pulse_of_four hb hi, Controller.pulse_of_half (by rfl) (by exact hi),
    Controller.takeSecond_pairs _ (.inr (.inr (by decide))), Controller.takePair, if_pos rfl, joinNibbles_split]
  cases c
  cases hb
  rfl

/-- The words the block can emit are taken as themselves. -/
theorem emittedWord_byte {w : LcdWord} (h : wireVerdict w.rs w.byte = .emitted) : emittedWord w.rs w.byte = some w := by
  rw [emittedWord, if_pos h, lcdOfByte_byte]

/-- An emitted word in 4-bit mode: its effect, then the cycle wait. -/
theorem Controller.send_word {c : Controller} {w : LcdWord} (hv : wireVerdict w.rs w.byte = .emitted) (hb : c.bus = .four)
    (hi : c.busy = 0) : c.send w.rs w.byte = (c.obey w).elapse Config.tCycle := by
  rw [Controller.send_of_four _ _ hb hi, Controller.takeByte, emittedWord_byte hv]

theorem emittedWord_data (b : Byte) : emittedWord true b = some (.data b) := rfl

/-- A byte the block can emit is obeyed as the word it is (30_encoding.md R74). -/
theorem Controller.takeByte_obeys {rs : Bool} {b : Byte} (hv : wireVerdict rs b = .emitted) (c : Controller) :
    ∃ w : LcdWord, w.rs = rs ∧ w.byte = b ∧ c.takeByte rs b = c.obey w := by
  cases hw : lcdOfByte rs b with
  | none => simp [wireVerdict, hw] at hv
  | some w =>
    obtain ⟨h1, h2⟩ := lcdOfByte_some hw
    exact ⟨w, h1, h2, by simp [Controller.takeByte, emittedWord, hv, hw]⟩

/-- The bus mode in which a word arrives matters to nothing else it does. -/
theorem Controller.obey_bus (w : LcdWord) (c : Controller) (m n : Bus) :
    { ({ c with bus := m } : Controller).obey w with bus := n } = { c.obey w with bus := n } := by
  cases w with
  | data ch =>
    simp only [Controller.obey, Controller.advance]
    split <;> rfl
  | function l x f z => rfl
  | clear => rfl
  | home => rfl
  | entry i s => rfl
  | display d cu b => rfl
  | setAddr a => rfl

/-- The emitted words but clear and home leave 4-bit mode and readiness (30_encoding.md R70, 70_reset_and_hazards.md R192). -/
theorem Controller.takeByte_emitted {rs : Bool} {b : Byte} (hv : wireVerdict rs b = .emitted)
    (h : rs = true ∨ b ≠ Config.cmdClear ∧ b ≠ Config.cmdHome) {c : Controller} (hb : c.bus = .four) (hi : c.busy = 0) :
    (c.takeByte rs b).bus = .four ∧ (c.takeByte rs b).busy = 0 := by
  have key : ∀ b : Byte, (emittedWord false b = some .clear → b = Config.cmdClear) ∧
      (emittedWord false b = some .home → b = Config.cmdHome) ∧
      ∀ l n f x, emittedWord false b = some (.function l n f x) → l = false := by decide
  unfold Controller.takeByte
  cases rs with
  | true =>
    simp only [emittedWord_data, Controller.obey, Controller.advance]
    split <;> exact ⟨hb, hi⟩
  | false =>
    obtain ⟨h1, h2⟩ := h.resolve_left (by decide)
    cases hw : emittedWord false b with
    | none =>
      have some_of : ∀ b : Byte, wireVerdict false b = .emitted → (emittedWord false b).isSome = true := by decide
      have := some_of b hv
      rw [hw] at this
      cases this
    | some w =>
      cases w with
      | clear => exact absurd ((key b).1 hw) h1
      | home => exact absurd ((key b).2.1 hw) h2
      | function l n f x =>
        have := (key b).2.2 l n f x hw
        subst this
        exact ⟨rfl, hi⟩
      | data ch =>
        simp only [Controller.obey, Controller.advance]
        split <;> exact ⟨hb, hi⟩
      | entry i s => exact ⟨hb, hi⟩
      | display d cu b => exact ⟨hb, hi⟩
      | setAddr a => exact ⟨hb, hi⟩

/-- A character leaves the bus mode, whichever it is. -/
theorem Controller.takeByte_data (b : Byte) (c : Controller) :
    (c.takeByte true b).bus = c.bus ∧ (c.takeByte true b).busy = c.busy := by
  simp only [Controller.takeByte, emittedWord_data, Controller.obey, Controller.advance]
  split <;> exact ⟨rfl, rfl⟩

/-- A reserved byte: nothing is known, and the record says so (30_encoding.md R74). -/
theorem Controller.takeByte_reserved {rs : Bool} {b : Byte} (hv : wireVerdict rs b ≠ .emitted) (c : Controller) :
    c.takeByte rs b = c.reserved := by
  rw [Controller.takeByte, emittedWord, if_neg hv]

theorem Controller.forget_ddram (c : Controller) : c.forget.ddram = [] := rfl

theorem Controller.scramble_wf (c : Controller) : c.scramble.ddram.wf = true := rfl

theorem Controller.handshake_ddram (w : Bool) (c : Controller) : (c.handshake w).ddram = c.ddram := rfl

theorem Controller.knock_ddram (k : Nat) (c : Controller) : (c.knock k).ddram = [] := by
  unfold Controller.knock; split <;> rfl

theorem Controller.reserved_ddram (c : Controller) : c.reserved.ddram = [] := rfl

theorem Controller.advance_ddram (c : Controller) : c.advance.ddram = c.ddram := by
  simp only [Controller.advance]; split <;> rfl

theorem Controller.obey_wf (w : LcdWord) (c : Controller) (h : c.ddram.wf = true) : (c.obey w).ddram.wf = true := by
  cases w with
  | clear => exact Ddram.blank_wf
  | data ch =>
    simp only [Controller.obey, Controller.advance_ddram]
    exact Ddram.write_wf ch (by unfold ddramSize; exact c.ac.isLt) h
  | home => exact h
  | entry i s => exact h
  | display d cu b => exact h
  | function l n f x => exact h
  | setAddr a => exact h

theorem Controller.takeByte_wf (rs : Bool) (b : Byte) (c : Controller) (h : c.ddram.wf = true) :
    (c.takeByte rs b).ddram.wf = true := by
  unfold Controller.takeByte
  split
  · exact Controller.obey_wf _ _ h
  · rfl

theorem Controller.takePair_wf (rsHi : Bool) (hi : Nibble) (rs : Bool) (lo : Nibble) (c : Controller)
    (h : c.ddram.wf = true) : (c.takePair rsHi hi rs lo).ddram.wf = true := by
  unfold Controller.takePair
  split
  · exact Controller.takeByte_wf _ _ _ h
  · exact Controller.takeByte_wf _ _ _ h

theorem Controller.takeWhole_wf (rs : Bool) (n : Nibble) (c : Controller) (h : c.ddram.wf = true) :
    (c.takeWhole rs n).ddram.wf = true := by
  unfold Controller.takeWhole
  split
  · exact h
  · split
    · exact h
    · exact Controller.takeByte_wf _ _ _ h

theorem Controller.takeSecond_wf (rsHi : Bool) (hi : Nibble) (gap : Nat) (rs : Bool) (n : Nibble) (c : Controller)
    (h : c.ddram.wf = true) : (c.takeSecond rsHi hi gap rs n).ddram.wf = true := by
  unfold Controller.takeSecond
  split
  · rw [Controller.knock_ddram]; rfl
  · exact Controller.takePair_wf _ _ _ _ _ h

/-- Whatever arrives, the character memory stays canonical. -/
theorem Controller.receive_wf (rs : Bool) (n : Nibble) (c : Controller) (h : c.ddram.wf = true) :
    (c.receive rs n).ddram.wf = true := by
  unfold Controller.receive
  split
  · rfl
  · split
    · split
      · rw [Controller.knock_ddram]; rfl
      · rfl
    · exact Controller.takeWhole_wf _ _ _ h
    · exact h
    · exact Controller.takeSecond_wf _ _ _ _ _ _ h

theorem Controller.pulse_wf (rs : Bool) (n : Nibble) (c : Controller) (h : c.ddram.wf = true) :
    (c.pulse rs n).ddram.wf = true := Controller.receive_wf rs n _ h

theorem Controller.send_wf (rs : Bool) (b : Byte) (c : Controller) (h : c.ddram.wf = true) :
    (c.send rs b).ddram.wf = true := Controller.pulse_wf _ _ _ (Controller.pulse_wf _ _ _ h)

/-! A ready controller. -/

/-- A character: it lands at the address counter, which advances. -/
theorem Controller.Ready.send_data {c : Controller} (h : c.Ready) (ch : Byte) :
    c.send true ch = { c with ddram := c.ddram.write c.ac.toNat ch, ac := c.ac + 1 } := by
  have e : c.send true ch = (c.obey (.data ch)).elapse Config.tCycle :=
    Controller.send_word (w := .data ch) rfl h.bus h.idle
  have he : c.entry.getLsbD 1 = true := by rw [h.entry]; rfl
  rw [e]
  simp only [Controller.obey, Controller.advance, he, if_true]
  exact Controller.elapse_of_four _ h.bus h.idle

/-- A set-address command for a displayed cell is one the block can emit. -/
theorem setAddr_emitted {a : Address} (ha : displayedAddress a = true) :
    wireVerdict (LcdWord.setAddr a).rs (LcdWord.setAddr a).byte = .emitted := by
  simp only [wireVerdict, lcdOfByte_byte, ha, if_true]

/-- It moves the address counter and nothing else. -/
theorem Controller.send_setAddr {c : Controller} (hb : c.bus = .four) (hi : c.busy = 0) {a : Address}
    (ha : displayedAddress a = true) : c.send false (LcdWord.setAddr a).byte = { c with ac := a } := by
  have e : c.send false (LcdWord.setAddr a).byte = (c.obey (.setAddr a)).elapse Config.tCycle :=
    Controller.send_word (w := .setAddr a) (setAddr_emitted ha) hb hi
  rw [e]
  exact Controller.elapse_of_four _ hb hi

theorem Controller.Ready.send_setAddr {c : Controller} (h : c.Ready) (a : Address) (ha : displayedAddress a = true) :
    c.send false (LcdWord.setAddr a).byte = { c with ac := a } := Controller.send_setAddr h.bus h.idle ha

/-- Clear: every cell blank, the address counter at 0, executing. -/
theorem Controller.send_cmdClear {c : Controller} (hb : c.bus = .four) (hi : c.busy = 0) :
    c.send false Config.cmdClear = { c with ddram := Ddram.blank, ac := 0, busy := 1420 } := by
  have e : c.send false Config.cmdClear = (c.obey .clear).elapse Config.tCycle :=
    Controller.send_word (w := .clear) (by decide) hb hi
  rw [e]
  cases c
  cases hb
  rfl

/-- Home: the address counter at 0, executing. -/
theorem Controller.send_cmdHome {c : Controller} (hb : c.bus = .four) (hi : c.busy = 0) :
    c.send false Config.cmdHome = { c with ac := 0, busy := 1420 } := by
  have e : c.send false Config.cmdHome = (c.obey .home).elapse Config.tCycle :=
    Controller.send_word (w := .home) (by decide) hb hi
  rw [e]
  cases c
  cases hb
  rfl

/-- The wait after clear and home ends their execution. -/
theorem Controller.elapse_tClear {c : Controller} (hb : c.bus = .four) (hi : c.busy ≤ Config.tClear) :
    c.elapse Config.tClear = { c with busy := 0 } := by
  simp only [Controller.elapse, Bus.elapse, hb, hi, true_or, if_true]

/-- Clear, with the wait that follows it: every cell blank, the address counter at 0, ready again. -/
theorem Controller.send_clear {c : Controller} (hb : c.bus = .four) (hi : c.busy = 0) :
    (c.send false Config.cmdClear).elapse Config.tClear = { c with ddram := Ddram.blank, ac := 0 } := by
  rw [Controller.send_cmdClear hb hi, Controller.elapse_tClear (by exact hb) (show 1420 ≤ Config.tClear by decide)]
  cases c
  cases hi
  rfl

/-- Home, with the wait that follows it: the address counter at 0, ready again. -/
theorem Controller.send_home {c : Controller} (hb : c.bus = .four) (hi : c.busy = 0) :
    (c.send false Config.cmdHome).elapse Config.tClear = { c with ac := 0 } := by
  rw [Controller.send_cmdHome hb hi, Controller.elapse_tClear (by exact hb) (show 1420 ≤ Config.tClear by decide)]
  cases c
  cases hi
  rfl

/-- Function-set: 4-bit bus, two rows, 5x8 font. -/
theorem Controller.send_function {c : Controller} (hb : c.bus = .four) (hi : c.busy = 0) :
    c.send false 0x28#8 = { c with function := 0b010#3 } := by
  have e : c.send false 0x28#8 = (c.obey (.function false true false 0)).elapse Config.tCycle :=
    Controller.send_word (w := .function false true false 0) (by decide) hb hi
  rw [e, Controller.elapse_of_four _ rfl (by exact hi)]
  cases c
  cases hb
  rfl

/-- Display control: on, no cursor, no blink. -/
theorem Controller.send_display {c : Controller} (hb : c.bus = .four) (hi : c.busy = 0) :
    c.send false 0x0C#8 = { c with display := 0b100#3 } := by
  have e : c.send false 0x0C#8 = (c.obey (.display true false false)).elapse Config.tCycle :=
    Controller.send_word (w := .display true false false) (by decide) hb hi
  rw [e]
  exact Controller.elapse_of_four _ hb hi

/-- Entry mode: left-to-right, no auto-shift. -/
theorem Controller.send_entry {c : Controller} (hb : c.bus = .four) (hi : c.busy = 0) :
    c.send false 0x06#8 = { c with entry := 0b10#2 } := by
  have e : c.send false 0x06#8 = (c.obey (.entry true false)).elapse Config.tCycle :=
    Controller.send_word (w := .entry true false) (by decide) hb hi
  rw [e]
  exact Controller.elapse_of_four _ hb hi

end Sys2Proof.Machine
end

