-- ==== Sys2Proof/Laws/State.lean ====
section
/-! SUPPORT. One lemma per primitive update of the state: every field of the result, so that no later proof unfolds a
record update. -/

namespace Sys2Proof.Machine

@[simp] theorem State.emit_fields (e : Event) (s : State) :
    (s.emit e).cfg = s.cfg ∧ (s.emit e).cur = s.cur ∧ (s.emit e).sc = s.sc ∧ (s.emit e).mode = s.mode ∧
    (s.emit e).tc = s.tc ∧ (s.emit e).cursor = s.cursor ∧ (s.emit e).alarm = s.alarm ∧ (s.emit e).lcdRs = s.lcdRs ∧
    (s.emit e).lcdEn = s.lcdEn ∧ (s.emit e).lcdD = s.lcdD ∧ (s.emit e).lcdDir = s.lcdDir ∧ (s.emit e).ctx = s.ctx ∧
    (s.emit e).efStart = s.efStart ∧ (s.emit e).efSec = s.efSec ∧ (s.emit e).efMin = s.efMin ∧
    (s.emit e).tp = s.tp ∧ (s.emit e).irqEnabled = s.irqEnabled ∧ (s.emit e).boot = s.boot ∧
    (s.emit e).lvlStart = s.lvlStart ∧ (s.emit e).lvlSec = s.lvlSec ∧ (s.emit e).lvlMin = s.lvlMin ∧
    (s.emit e).controller = s.controller ∧ (s.emit e).trace = s.trace ++ [e] ∧ (s.emit e).inbox = s.inbox := by
  repeat' constructor

@[simp] theorem State.wait_fields (t : Nat) (s : State) :
    (s.wait t).cfg = s.cfg ∧ (s.wait t).cur = s.cur ∧ (s.wait t).sc = s.sc ∧ (s.wait t).mode = s.mode ∧
    (s.wait t).tc = s.tc ∧ (s.wait t).cursor = s.cursor ∧ (s.wait t).alarm = s.alarm ∧ (s.wait t).lcdRs = s.lcdRs ∧
    (s.wait t).lcdEn = s.lcdEn ∧ (s.wait t).lcdD = s.lcdD ∧ (s.wait t).lcdDir = s.lcdDir ∧ (s.wait t).ctx = s.ctx ∧
    (s.wait t).efStart = s.efStart ∧ (s.wait t).efSec = s.efSec ∧ (s.wait t).efMin = s.efMin ∧
    (s.wait t).tp = s.tp ∧ (s.wait t).irqEnabled = s.irqEnabled ∧ (s.wait t).boot = s.boot ∧
    (s.wait t).lvlStart = s.lvlStart ∧ (s.wait t).lvlSec = s.lvlSec ∧ (s.wait t).lvlMin = s.lvlMin ∧
    (s.wait t).controller = s.controller.elapse t ∧ (s.wait t).trace = s.trace ++ [.wait t] ∧
    (s.wait t).inbox = s.inbox := by
  repeat' constructor

@[simp] theorem State.driveData_fields (n : Nibble) (s : State) :
    (s.driveData n).cfg = s.cfg ∧ (s.driveData n).cur = s.cur ∧ (s.driveData n).sc = s.sc ∧
    (s.driveData n).mode = s.mode ∧ (s.driveData n).tc = s.tc ∧ (s.driveData n).cursor = s.cursor ∧
    (s.driveData n).alarm = s.alarm ∧ (s.driveData n).lcdRs = s.lcdRs ∧ (s.driveData n).lcdEn = s.lcdEn ∧
    (s.driveData n).lcdD = n ∧ (s.driveData n).lcdDir = s.lcdDir ∧ (s.driveData n).ctx = s.ctx ∧
    (s.driveData n).efStart = s.efStart ∧ (s.driveData n).efSec = s.efSec ∧ (s.driveData n).efMin = s.efMin ∧
    (s.driveData n).tp = s.tp ∧ (s.driveData n).irqEnabled = s.irqEnabled ∧ (s.driveData n).boot = s.boot ∧
    (s.driveData n).lvlStart = s.lvlStart ∧ (s.driveData n).lvlSec = s.lvlSec ∧ (s.driveData n).lvlMin = s.lvlMin ∧
    (s.driveData n).controller = s.controller ∧ (s.driveData n).trace = s.trace ++ [.d n] ∧
    (s.driveData n).inbox = s.inbox := by
  repeat' constructor

@[simp] theorem State.driveEnable_fields (v : Bool) (s : State) :
    (s.driveEnable v).cfg = s.cfg ∧ (s.driveEnable v).cur = s.cur ∧ (s.driveEnable v).sc = s.sc ∧
    (s.driveEnable v).mode = s.mode ∧ (s.driveEnable v).tc = s.tc ∧ (s.driveEnable v).cursor = s.cursor ∧
    (s.driveEnable v).alarm = s.alarm ∧ (s.driveEnable v).lcdRs = s.lcdRs ∧ (s.driveEnable v).lcdEn = v ∧
    (s.driveEnable v).lcdD = s.lcdD ∧ (s.driveEnable v).lcdDir = s.lcdDir ∧ (s.driveEnable v).ctx = s.ctx ∧
    (s.driveEnable v).efStart = s.efStart ∧ (s.driveEnable v).efSec = s.efSec ∧ (s.driveEnable v).efMin = s.efMin ∧
    (s.driveEnable v).tp = s.tp ∧ (s.driveEnable v).irqEnabled = s.irqEnabled ∧ (s.driveEnable v).boot = s.boot ∧
    (s.driveEnable v).lvlStart = s.lvlStart ∧ (s.driveEnable v).lvlSec = s.lvlSec ∧
    (s.driveEnable v).lvlMin = s.lvlMin ∧ (s.driveEnable v).controller = s.controller ∧
    (s.driveEnable v).trace = s.trace ++ [.en v] ∧ (s.driveEnable v).inbox = s.inbox := by
  repeat' constructor

@[simp] theorem State.driveSelect_fields (v : Bool) (s : State) :
    (s.driveSelect v).cfg = s.cfg ∧ (s.driveSelect v).cur = s.cur ∧ (s.driveSelect v).sc = s.sc ∧
    (s.driveSelect v).mode = s.mode ∧ (s.driveSelect v).tc = s.tc ∧ (s.driveSelect v).cursor = s.cursor ∧
    (s.driveSelect v).alarm = s.alarm ∧ (s.driveSelect v).lcdRs = v ∧ (s.driveSelect v).lcdEn = s.lcdEn ∧
    (s.driveSelect v).lcdD = s.lcdD ∧ (s.driveSelect v).lcdDir = s.lcdDir ∧ (s.driveSelect v).ctx = s.ctx ∧
    (s.driveSelect v).efStart = s.efStart ∧ (s.driveSelect v).efSec = s.efSec ∧ (s.driveSelect v).efMin = s.efMin ∧
    (s.driveSelect v).tp = s.tp ∧ (s.driveSelect v).irqEnabled = s.irqEnabled ∧ (s.driveSelect v).boot = s.boot ∧
    (s.driveSelect v).lvlStart = s.lvlStart ∧ (s.driveSelect v).lvlSec = s.lvlSec ∧
    (s.driveSelect v).lvlMin = s.lvlMin ∧ (s.driveSelect v).controller = s.controller ∧
    (s.driveSelect v).trace = s.trace ++ [.rs v] ∧ (s.driveSelect v).inbox = s.inbox := by
  repeat' constructor

@[simp] theorem State.configureLines_fields (s : State) :
    (s.configureLines).cfg = s.cfg ∧ (s.configureLines).cur = s.cur ∧ (s.configureLines).sc = s.sc ∧
    (s.configureLines).mode = s.mode ∧ (s.configureLines).tc = s.tc ∧ (s.configureLines).cursor = s.cursor ∧
    (s.configureLines).alarm = s.alarm ∧ (s.configureLines).lcdRs = false ∧ (s.configureLines).lcdEn = false ∧
    (s.configureLines).lcdD = 0 ∧ (s.configureLines).lcdDir = true ∧ (s.configureLines).ctx = s.ctx ∧
    (s.configureLines).efStart = s.efStart ∧ (s.configureLines).efSec = s.efSec ∧
    (s.configureLines).efMin = s.efMin ∧ (s.configureLines).tp = s.tp ∧
    (s.configureLines).irqEnabled = s.irqEnabled ∧ (s.configureLines).boot = s.boot ∧
    (s.configureLines).lvlStart = s.lvlStart ∧ (s.configureLines).lvlSec = s.lvlSec ∧
    (s.configureLines).lvlMin = s.lvlMin ∧ (s.configureLines).controller = s.controller ∧
    (s.configureLines).trace = s.trace ++ [.dirOut] ∧ (s.configureLines).inbox = s.inbox := by
  repeat' constructor

@[simp] theorem State.driveAlarm_fields (v : Bool) (s : State) :
    (s.driveAlarm v).cfg = s.cfg ∧ (s.driveAlarm v).cur = s.cur ∧ (s.driveAlarm v).sc = s.sc ∧
    (s.driveAlarm v).mode = s.mode ∧ (s.driveAlarm v).tc = s.tc ∧ (s.driveAlarm v).cursor = s.cursor ∧
    (s.driveAlarm v).alarm = v ∧ (s.driveAlarm v).lcdRs = s.lcdRs ∧ (s.driveAlarm v).lcdEn = s.lcdEn ∧
    (s.driveAlarm v).lcdD = s.lcdD ∧ (s.driveAlarm v).lcdDir = s.lcdDir ∧ (s.driveAlarm v).ctx = s.ctx ∧
    (s.driveAlarm v).efStart = s.efStart ∧ (s.driveAlarm v).efSec = s.efSec ∧ (s.driveAlarm v).efMin = s.efMin ∧
    (s.driveAlarm v).tp = s.tp ∧ (s.driveAlarm v).irqEnabled = s.irqEnabled ∧ (s.driveAlarm v).boot = s.boot ∧
    (s.driveAlarm v).lvlStart = s.lvlStart ∧ (s.driveAlarm v).lvlSec = s.lvlSec ∧
    (s.driveAlarm v).lvlMin = s.lvlMin ∧ (s.driveAlarm v).controller = s.controller ∧
    (s.driveAlarm v).trace = s.trace ++ [.alarm v] ∧ (s.driveAlarm v).inbox = s.inbox := by
  repeat' constructor

@[simp] theorem State.deliver_fields (s : State) :
    (s.deliver).cfg = s.cfg ∧ (s.deliver).cur = s.cur ∧ (s.deliver).sc = s.sc ∧ (s.deliver).mode = s.mode ∧
    (s.deliver).tc = s.tc ∧ (s.deliver).cursor = s.cursor ∧ (s.deliver).alarm = s.alarm ∧
    (s.deliver).lcdRs = s.lcdRs ∧ (s.deliver).lcdEn = s.lcdEn ∧ (s.deliver).lcdD = s.lcdD ∧
    (s.deliver).lcdDir = s.lcdDir ∧ (s.deliver).ctx = s.ctx ∧ (s.deliver).efStart = s.efStart ∧
    (s.deliver).efSec = s.efSec ∧ (s.deliver).efMin = s.efMin ∧ (s.deliver).tp = s.tp ∧
    (s.deliver).irqEnabled = s.irqEnabled ∧ (s.deliver).boot = s.boot ∧ (s.deliver).lvlStart = s.lvlStart ∧
    (s.deliver).lvlSec = s.lvlSec ∧ (s.deliver).lvlMin = s.lvlMin ∧
    (s.deliver).controller = s.controller.receive s.lcdRs s.lcdD ∧ (s.deliver).trace = s.trace ∧
    (s.deliver).inbox = s.inbox := by
  repeat' constructor

@[simp] theorem State.enterHandler_fields (s : State) :
    (s.enterHandler).cfg = s.cfg ∧ (s.enterHandler).cur = s.cur ∧ (s.enterHandler).sc = s.sc ∧
    (s.enterHandler).mode = s.mode ∧ (s.enterHandler).tc = s.tc ∧ (s.enterHandler).cursor = s.cursor ∧
    (s.enterHandler).alarm = s.alarm ∧ (s.enterHandler).lcdRs = s.lcdRs ∧ (s.enterHandler).lcdEn = s.lcdEn ∧
    (s.enterHandler).lcdD = s.lcdD ∧ (s.enterHandler).lcdDir = s.lcdDir ∧ (s.enterHandler).ctx = .inHandler ∧
    (s.enterHandler).efStart = s.efStart ∧ (s.enterHandler).efSec = s.efSec ∧ (s.enterHandler).efMin = s.efMin ∧
    (s.enterHandler).tp = false ∧ (s.enterHandler).irqEnabled = s.irqEnabled ∧ (s.enterHandler).boot = s.boot ∧
    (s.enterHandler).lvlStart = s.lvlStart ∧ (s.enterHandler).lvlSec = s.lvlSec ∧
    (s.enterHandler).lvlMin = s.lvlMin ∧ (s.enterHandler).controller = s.controller ∧
    (s.enterHandler).trace = s.trace ∧ (s.enterHandler).inbox = s.inbox := by
  repeat' constructor

@[simp] theorem State.leaveHandler_fields (s : State) :
    (s.leaveHandler).cfg = s.cfg ∧ (s.leaveHandler).cur = s.cur ∧ (s.leaveHandler).sc = s.sc ∧
    (s.leaveHandler).mode = s.mode ∧ (s.leaveHandler).tc = s.tc ∧ (s.leaveHandler).cursor = s.cursor ∧
    (s.leaveHandler).alarm = s.alarm ∧ (s.leaveHandler).lcdRs = s.lcdRs ∧ (s.leaveHandler).lcdEn = s.lcdEn ∧
    (s.leaveHandler).lcdD = s.lcdD ∧ (s.leaveHandler).lcdDir = s.lcdDir ∧ (s.leaveHandler).ctx = .foreground ∧
    (s.leaveHandler).efStart = s.efStart ∧ (s.leaveHandler).efSec = s.efSec ∧ (s.leaveHandler).efMin = s.efMin ∧
    (s.leaveHandler).tp = s.tp ∧ (s.leaveHandler).irqEnabled = s.irqEnabled ∧ (s.leaveHandler).boot = s.boot ∧
    (s.leaveHandler).lvlStart = s.lvlStart ∧ (s.leaveHandler).lvlSec = s.lvlSec ∧
    (s.leaveHandler).lvlMin = s.lvlMin ∧ (s.leaveHandler).controller = s.controller ∧
    (s.leaveHandler).trace = s.trace ∧ (s.leaveHandler).inbox = s.inbox := by
  repeat' constructor

@[simp] theorem State.setFlag_flag (b c : Button) (v : Bool) (s : State) :
    (s.setFlag b v).flag c = if c = b then v else s.flag c := by
  cases b <;> cases c <;> rfl

theorem State.setFlag_eq (b : Button) (v : Bool) (s : State) :
    s.setFlag b v = { s with
      efStart := if b = .start then v else s.efStart
      efSec := if b = .sec then v else s.efSec
      efMin := if b = .min then v else s.efMin } := by
  cases b <;> rfl

theorem State.clearFlag_eq (b : Button) (s : State) :
    s.clearFlag b = { s with
      trace := s.trace ++ [.clrf b]
      efStart := if b = .start then false else s.efStart
      efSec := if b = .sec then false else s.efSec
      efMin := if b = .min then false else s.efMin } := by
  cases b <;> rfl

end Sys2Proof.Machine
end

