-- ==== Sys2Proof/Laws/Driver.lean ====
section
/-! SUPPORT. One lemma per DisplayDriver operation that says everything it does. -/

namespace Sys2Proof.Machine

@[simp] theorem andThen_next (s : State) (f : State → Result) : andThen (.next s) f = f s := rfl
@[simp] theorem andThen_fault (e : Fault) (f : State → Result) : andThen (.fault e) f = .fault e := rfl
@[simp] theorem andThen_refused (e : Refusal) (f : State → Result) : andThen (.refused e) f = .refused e := rfl

theorem andThen_assoc (r : Result) (f g : State → Result) :
    andThen (andThen r f) g = andThen r fun s => andThen (f s) g := by
  cases r <;> rfl

/-- A sequence that runs on ran its first part on. -/
theorem andThen_eq_next {r : Result} {f : State → Result} {t : State} (h : andThen r f = .next t) :
    ∃ u, r = .next u ∧ f u = .next t := by
  cases r with
  | next u => exact ⟨u, rfl, h⟩
  | fault e => cases h
  | refused e => cases h

theorem State.withDriver_ready {s : State} (f : State → Result) (h : s.lcdDir = true) : s.withDriver f = f s := by
  simp [State.withDriver, h]

theorem State.withDriver_refused {s : State} (f : State → Result) (h : s.lcdDir = false) :
    s.withDriver f = .refused .driverBeforeInitialize := by
  simp [State.withDriver, h]

/-- A driver operation that runs on found the lines out. -/
theorem State.withDriver_eq_next {s t : State} {f : State → Result} (h : s.withDriver f = .next t) :
    s.lcdDir = true ∧ f s = .next t := by
  unfold State.withDriver at h
  split at h
  · exact ⟨‹_›, h⟩
  · cases h

/-! Wire primitives. -/

/-- Everything one nibble transfer does. -/
theorem State.pulseNibble_eq (n : Nibble) (s : State) :
    s.pulseNibble n = { s with
      lcdD := n
      lcdEn := false
      trace := s.trace ++ nibbleEvents n
      controller := s.controller.pulse s.lcdRs n } := by
  simp [State.pulseNibble, State.emit, State.wait, State.driveData, State.driveEnable, State.deliver, nibbleEvents,
    Controller.pulse]

/-- Everything one byte transaction does. -/
theorem State.sendByte_eq (rs : Bool) (b : Byte) (s : State) :
    s.sendByte rs b = { s with
      lcdRs := rs
      lcdD := loNibble b
      lcdEn := false
      trace := s.trace ++ byteEvents rs b
      controller := s.controller.send rs b } := by
  simp [State.sendByte, State.pulseNibble_eq, State.driveSelect, State.emit, byteEvents, Controller.send]

theorem State.sendCommand_eq (b : Byte) (s : State) : s.sendCommand b = s.sendByte false b := rfl

/-- The byte of a set-address command for a column: `0x80 + c` in the first row, `0xC0 + (c - 8)` in the second
(30_encoding.md R64). -/
def columnByte (c : Nat) : Byte := (LcdWord.setAddr (columnAddress c)).byte

/-- Everything `setCursor` does. -/
theorem State.moveCursor_eq (col : Byte) (s : State) :
    s.moveCursor col = { s with
      lcdRs := false
      lcdD := loNibble (columnByte (clampColumn col))
      lcdEn := false
      cursor := BitVec.ofNat 8 (clampColumn col)
      trace := s.trace ++ byteEvents false (columnByte (clampColumn col))
      controller := s.controller.send false (columnByte (clampColumn col)) } := by
  simp [State.moveCursor, State.sendCommand, State.sendByte_eq, columnByte, Config.rsCommand]

/-- Everything `clear` does. -/
theorem State.clearDisplay_eq (s : State) :
    s.clearDisplay = { s with
      lcdRs := false
      lcdD := 1
      lcdEn := false
      cursor := 0
      trace := s.trace ++ clearEvents
      controller := (s.controller.send false Config.cmdClear).elapse Config.tClear } := by
  have h : loNibble Config.cmdClear = 1 := by decide
  simp [State.clearDisplay, State.sendCommand, State.sendByte_eq, State.wait, State.emit, clearEvents, Config.rsCommand, h]

/-- Everything `home` does. -/
theorem State.homeDisplay_eq (s : State) :
    s.homeDisplay = { s with
      lcdRs := false
      lcdD := 2
      lcdEn := false
      cursor := 0
      trace := s.trace ++ (byteEvents false Config.cmdHome ++ [.wait Config.tClear])
      controller := (s.controller.send false Config.cmdHome).elapse Config.tClear } := by
  have h : loNibble Config.cmdHome = 2 := by decide
  simp [State.homeDisplay, State.sendCommand, State.sendByte_eq, State.wait, State.emit, Config.rsCommand, h]

/-! Characters and texts. -/

/-- What `writeChar` does to the controller: the row switch at column 8, then the character. -/
def Controller.putAt (cursor : Nat) (ch : Byte) (c : Controller) : Controller :=
  (if cursor = 8 then c.send false 0xC0#8 else c).send true ch

/-- Everything `writeChar` does for a cursor in range. -/
theorem State.placeChar_eq (ch : Byte) (s : State) :
    s.placeChar ch = { s with
      lcdRs := true
      lcdD := loNibble ch
      lcdEn := false
      cursor := BitVec.ofNat 8 (s.cursor.toNat + 1)
      trace := s.trace ++ charEvents s.cursor.toNat ch
      controller := s.controller.putAt s.cursor.toNat ch } := by
  have hn : BitVec.ofNat 8 (s.cursor.toNat + 1) = s.cursor + 1 := by
    apply BitVec.eq_of_toNat_eq; simp
  have h8 : columnByte 8 = 0xC0#8 := by decide
  have hc : clampColumn 8#8 = 8 := by decide
  by_cases h8c : s.cursor.toNat = 8
  · have hcur : s.cursor = 8#8 := by apply BitVec.eq_of_toNat_eq; simpa using h8c
    simp [State.placeChar, Config.rowCutoff, State.moveCursor_eq, State.sendByte_eq, hcur, hc, h8, charEvents,
      Controller.putAt, Config.rsData, Config.rsCommand]
  · rw [hn]
    simp [State.placeChar, Config.rowCutoff, State.sendByte_eq, h8c, charEvents, Controller.putAt, Config.rsData]

theorem putChar_ready {s : State} (ch : Byte) (hd : s.lcdDir = true) (hc : s.cursor.toNat < 16) :
    putChar ch s = .next (s.placeChar ch) := by
  simp [putChar, State.withCursor, hd, Config.cols, Nat.not_le.mpr hc]

theorem putChar_refused {s : State} (ch : Byte) (hd : s.lcdDir = true) (hc : 16 ≤ s.cursor.toNat) :
    putChar ch s = .refused .writePastColumn15 := by
  simp [putChar, State.withCursor, hd, Config.cols, hc]

/-- What a text does to the controller, character by character. -/
def Controller.putTextAt (cursor : Nat) (text : List Byte) (c : Controller) : Controller :=
  match text with
  | [] => c
  | ch :: rest => Controller.putTextAt (cursor + 1) rest (c.putAt cursor ch)

/-- The state after a text that fits. -/
def State.afterText (text : List Byte) (s : State) : State :=
  match text.getLast? with
  | none => s
  | some last => { s with
      lcdRs := true
      lcdD := loNibble last
      lcdEn := false
      cursor := BitVec.ofNat 8 (s.cursor.toNat + text.length)
      trace := s.trace ++ textEvents s.cursor.toNat text
      controller := s.controller.putTextAt s.cursor.toNat text }

/-- Everything `addText` does for a text that fits. -/
theorem putText_fits {s : State} (text : List Byte) (hd : s.lcdDir = true) (hc : s.cursor.toNat + text.length ≤ 16) :
    putText text s = .next (s.afterText text) := by
  induction text generalizing s with
  | nil => rfl
  | cons ch rest ih =>
    simp only [List.length_cons] at hc
    have h16 : s.cursor.toNat < 16 := by omega
    have e := State.placeChar_eq ch s
    have hcur : (s.placeChar ch).cursor.toNat = s.cursor.toNat + 1 := by rw [e]; simp; omega
    have hdir : (s.placeChar ch).lcdDir = true := by rw [e]; exact hd
    simp only [putText, putChar_ready ch hd h16, andThen_next, ih hdir (by omega)]
    cases rest with
    | nil => simp [State.afterText, e, textEvents, Controller.putTextAt]
    | cons ch2 rest2 =>
      simp only [State.afterText, List.getLast?_cons_cons]
      cases hl : (ch2 :: rest2).getLast? with
      | none => simp at hl
      | some last =>
        have hm : (s.cursor.toNat + 1) % 256 = s.cursor.toNat + 1 := by omega
        simp [e, textEvents, Controller.putTextAt, hm]
        congr 1
        omega

/-- A text that does not fit is refused (93_implementation_defined.md U2). -/
theorem putText_overflows {s : State} (text : List Byte) (hd : s.lcdDir = true) (hs : s.cursor.toNat ≤ 16)
    (hc : 16 < s.cursor.toNat + text.length) : putText text s = .refused .writePastColumn15 := by
  induction text generalizing s with
  | nil => simp at hc; omega
  | cons ch rest ih =>
    simp only [List.length_cons] at hc
    by_cases h16 : s.cursor.toNat < 16
    · have e := State.placeChar_eq ch s
      have hcur : (s.placeChar ch).cursor.toNat = s.cursor.toNat + 1 := by rw [e]; simp; omega
      have hdir : (s.placeChar ch).lcdDir = true := by rw [e]; exact hd
      simp only [putText, putChar_ready ch hd h16, andThen_next]
      exact ih hdir (by omega) (by omega)
    · simp [putText, putChar_refused ch hd (by omega)]

/-- Everything `setText` does for a text that fits. -/
theorem replaceText_fits {s : State} (text : List Byte) (hd : s.lcdDir = true) (hl : text.length ≤ 16) :
    replaceText text s = .next (s.clearDisplay.afterText text) := by
  apply putText_fits
  · rw [State.clearDisplay_eq]; exact hd
  · rw [State.clearDisplay_eq]; simpa using hl

theorem replaceText_overflows {s : State} (text : List Byte) (hd : s.lcdDir = true) (hl : 16 < text.length) :
    replaceText text s = .refused .writePastColumn15 := by
  apply putText_overflows
  · rw [State.clearDisplay_eq]; exact hd
  · rw [State.clearDisplay_eq]; simp
  · rw [State.clearDisplay_eq]; simpa using hl

/-! Bring-up. -/

/-- What `initialize()` does to the controller. -/
def Controller.bringUp (c : Controller) : Controller :=
  let c := (c.elapse Config.tPowerOn).pulse false Config.handshakeNibble
  let c := (c.elapse Config.tInit1).pulse false Config.handshakeNibble
  let c := (c.elapse Config.tInit2).pulse false Config.handshakeNibble
  let c := (c.elapse Config.tInit3).pulse false Config.switchNibble
  let c := ((c.send false 0x28#8).send false 0x0C#8).send false Config.cmdClear
  (c.elapse Config.tClear).send false 0x06#8

/-- Everything `initialize()` does. -/
theorem State.bringUpDisplay_eq (s : State) :
    s.bringUpDisplay = { s with
      lcdDir := true
      lcdRs := false
      lcdD := 6
      lcdEn := false
      cursor := 0
      trace := s.trace ++ bringUpEvents
      controller := s.controller.bringUp } := by
  have h : loNibble 6#8 = 6 := by decide
  simp [State.bringUpDisplay, State.handshake, State.sendCommand, State.sendByte_eq, State.clearDisplay_eq,
    State.pulseNibble_eq, State.configureLines, State.wait, State.emit, State.driveSelect, bringUpEvents,
    Controller.bringUp, Config.rsCommand, Config.cmdFunction, Config.functionFlags, Config.cmdDisplay,
    Config.displayFlags, Config.cmdEntry, Config.entryFlags, h]

/-- A controller that has taken the first handshake nibble: on its way to 8-bit mode, or in a mode from which two more
nibbles lead there. -/
def Controller.Handshaking (c : Controller) : Prop :=
  c.busy ≤ Config.tInit1 ∧
    (c.bus = .unknown 1 ∨ c.bus = .unknown 2 ∨ c.bus = .eight ∨ ∃ gap, c.bus = .fourHalf false 3#4 gap)

/-- The first handshake nibble, after the power-on settle, from any controller. -/
theorem Controller.handshake_first (c : Controller) : ((c.elapse Config.tPowerOn).pulse false 3#4).Handshaking := by
  have hk : Config.handshakeNibble = 3#4 := rfl
  have hr : Config.rsCommand = false := rfl
  have hi : (c.elapse Config.tPowerOn).busy = 0 := by simp [Controller.elapse]
  cases hb : c.bus with
  | unknown k =>
    have hb' : (c.elapse Config.tPowerOn).bus = .unknown k := by simp [Bus.elapse, hb]
    rw [Controller.pulse_of_idle hi, hb']
    match k with
    | 0 | 1 | _ + 2 =>
      simp [Controller.Handshaking, Controller.receive, Controller.knock, Controller.handshake, Controller.forget,
        Controller.elapse, Bus.elapse, hk, hr, Config.tInit1, Config.tInit2, Config.tCycle, Config.tPowerOn]
  | eight =>
    rw [Controller.pulse_of_eight (by simp [Bus.elapse, hb]) hi]
    simp [Controller.Handshaking, Controller.takeWhole, Controller.elapse, Bus.elapse, Controller.handshake, hk, hr]
  | four =>
    rw [Controller.pulse_of_four (by simp [Bus.elapse, hb]) hi]
    exact ⟨hi ▸ Nat.zero_le _, .inr (.inr (.inr ⟨_, rfl⟩))⟩
  | fourHalf rsHi hiHalf gap =>
    rw [Controller.pulse_of_half (rsHi := rsHi) (hiHalf := hiHalf) (gap := gap + Config.tPowerOn)
        (by simp [Bus.elapse, hb]) hi, Controller.takeSecond, if_pos ⟨⟨rfl, rfl⟩, by
        simp [Config.tBetweenHalves, Config.tPowerOn, Config.tCycle, Config.tSetup, Config.tHold]⟩]
    split <;>
    simp [Controller.Handshaking, Controller.knock, Controller.forget, Controller.elapse, Bus.elapse, Config.tInit1,
      Config.tInit2, Config.tCycle, Config.tPowerOn]

/-- The second handshake nibble, after its wait. -/
theorem Controller.handshake_second {c : Controller} (h : c.Handshaking) :
    (((c.elapse Config.tInit1).pulse false 3#4).bus = .unknown 2 ∨ ((c.elapse Config.tInit1).pulse false 3#4).bus = .eight) ∧
      ((c.elapse Config.tInit1).pulse false 3#4).busy = 0 := by
  have hk : Config.handshakeNibble = 3#4 := rfl
  have hr : Config.rsCommand = false := rfl
  have hi : (c.elapse Config.tInit1).busy = 0 := by simp [Controller.elapse, h.1]
  rcases h.2 with hb | hb | hb | ⟨gap, hb⟩
  · rw [Controller.pulse_of_idle hi]
    simp [Controller.receive, Controller.knock, Controller.forget, Controller.elapse, Bus.elapse, h.1, hb, hk, hr,
      Config.tInit2, Config.tCycle]
  · rw [Controller.pulse_of_idle hi]
    simp [Controller.receive, Controller.knock, Controller.handshake, Controller.forget, Controller.elapse, Bus.elapse, h.1,
      hb, hk, hr]
  · rw [Controller.pulse_of_eight (by simp [Bus.elapse, hb]) hi]
    simp [Controller.takeWhole, Controller.elapse, Bus.elapse, Controller.handshake, h.1, hk, hr]
  · rw [Controller.pulse_of_half (rsHi := false) (hiHalf := 3#4) (gap := gap + Config.tInit1)
        (by simp [Bus.elapse, hb]) hi, Controller.takeSecond, if_pos ⟨⟨rfl, rfl⟩, by
        simp [Config.tBetweenHalves, Config.tInit1, Config.tCycle, Config.tSetup, Config.tHold]⟩,
      if_pos ⟨⟨rfl, rfl⟩, by omega⟩]
    simp [Controller.knock, Controller.forget, Controller.elapse, Bus.elapse, Config.tInit2, Config.tCycle]

/-- The third handshake nibble gives 8-bit mode (30_encoding.md R70). -/
theorem Controller.handshake_third {c : Controller} (hb : c.bus = .unknown 2 ∨ c.bus = .eight) (hi : c.busy = 0) (t : Nat) :
    ((c.elapse t).pulse false 3#4).bus = .eight ∧ ((c.elapse t).pulse false 3#4).busy = 0 := by
  have hk : Config.handshakeNibble = 3#4 := rfl
  have hr : Config.rsCommand = false := rfl
  rw [Controller.elapse_of_rest t (by rcases hb with hb | hb <;> simp [Bus.elapse, hb]) hi]
  rcases hb with hb | hb
  · rw [Controller.pulse_of_idle hi]
    simp [Controller.receive, Controller.knock, Controller.handshake, Controller.forget, Controller.elapse, Bus.elapse, hi,
      hb, hk, hr]
  · rw [Controller.pulse_of_eight hb hi]
    simp [Controller.takeWhole, Controller.elapse, Bus.elapse, Controller.handshake, hi, hk, hr]

/-- The switch nibble brings an 8-bit controller to 4-bit mode (30_encoding.md R70). -/
theorem Controller.handshake_switch {c : Controller} (hm : c.bus = .eight) (hb : c.busy = 0) (t : Nat) :
    ((c.elapse t).pulse false 2#4) = { c.handshake false with busy := 0 } := by
  rw [Controller.elapse_of_rest t (by rw [hm]; rfl) hb, Controller.pulse_of_eight hm hb]
  simp [Controller.takeWhole, Controller.elapse, Bus.elapse, Controller.handshake, Config.handshakeNibble, Config.switchNibble,
    Config.rsCommand, hb]

/-- The four commands that end `initialize()`, from 4-bit mode. -/
theorem Controller.configure {c : Controller} (hb : c.bus = .four) (hi : c.busy = 0) :
    ((((c.send false 0x28#8).send false 0x0C#8).send false Config.cmdClear).elapse Config.tClear).send false 0x06#8 =
      { c with
        ac := 0
        ddram := Ddram.blank
        function := 0b010#3
        display := 0b100#3
        entry := 0b10#2 } := by
  rw [Controller.send_function hb hi, Controller.send_display (by exact hb) (by exact hi),
    Controller.send_clear (by exact hb) (by exact hi), Controller.send_entry (by exact hb) (by exact hi)]

/-- From any state of the controller, `initialize()` leaves it ready, its address counter at 0 and every cell blank
(93_implementation_defined.md U6, 40_display_driver.md R95). -/
theorem Controller.bringUp_ready (c : Controller) :
    c.bringUp.Ready ∧ c.bringUp.ac = 0 ∧ c.bringUp.ddram = Ddram.blank := by
  have h1 := Controller.handshake_second c.handshake_first
  have h2 := Controller.handshake_third h1.1 h1.2 Config.tInit2
  have h3 := Controller.handshake_switch h2.1 h2.2 Config.tInit3
  have hk : Config.handshakeNibble = 3#4 := rfl
  have hs : Config.switchNibble = 2#4 := rfl
  simp only [Controller.bringUp, hk, hs, h3]
  rw [Controller.configure rfl rfl]
  exact ⟨⟨rfl, rfl, rfl, rfl, rfl, rfl⟩, rfl, rfl⟩

end Sys2Proof.Machine
end

