-- ==== Sys2Proof/Laws/Display.lean ====
section
/-! SUPPORT. What texts do to a controller that agrees with the driver: where each character lands, and that the agreement
lasts (20_memory.md R45, R50). -/

namespace Sys2Proof.Machine

theorem columnAddress_toNat {c : Nat} (h : c < 16) :
    (columnAddress c).toNat = if c < 8 then c else c + 0x38 := by
  revert h; revert c; decide

theorem columnAddress_inj {c d : Nat} (hc : c < 16) (hd : d < 16) (h : (columnAddress c).toNat = (columnAddress d).toNat) :
    c = d := by
  rw [columnAddress_toNat hc, columnAddress_toNat hd] at h
  split at h <;> split at h <;> omega

theorem columnAddress_displayed {c : Nat} (h : c < 16) : displayedAddress (columnAddress c) = true := by
  revert h; revert c; decide

/-- The address counter one cell on. -/
theorem address_succ (a : Address) (h : a.toNat < 127) : (a + 1).toNat = a.toNat + 1 := by
  rw [BitVec.toNat_add]; simp; omega

/-- A character written by a driver that agrees lands in its column's cell (20_memory.md R50). -/
theorem Controller.Agrees.putAt_eq {c : Controller} {cursor : Nat} (h : c.Agrees cursor) (ch : Byte) (hc : cursor < 16) :
    c.putAt cursor ch = { c with
      ddram := c.ddram.write (columnAddress cursor).toNat ch
      ac := columnAddress cursor + 1 } := by
  by_cases h8 : cursor = 8
  · subst h8
    have ha : (LcdWord.setAddr 0x40#7).byte = 0xC0#8 := by decide
    have e := h.ready.send_setAddr 0x40#7 (by decide)
    rw [ha] at e
    have hr : ({ c with ac := 0x40#7 } : Controller).Ready := ⟨h.ready.1, h.ready.2, h.ready.3, h.ready.4, h.ready.5, h.ready.6⟩
    have hcol : columnAddress 8 = 0x40#7 := by decide
    simp only [Controller.putAt, if_true, e, hr.send_data, hcol]
  · have hac : c.ac = columnAddress cursor := by
      apply BitVec.eq_of_toNat_eq
      rw [columnAddress_toNat hc]
      split
      · exact h.firstRow ‹_›
      · exact h.secondRow (by omega)
    simp only [Controller.putAt, h8, if_false, h.ready.send_data, hac]

theorem Controller.Ready.of_cells {c : Controller} (h : c.Ready) (m : Ddram) (a : Address) :
    ({ c with ddram := m, ac := a } : Controller).Ready := ⟨h.1, h.2, h.3, h.4, h.5, h.6⟩

/-- The agreement lasts over a character. -/
theorem Controller.Agrees.putAt {c : Controller} {cursor : Nat} (h : c.Agrees cursor) (ch : Byte) (hc : cursor < 16) :
    (c.putAt cursor ch).Agrees (cursor + 1) := by
  rw [h.putAt_eq ch hc]
  have ha := columnAddress_toNat hc
  have hlt : (columnAddress cursor).toNat < 127 := by rw [ha]; split <;> omega
  have hs := address_succ _ hlt
  refine ⟨h.ready.of_cells _ _, hc, ?_, ?_, ?_⟩
  · intro h1
    show (columnAddress cursor + 1).toNat = cursor + 1
    rw [hs, ha, if_pos (by omega)]
  · intro h1
    left
    show columnAddress cursor + 1 = 0x08#7
    have : cursor = 7 := by omega
    subst this; decide
  · intro h1
    show (columnAddress cursor + 1).toNat = cursor + 1 + 0x38
    rw [hs, ha, if_neg (by omega)]

/-- The agreement lasts over a text that fits. -/
theorem Controller.Agrees.putTextAt {c : Controller} {cursor : Nat} (h : c.Agrees cursor) (text : List Byte)
    (hc : cursor + text.length ≤ 16) : (c.putTextAt cursor text).Agrees (cursor + text.length) := by
  induction text generalizing cursor c with
  | nil => exact h
  | cons ch rest ih =>
    simp only [List.length_cons] at hc ⊢
    have := ih (h.putAt ch (by omega)) (by omega)
    rw [show cursor + (rest.length + 1) = cursor + 1 + rest.length by omega]
    exact this

/-- Each character of a text stands in its column; every other cell is as before. -/
theorem Controller.Agrees.putTextAt_read {c : Controller} {cursor : Nat} (h : c.Agrees cursor) (text : List Byte)
    (hc : cursor + text.length ≤ 16) :
    (∀ j (hj : j < text.length),
      (c.putTextAt cursor text).ddram.read (columnAddress (cursor + j)).toNat = some text[j]) ∧
    ∀ a, (∀ j, j < text.length → a ≠ (columnAddress (cursor + j)).toNat) →
      (c.putTextAt cursor text).ddram.read a = c.ddram.read a := by
  induction text generalizing cursor c with
  | nil => exact ⟨fun j hj => absurd hj (Nat.not_lt_zero j), fun _ _ => rfl⟩
  | cons ch rest ih =>
    simp only [List.length_cons] at hc
    have ⟨i1, i2⟩ := ih (h.putAt ch (by omega)) (by omega)
    have e := h.putAt_eq ch (by omega)
    refine ⟨fun j hj => ?_, fun a ha => ?_⟩
    · cases j with
      | zero =>
        simp only [Controller.putTextAt, Nat.add_zero, List.getElem_cons_zero]
        rw [i2, e]
        · exact Ddram.read_write_same _ _ _
        · intro k hk heq
          have := columnAddress_inj (by omega) (by omega) heq
          omega
      | succ j =>
        simp only [List.length_cons] at hj
        have := i1 j (by omega)
        rw [show cursor + (j + 1) = cursor + 1 + j by omega]
        simpa only [Controller.putTextAt, List.getElem_cons_succ] using this
    · simp only [Controller.putTextAt]
      rw [i2, e]
      · apply Ddram.read_write_other
        exact ha 0 (by simp)
      · intro k hk
        have := ha (k + 1) (by simpa using hk)
        rwa [show cursor + (k + 1) = cursor + 1 + k by omega] at this

/-- After a clear the driver and the controller agree on column 0, and every cell is blank. -/
theorem Controller.Ready.clear_agrees {c : Controller} (h : c.Ready) :
    ((c.send false Config.cmdClear).elapse Config.tClear).Agrees 0 ∧
      ((c.send false Config.cmdClear).elapse Config.tClear).ddram = Ddram.blank := by
  rw [Controller.send_clear h.bus h.idle]
  refine ⟨⟨h.of_cells _ _, by omega, fun _ => rfl, ?_, ?_⟩, rfl⟩ <;> omega

/-- A text that fits, written after a clear, is what the sixteen columns show, with blanks after it. -/
theorem Controller.Ready.clear_putText_shown {c : Controller} (h : c.Ready) (text : List Byte) (hl : text.length ≤ 16)
    (col : Nat) (hcol : col < 16) :
    (((c.send false Config.cmdClear).elapse Config.tClear).putTextAt 0 text).shown col =
      some (text.getD col 0x20#8) := by
  have ⟨ha, hb⟩ := h.clear_agrees
  have ⟨r1, r2⟩ := ha.putTextAt_read text (by omega)
  simp only [Controller.shown]
  by_cases hlt : col < text.length
  · have := r1 col hlt
    rw [Nat.zero_add] at this
    rw [this, List.getD_eq_getElem?_getD, List.getElem?_eq_getElem hlt]
    rfl
  · rw [r2, hb, Ddram.blank_read (by rw [columnAddress_toNat hcol]; unfold ddramSize; split <;> omega),
      List.getD_eq_getElem?_getD, List.getElem?_eq_none (by omega)]
    · rfl
    · intro j hj heq
      have := columnAddress_inj (by omega) (by omega) heq
      omega

/-- Memory stays canonical over a character and a text, whatever the controller's state. -/
theorem Controller.putAt_wf (cursor : Nat) (ch : Byte) (c : Controller) (h : c.ddram.wf = true) :
    (c.putAt cursor ch).ddram.wf = true := by
  simp only [Controller.putAt]
  apply Controller.send_wf
  split
  · exact Controller.send_wf _ _ _ h
  · exact h

theorem Controller.putTextAt_wf (cursor : Nat) (text : List Byte) (c : Controller) (h : c.ddram.wf = true) :
    (c.putTextAt cursor text).ddram.wf = true := by
  induction text generalizing cursor c with
  | nil => exact h
  | cons ch rest ih => exact ih _ _ (Controller.putAt_wf _ _ _ h)

end Sys2Proof.Machine
end

