-- ==== Sys2Proof/Laws/TimeKeeper.lean ====
section
/-! SUPPORT. One lemma per TimeKeeper operation that says everything it does. -/

namespace Sys2Proof.Machine

@[simp] theorem renderText_length (v : Seconds) (on : Bool) : (renderText v on).length = 8 := rfl

/-- The state a render leaves: its text written after a clear, everything outside the driver as before. -/
def State.rendered (s : State) : State :=
  { s with
    lcdRs := true
    lcdD := BitVec.ofNat 4 (secondsOf s.shownSeconds % 10)
    lcdEn := false
    cursor := 8
    trace := s.trace ++ renderEvents s.text
    controller := ((s.controller.send false Config.cmdClear).elapse Config.tClear).putTextAt 0 s.text }

theorem loNibble_digitChar {d : Nat} (h : d < 10) : loNibble (digitChar d) = BitVec.ofNat 4 d := by
  revert h; revert d; decide

/-- Everything `Render` does. -/
theorem renderDisplay_eq {s : State} (hd : s.lcdDir = true) : renderDisplay s = .next s.rendered := by
  rw [renderDisplay, State.withDriver_ready _ hd, replaceText_fits _ hd (by simp [State.text])]
  have hlast : s.text.getLast? = some (digitChar (secondsOf s.shownSeconds % 10)) := rfl
  have hlen : s.text.length = 8 := rfl
  simp only [State.afterText, hlast, hlen, State.clearDisplay_eq, State.rendered, renderEvents,
    loNibble_digitChar (Nat.mod_lt _ (by decide : 0 < 10)), List.append_assoc]
  rfl

theorem renderDisplay_refused {s : State} (hd : s.lcdDir = false) :
    renderDisplay s = .refused .driverBeforeInitialize := State.withDriver_refused _ hd

/-- A render runs on exactly when the lines are out. -/
theorem renderDisplay_eq_next {s t : State} (h : renderDisplay s = .next t) : s.lcdDir = true ∧ t = s.rendered := by
  cases hd : s.lcdDir with
  | true => rw [renderDisplay_eq hd] at h; cases h; exact ⟨rfl, rfl⟩
  | false => rw [renderDisplay_refused hd] at h; cases h

/-- Everything outside the driver, the lines' direction and the controller is as before a render. -/
theorem State.rendered_keeps (s : State) : KeepsOutsideDriver s s.rendered ∧ s.rendered.lcdDir = s.lcdDir :=
  ⟨⟨⟨rfl, rfl, rfl, rfl, rfl⟩, ⟨rfl, rfl, rfl⟩, ⟨rfl, rfl, rfl, rfl⟩, ⟨rfl, rfl, rfl, rfl⟩, rfl⟩, rfl⟩

/-- A render on a ready controller: the display shows the text, and driver and controller agree. -/
theorem State.rendered_shows {s : State} (hd : s.lcdDir = true) (h : s.controller.Ready) :
    s.rendered.Linked ∧ s.rendered.Shows s.text := by
  have ha := h.clear_agrees.1.putTextAt s.text (by simp [State.text])
  refine ⟨⟨hd, rfl, ?_⟩, fun c hc => h.clear_putText_shown s.text (by simp [State.text]) c hc⟩
  exact ha

/-! The register updates of the events: none of them touches the driver, the inputs or the sequencer. -/

/-- Two states that differ at most in the TimeKeeper's registers, the alarm output and the trace. -/
def TimeUpdate (s t : State) : Prop :=
  t = { s with cfg := t.cfg, cur := t.cur, sc := t.sc, mode := t.mode, alarm := t.alarm, trace := t.trace }

theorem TimeUpdate.refl (s : State) : TimeUpdate s s := rfl

theorem TimeUpdate.trans {s t u : State} (h : TimeUpdate s t) (k : TimeUpdate t u) : TimeUpdate s u := by
  unfold TimeUpdate at *; rw [k, h]

theorem TimeUpdate.ite {s t u : State} {c : Prop} [Decidable c] (h : TimeUpdate s t) (k : TimeUpdate s u) :
    TimeUpdate s (if c then t else u) := by
  split <;> assumption

theorem State.driveAlarm_update (v : Bool) (s : State) : TimeUpdate s (s.driveAlarm v) := rfl

theorem State.toggleRun_update (s : State) : TimeUpdate s s.toggleRun := by
  unfold State.toggleRun; split <;> rfl

theorem State.addTime_update (k : Seconds) (s : State) : TimeUpdate s (s.addTime k) := by
  unfold State.addTime
  split
  · rfl
  · exact .ite rfl rfl
  · exact .ite rfl rfl
  · rfl

theorem State.reinitialise_update (s : State) : TimeUpdate s s.reinitialise := rfl

theorem State.countSecond_update (s : State) : TimeUpdate s s.countSecond := by
  unfold State.countSecond
  exact .ite rfl rfl

theorem State.soundAlarm_update (m : Mode) (s : State) : TimeUpdate s (s.soundAlarm m) := by
  unfold State.soundAlarm
  exact .ite (s.driveAlarm_update _) (.refl s)

theorem State.secondTick_update (s : State) : TimeUpdate s s.secondTick := by
  refine .trans ?_ (State.soundAlarm_update _ _)
  exact .ite (.trans (t := { s with sc := s.sc + 1 }) rfl (State.countSecond_update _)) rfl

theorem TimeUpdate.lcdDir {s t : State} (h : TimeUpdate s t) : t.lcdDir = s.lcdDir := by rw [h]
theorem TimeUpdate.controller {s t : State} (h : TimeUpdate s t) : t.controller = s.controller := by rw [h]

/-- Everything the updates of Tick do, by mode. -/
theorem State.secondTick_eq (s : State) : s.secondTick =
    match s.mode with
    | .stopped => { s with sc := s.sc + 1 }
    | .paused => { s with sc := s.sc + 1 }
    | .running =>
      if s.counted = 0 then { s with cur := 0, mode := .alarm, sc := 0, alarm := true, trace := s.trace ++ [.alarm true] }
      else { s with sc := s.sc + 1, cur := s.counted }
    | .alarm => { s with
        sc := s.sc + 1
        alarm := evenSeconds (s.sc + 1)
        trace := s.trace ++ [.alarm (evenSeconds (s.sc + 1))] } := by
  cases hm : s.mode with
  | running =>
    have hc : (if s.cfg ≠ 0 then s.cur - 1 else s.cur + 1) = s.counted := rfl
    simp only [State.secondTick, hm, if_true, State.countSecond, hc]
    by_cases hz : s.counted = 0
    · simp only [hz, if_true]
      rfl
    · simp only [hz, if_false]
      simp [State.soundAlarm]
  | stopped => simp [State.secondTick, State.soundAlarm, hm]
  | paused => simp [State.secondTick, State.soundAlarm, hm]
  | alarm => simp [State.secondTick, State.soundAlarm, hm, State.driveAlarm, State.emit, Config.alarmOnTransitionTick]

/-- Everything the updates of StartButton do, by mode. -/
theorem State.toggleRun_eq (s : State) : s.toggleRun =
    match s.mode with
    | .stopped => { s with cur := s.cfg, mode := .running, sc := 0 }
    | .paused => { s with mode := .running, sc := 0 }
    | .running => { s with mode := .paused, sc := 0 }
    | .alarm => { s with mode := .stopped, sc := 0, alarm := false, trace := s.trace ++ [.alarm false] } := by
  unfold State.toggleRun
  split <;> simp_all [State.driveAlarm, State.emit]

/-- Everything the updates of ResetGesture do. -/
theorem State.reinitialise_eq (s : State) : s.reinitialise =
    { s with mode := .stopped, cfg := 0, cur := 0, sc := 0, alarm := false, trace := s.trace ++ [.alarm false] } := rfl

end Sys2Proof.Machine
end

