-- ==== Sys2Proof/Laws/Dispatcher.lean ====
section
/-! SUPPORT. One lemma per part of the handler that says everything it does. -/

namespace Sys2Proof.Machine

/-- The state after the settle wait and the two clears of the combo path. -/
def State.settled (s : State) : State :=
  { s with
    efSec := false
    efMin := false
    trace := s.trace ++ [.wait Config.tComboSettle, .clrf .sec, .clrf .min]
    controller := s.controller.elapse Config.tComboSettle }

theorem State.settled_eq (s : State) :
    ((s.wait Config.tComboSettle).clearFlag .sec).clearFlag .min = s.settled := by
  simp [State.settled, State.wait, State.clearFlag, State.emit, State.setFlag]

theorem serveCombo_eq (s : State) : serveCombo s = renderDisplay s.settled.reinitialise := by
  rw [← State.settled_eq]; rfl

/-- The state after a button's debounce wait and the clear of its flag. -/
def State.debounced (b : Button) (s : State) : State :=
  { s with
    efStart := s.efStart && decide (b ≠ .start)
    efSec := s.efSec && decide (b ≠ .sec)
    efMin := s.efMin && decide (b ≠ .min)
    trace := s.trace ++ [.wait Config.tDebounce, .clrf b]
    controller := s.controller.elapse Config.tDebounce }

theorem State.debounced_eq (b : Button) (s : State) : (s.wait Config.tDebounce).clearFlag b = s.debounced b := by
  cases b <;> simp [State.debounced, State.wait, State.clearFlag, State.emit, State.setFlag]

theorem serveButton_eq (b : Button) (event : State → Result) (s : State) :
    serveButton b event s = andThen (event s) fun u => .next (u.debounced b) := by
  simp only [serveButton, State.debounced_eq]

/-- A served button whose event runs on. -/
theorem serveButton_eq_next {b : Button} {event : State → Result} {s t : State} (h : serveButton b event s = .next t) :
    ∃ u, event s = .next u ∧ t = u.debounced b := by
  rw [serveButton_eq] at h
  obtain ⟨u, h1, h2⟩ := andThen_eq_next h
  cases h2
  exact ⟨u, h1, rfl⟩

/-- The branch of a row as a render of the row's updates, then what follows it. -/
def State.rowUpdate (row : DispatchRow) (s : State) : State :=
  match row with
  | .reset => s.settled.reinitialise
  | .start => s.toggleRun
  | .sec => s.addTime 1
  | .min => s.addTime 60
  | .idle => s

/-- What follows the render in a row's branch. -/
def State.rowEnd (row : DispatchRow) (s : State) : State :=
  match row with
  | .reset => s
  | .start => s.debounced .start
  | .sec => s.debounced .sec
  | .min => s.debounced .min
  | .idle => s

theorem State.rowUpdate_lcdDir (row : DispatchRow) (s : State) : (s.rowUpdate row).lcdDir = s.lcdDir := by
  cases row with
  | reset => rfl
  | start => exact (s.toggleRun_update).lcdDir
  | sec => exact (s.addTime_update _).lcdDir
  | min => exact (s.addTime_update _).lcdDir
  | idle => rfl

/-- Everything a row's branch does when the lines are out. -/
theorem serveRow_eq {s : State} (row : DispatchRow) (hd : s.lcdDir = true) :
    serveRow row s = .next (if row = .idle then s else ((s.rowUpdate row).rendered).rowEnd row) := by
  have hu := (s.rowUpdate_lcdDir row).trans hd
  cases row with
  | reset => exact (serveCombo_eq s).trans (renderDisplay_eq hu)
  | start => exact (serveButton_eq _ _ s).trans (by rw [execStartButton, show s.toggleRun = s.rowUpdate .start from rfl, renderDisplay_eq hu]; rfl)
  | sec => exact (serveButton_eq _ _ s).trans (by rw [execSecButton, show s.addTime 1 = s.rowUpdate .sec from rfl, renderDisplay_eq hu]; rfl)
  | min => exact (serveButton_eq _ _ s).trans (by rw [execMinButton, show s.addTime 60 = s.rowUpdate .min from rfl, renderDisplay_eq hu]; rfl)
  | idle => rfl

/-- Without the lines every branch but the idle one is refused. -/
theorem serveRow_refused {s : State} {row : DispatchRow} (hd : s.lcdDir = false) (hr : row ≠ .idle) :
    serveRow row s = .refused .driverBeforeInitialize := by
  have hu := (s.rowUpdate_lcdDir row).trans hd
  cases row with
  | reset => exact (serveCombo_eq s).trans (renderDisplay_refused hu)
  | start => exact (serveButton_eq _ _ s).trans (by rw [execStartButton, show s.toggleRun = s.rowUpdate .start from rfl, renderDisplay_refused hu]; rfl)
  | sec => exact (serveButton_eq _ _ s).trans (by rw [execSecButton, show s.addTime 1 = s.rowUpdate .sec from rfl, renderDisplay_refused hu]; rfl)
  | min => exact (serveButton_eq _ _ s).trans (by rw [execMinButton, show s.addTime 60 = s.rowUpdate .min from rfl, renderDisplay_refused hu]; rfl)
  | idle => exact absurd rfl hr

/-- A branch that runs on is the idle one, or the lines are out. -/
theorem serveRow_eq_next {s t : State} {row : DispatchRow} (h : serveRow row s = .next t) :
    (row = .idle ∧ t = s) ∨ (row ≠ .idle ∧ s.lcdDir = true ∧ t = ((s.rowUpdate row).rendered).rowEnd row) := by
  by_cases hr : row = .idle
  · subst hr; cases h; exact .inl ⟨rfl, rfl⟩
  · right
    cases hd : s.lcdDir with
    | true => rw [serveRow_eq row hd, if_neg hr] at h; cases h; exact ⟨hr, rfl, rfl⟩
    | false => rw [serveRow_refused hd hr] at h; cases h

/-- The state after tick scaling: the counter, and on the 25th invocation the second tick with its render. -/
def State.scaled (s : State) : State :=
  if s.tc + 1 = Config.tickThreshold then { s with tc := 0 }.secondTick.rendered else { s with tc := s.tc + 1 }

theorem State.secondTick_lcdDir (s : State) : s.secondTick.lcdDir = s.lcdDir := s.secondTick_update.lcdDir

theorem scaleTick_eq {s : State} (hd : s.lcdDir = true) : scaleTick s = .next s.scaled := by
  unfold scaleTick State.scaled
  dsimp only
  split
  · exact renderDisplay_eq ((State.secondTick_lcdDir _).trans hd)
  · rfl

/-- Tick scaling that runs on. -/
theorem scaleTick_eq_next {s t : State} (h : scaleTick s = .next t) :
    t = s.scaled ∧ (s.tc + 1 = Config.tickThreshold → s.lcdDir = true) := by
  unfold scaleTick at h
  unfold State.scaled
  dsimp only at h
  split at h
  · obtain ⟨h1, rfl⟩ := renderDisplay_eq_next h
    rw [State.secondTick_lcdDir] at h1
    exact ⟨by rw [if_pos ‹_›], fun _ => h1⟩
  · cases h
    rename_i hne
    exact ⟨by rw [if_neg hne], fun h => absurd h hne⟩

/-- Tick scaling leaves the dispatch vector and the lines' direction. -/
theorem State.scaled_keeps (s : State) : s.scaled.dispatchVector = s.dispatchVector ∧ s.scaled.lcdDir = s.lcdDir := by
  unfold State.scaled
  split
  · have h := State.secondTick_update { s with tc := 0 }
    constructor
    · show dispatchVectorOf _ _ _ _ _ = _
      have e1 : ({ s with tc := 0 } : State).secondTick.rendered.lvlSec = s.lvlSec := (congrArg State.lvlSec h :)
      have e2 : ({ s with tc := 0 } : State).secondTick.rendered.lvlMin = s.lvlMin := (congrArg State.lvlMin h :)
      have e3 : ({ s with tc := 0 } : State).secondTick.rendered.efStart = s.efStart := (congrArg State.efStart h :)
      have e4 : ({ s with tc := 0 } : State).secondTick.rendered.efSec = s.efSec := (congrArg State.efSec h :)
      have e5 : ({ s with tc := 0 } : State).secondTick.rendered.efMin = s.efMin := (congrArg State.efMin h :)
      rw [e1, e2, e3, e4, e5]; rfl
    · exact h.lcdDir
  · exact ⟨rfl, rfl⟩

/-- Everything an invocation does when the lines are out. -/
theorem invokeHandler_eq {s : State} (hd : s.lcdDir = true) :
    invokeHandler s = .next (if dispatchRow s.dispatchVector = .idle then s.enterHandler.scaled
      else ((s.enterHandler.scaled.rowUpdate (dispatchRow s.dispatchVector)).rendered).rowEnd
        (dispatchRow s.dispatchVector)).leaveHandler := by
  have hk := s.enterHandler.scaled_keeps
  have hv : s.enterHandler.scaled.dispatchVector = s.dispatchVector := hk.1
  rw [invokeHandler, scaleTick_eq (s := s.enterHandler) hd, andThen_next, dispatch, hv, serveRow_eq _ (hk.2.trans hd),
    andThen_next]

/-- An invocation that runs on. -/
theorem invokeHandler_eq_next {s t : State} (h : invokeHandler s = .next t) :
    (s.tc + 1 = Config.tickThreshold → s.lcdDir = true) ∧
    ((dispatchRow s.dispatchVector = .idle ∧ t = s.enterHandler.scaled.leaveHandler) ∨
     (dispatchRow s.dispatchVector ≠ .idle ∧ s.lcdDir = true ∧
      t = (((s.enterHandler.scaled.rowUpdate (dispatchRow s.dispatchVector)).rendered).rowEnd
        (dispatchRow s.dispatchVector)).leaveHandler)) := by
  obtain ⟨u, h1, h2⟩ := andThen_eq_next h
  cases h2
  obtain ⟨v, h3, h4⟩ := andThen_eq_next h1
  obtain ⟨rfl, h5⟩ := scaleTick_eq_next h3
  have hk := s.enterHandler.scaled_keeps
  have hv : s.enterHandler.scaled.dispatchVector = s.dispatchVector := hk.1
  rw [dispatch, hv] at h4
  refine ⟨h5, ?_⟩
  rcases serveRow_eq_next h4 with ⟨h6, rfl⟩ | ⟨h6, h7, rfl⟩
  · exact .inl ⟨h6, rfl⟩
  · exact .inr ⟨h6, hk.2.symm.trans h7, rfl⟩

/-- The handler runs on only when enabled, from the foreground. -/
theorem execHandler_eq_next {s t : State} (h : execHandler s = .next t) :
    s.irqEnabled = true ∧ s.ctx = .foreground ∧ invokeHandler s = .next t := by
  unfold execHandler at h
  split at h
  · cases h
  · split at h
    · cases h
    · rename_i h1 h2
      refine ⟨by simpa using h1, ?_, h⟩
      cases hc : s.ctx with
      | foreground => rfl
      | inHandler => exact absurd hc h2

theorem execHandler_ready {s : State} (hi : s.irqEnabled = true) (hc : s.ctx = .foreground) :
    execHandler s = invokeHandler s := by
  simp [execHandler, hi, hc]

end Sys2Proof.Machine
end

