-- ==== Sys2Proof/Laws/Durations.lean ====
section
/-! SUPPORT. The least time the pin sequences take (70_reset_and_hazards.md R190, R198). -/

namespace Sys2Proof.Machine

theorem duration_append (a b : List Event) : duration (a ++ b) = duration a + duration b := by
  induction a with
  | nil => simp [duration]
  | cons e r ih => cases e <;> simp [duration, ih]; omega

theorem duration_nibble (n : Nibble) : duration (nibbleEvents n) = 102 := rfl

theorem duration_byte (rs : Bool) (b : Byte) : duration (byteEvents rs b) = 204 := rfl

theorem duration_char (cursor : Nat) (ch : Byte) : duration (charEvents cursor ch) = if cursor = 8 then 408 else 204 := by
  simp only [charEvents, Config.rowCutoff, duration_append, duration_byte]
  by_cases h : cursor = 8 <;> simp only [h, if_true, if_false] <;> rfl

/-- A text that stays in the first row. -/
theorem duration_text (cursor : Nat) (text : List Byte) (h : cursor + text.length ≤ 8) :
    duration (textEvents cursor text) = 204 * text.length := by
  induction text generalizing cursor with
  | nil => rfl
  | cons ch rest ih =>
    simp only [List.length_cons] at h ⊢
    simp only [textEvents, duration_append, duration_char]
    rw [ih _ (by omega), if_neg (by omega)]
    omega

theorem duration_render (s : State) : duration (renderEvents s.text) = 3836 := by
  have hl : s.text.length = 8 := rfl
  simp only [renderEvents, duration_append, clearEvents, duration_byte, duration_text 0 s.text (Nat.le_of_eq rfl), hl,
    duration, Config.tClear]

/-- Appended events take a given time at least. -/
def Takes (s t : State) (n : Nat) : Prop := ∃ events, t.trace = s.trace ++ events ∧ duration events = n

theorem Takes.of_same {s t : State} (h : t.trace = s.trace) : Takes s t 0 := ⟨[], by simp [h], rfl⟩

theorem Takes.trans {s t u : State} {m n : Nat} (h : Takes s t m) (k : Takes t u n) : Takes s u (m + n) := by
  obtain ⟨es, h1, h2⟩ := h
  obtain ⟨fs, k1, k2⟩ := k
  exact ⟨es ++ fs, by rw [k1, h1, List.append_assoc], by rw [duration_append, h2, k2]⟩

/-- The time is that of whatever events were appended. -/
theorem Takes.duration {s t : State} {n : Nat} {events : List Event} (h : Takes s t n)
    (ht : t.trace = s.trace ++ events) : duration events = n := by
  obtain ⟨es, h1, h2⟩ := h
  rw [ht] at h1
  rw [List.append_cancel_left h1, h2]

theorem State.rendered_takes (s : State) : Takes s s.rendered 3836 := ⟨_, rfl, duration_render s⟩

theorem State.addTime_takes (k : Seconds) (s : State) : Takes s (s.addTime k) 0 := by
  apply Takes.of_same
  unfold State.addTime
  repeat' split
  all_goals rfl

theorem State.secondTick_takes (s : State) : Takes s s.secondTick 0 := by
  rw [State.secondTick_eq]
  repeat' split
  all_goals first | exact ⟨_, rfl, rfl⟩ | exact .of_same rfl

theorem State.rowUpdate_takes (row : DispatchRow) (s : State) :
    Takes s (s.rowUpdate row) (if row = .reset then 50000 else 0) := by
  cases row with
  | reset =>
    exact ⟨[.wait Config.tComboSettle, .clrf .sec, .clrf .min, .alarm false],
      by simp [State.rowUpdate, State.reinitialise_eq, State.settled], rfl⟩
  | start =>
    simp only [State.rowUpdate, State.toggleRun_eq]
    split
    · exact .of_same rfl
    · exact .of_same rfl
    · exact .of_same rfl
    · exact ⟨_, rfl, rfl⟩
  | sec => exact s.addTime_takes 1
  | min => exact s.addTime_takes 60
  | idle => exact .of_same rfl

theorem State.rowEnd_takes (row : DispatchRow) (s : State) :
    Takes s (s.rowEnd row) (if row = .reset ∨ row = .idle then 0 else 150000) := by
  cases row with
  | reset => exact .of_same rfl
  | idle => exact .of_same rfl
  | start => exact ⟨_, rfl, rfl⟩
  | sec => exact ⟨_, rfl, rfl⟩
  | min => exact ⟨_, rfl, rfl⟩

theorem State.scaled_takes (s : State) : Takes s s.scaled (if s.tc + 1 = 25 then 3836 else 0) := by
  unfold State.scaled
  split
  · rename_i h
    rw [if_pos (show s.tc + 1 = 25 from h)]
    have h0 : Takes s { s with tc := 0 } 0 := .of_same rfl
    exact (h0.trans (State.secondTick_takes _)).trans (State.rendered_takes _)
  · rename_i h
    rw [if_neg (show ¬ s.tc + 1 = 25 from h)]
    exact .of_same rfl

end Sys2Proof.Machine
end

