-- ==== Sys2Proof/Laws/Runs.lean ====
section
/-! SUPPORT. What every instruction that runs on leaves alone or keeps, said once: the trace only grows and meets the wire
contract, enable rests low, the character memory stays canonical, the lines stay outputs, the cursor stays in range, and
the environment's and the boot's fields are as before. -/

namespace Sys2Proof.Machine

theorem wireContract_nil : wireContract [] := fun _ h1 h2 h3 => ⟨h3, h1, h2⟩

theorem wireContract_append {a b : List Event} (ha : wireContract a) (hb : wireContract b) : wireContract (a ++ b) := by
  intro p h1 h2 h3
  obtain ⟨g1, g2, g3⟩ := ha p h1 h2 h3
  rw [List.foldl_append]
  exact hb _ g2 g3 g1

theorem wireContract_wait (t : Nat) : wireContract [.wait t] := fun p h1 h2 h3 =>
  ⟨h3, h1, Nat.le_trans h2 (Nat.le_add_right p.low t)⟩

theorem wireContract_alarm (v : Bool) : wireContract [.alarm v] := fun _ h1 h2 h3 => ⟨h3, h1, h2⟩

theorem wireContract_clrf (b : Button) : wireContract [.clrf b] := fun _ h1 h2 h3 => ⟨h3, h1, h2⟩

theorem wireContract_rs (v : Bool) : wireContract [.rs v] := by
  intro p h1 h2 h3
  simp [Pins.see, h1, h2, h3]

theorem wireContract_dirOut : wireContract [.dirOut] := by
  intro p h1 h2 h3
  simp [Pins.see, h1, h2, h3]

theorem wireContract_nibble (n : Nibble) : wireContract (nibbleEvents n) := by
  intro p h1 h2 h3
  simp [nibbleEvents, Pins.see, h1, h2, h3, Config.tSetup, Config.tHold, Config.tCycle]
  omega

theorem wireContract_byte (rs : Bool) (b : Byte) : wireContract (byteEvents rs b) :=
  wireContract_append (wireContract_append (wireContract_rs rs) (wireContract_nibble _)) (wireContract_nibble _)

theorem wireContract_clear : wireContract clearEvents :=
  wireContract_append (wireContract_byte _ _) (wireContract_wait _)

theorem wireContract_char (cursor : Nat) (ch : Byte) : wireContract (charEvents cursor ch) := by
  refine wireContract_append ?_ (wireContract_byte _ _)
  split
  · exact wireContract_byte _ _
  · exact wireContract_nil

theorem wireContract_text (cursor : Nat) (text : List Byte) : wireContract (textEvents cursor text) := by
  induction text generalizing cursor with
  | nil => exact wireContract_nil
  | cons ch rest ih => exact wireContract_append (wireContract_char _ _) (ih _)

theorem wireContract_render (text : List Byte) : wireContract (renderEvents text) :=
  wireContract_append wireContract_clear (wireContract_text _ _)

theorem wireContract_bringUp : wireContract bringUpEvents := by
  unfold bringUpEvents
  have h1 : wireContract [.dirOut, .wait Config.tPowerOn, .rs Config.rsCommand] :=
    wireContract_append wireContract_dirOut (wireContract_append (wireContract_wait _) (wireContract_rs _))
  have hn (n : Nibble) (t : Nat) : wireContract (nibbleEvents n ++ [.wait t]) :=
    wireContract_append (wireContract_nibble _) (wireContract_wait _)
  exact wireContract_append (wireContract_append (wireContract_append (wireContract_append (wireContract_append
    (wireContract_append (wireContract_append (wireContract_append h1 (hn _ _)) (hn _ _)) (hn _ _))
    (wireContract_nibble _)) (wireContract_byte _ _)) (wireContract_byte _ _)) wireContract_clear) (wireContract_byte _ _)

/-- What every instruction that runs on from `s` to `t` keeps. -/
structure Runs (s t : State) : Prop where
  events : ∃ es, t.trace = s.trace ++ es ∧ wireContract es
  enable : s.lcdEn = false → t.lcdEn = false
  memory : s.controller.ddram.wf = true → t.controller.ddram.wf = true
  lines : s.lcdDir = true → t.lcdDir = true
  cursor : s.cursor.toNat ≤ 16 → t.cursor.toNat ≤ 16
  environment : KeepsEnvironment s t
  interrupt : t.irqEnabled = s.irqEnabled
  boot : t.boot = s.boot

theorem Runs.refl (s : State) : Runs s s :=
  ⟨⟨[], (List.append_nil _).symm, wireContract_nil⟩, id, id, id, id, ⟨rfl, rfl, rfl, rfl⟩, rfl, rfl⟩

theorem Runs.trans {s t u : State} (h : Runs s t) (k : Runs t u) : Runs s u := by
  obtain ⟨es, h1, h2⟩ := h.events
  obtain ⟨fs, k1, k2⟩ := k.events
  obtain ⟨a1, a2, a3, a4⟩ := h.environment
  obtain ⟨b1, b2, b3, b4⟩ := k.environment
  exact ⟨⟨es ++ fs, by rw [k1, h1, List.append_assoc], wireContract_append h2 k2⟩, fun e => k.enable (h.enable e),
    fun e => k.memory (h.memory e), fun e => k.lines (h.lines e), fun e => k.cursor (h.cursor e),
    ⟨b1.trans a1, b2.trans a2, b3.trans a3, b4.trans a4⟩, k.interrupt.trans h.interrupt, k.boot.trans h.boot⟩

theorem State.pulseNibble_runs (n : Nibble) (s : State) : Runs s (s.pulseNibble n) := by
  rw [State.pulseNibble_eq]
  exact ⟨⟨_, rfl, wireContract_nibble n⟩, fun _ => rfl, Controller.pulse_wf _ _ _, id, id, ⟨rfl, rfl, rfl, rfl⟩, rfl, rfl⟩

theorem State.driveSelect_runs (v : Bool) (s : State) : Runs s (s.driveSelect v) :=
  ⟨⟨_, rfl, wireContract_rs v⟩, id, id, id, id, ⟨rfl, rfl, rfl, rfl⟩, rfl, rfl⟩

theorem State.sendByte_runs (rs : Bool) (b : Byte) (s : State) : Runs s (s.sendByte rs b) := by
  rw [State.sendByte_eq]
  exact ⟨⟨_, rfl, wireContract_byte rs b⟩, fun _ => rfl, Controller.send_wf _ _ _, id, id, ⟨rfl, rfl, rfl, rfl⟩, rfl, rfl⟩

theorem State.moveCursor_runs (col : Byte) (s : State) : Runs s (s.moveCursor col) := by
  rw [State.moveCursor_eq]
  refine ⟨⟨_, rfl, wireContract_byte _ _⟩, fun _ => rfl, Controller.send_wf _ _ _, id, fun _ => ?_,
    ⟨rfl, rfl, rfl, rfl⟩, rfl, rfl⟩
  show (BitVec.ofNat 8 (clampColumn col)).toNat ≤ 16
  revert col
  decide

theorem Controller.sendWait_wf (rs : Bool) (b : Byte) (t : Nat) (c : Controller) (h : c.ddram.wf = true) :
    ((c.send rs b).elapse t).ddram.wf = true := by
  rw [(Controller.elapse_fields t (c.send rs b)).2.2.2.1]
  exact Controller.send_wf rs b c h

theorem State.clearDisplay_runs (s : State) : Runs s s.clearDisplay := by
  rw [State.clearDisplay_eq]
  exact ⟨⟨_, rfl, wireContract_clear⟩, fun _ => rfl, Controller.sendWait_wf _ _ _ _, id, fun _ => Nat.zero_le _,
    ⟨rfl, rfl, rfl, rfl⟩, rfl, rfl⟩

theorem State.homeDisplay_runs (s : State) : Runs s s.homeDisplay := by
  rw [State.homeDisplay_eq]
  exact ⟨⟨_, rfl, wireContract_append (wireContract_byte _ _) (wireContract_wait _)⟩, fun _ => rfl,
    Controller.sendWait_wf _ _ _ _, id, fun _ => Nat.zero_le _, ⟨rfl, rfl, rfl, rfl⟩, rfl, rfl⟩

theorem Controller.bringUp_wf (c : Controller) : c.bringUp.ddram.wf = true := by
  rw [c.bringUp_ready.2.2]
  exact Ddram.blank_wf

theorem State.bringUpDisplay_runs (s : State) : Runs s s.bringUpDisplay := by
  rw [State.bringUpDisplay_eq]
  exact ⟨⟨_, rfl, wireContract_bringUp⟩, fun _ => rfl, fun _ => Controller.bringUp_wf _, fun _ => rfl,
    fun _ => Nat.zero_le _, ⟨rfl, rfl, rfl, rfl⟩, rfl, rfl⟩

theorem putChar_eq_next {s t : State} {ch : Byte} (h : putChar ch s = .next t) :
    s.lcdDir = true ∧ s.cursor.toNat < 16 ∧ t = s.placeChar ch := by
  unfold putChar State.withCursor at h
  split at h
  · dsimp only at h
    split at h
    · cases h
    · cases h
      rename_i hd hc
      exact ⟨hd, Nat.lt_of_not_le hc, rfl⟩
  · cases h

theorem putChar_runs {s t : State} {ch : Byte} (h : putChar ch s = .next t) : Runs s t := by
  obtain ⟨hd, hc, rfl⟩ := putChar_eq_next h
  rw [State.placeChar_eq]
  refine ⟨⟨_, rfl, wireContract_char _ _⟩, fun _ => rfl, Controller.putAt_wf _ _ _, id, fun _ => ?_,
    ⟨rfl, rfl, rfl, rfl⟩, rfl, rfl⟩
  show (BitVec.ofNat 8 (s.cursor.toNat + 1)).toNat ≤ 16
  simp
  omega

theorem putText_runs {s t : State} {text : List Byte} (h : putText text s = .next t) : Runs s t := by
  induction text generalizing s with
  | nil => cases h; exact Runs.refl _
  | cons ch rest ih =>
    obtain ⟨u, h1, h2⟩ := andThen_eq_next h
    exact (putChar_runs h1).trans (ih h2)

theorem replaceText_runs {s t : State} {text : List Byte} (h : replaceText text s = .next t) : Runs s t :=
  s.clearDisplay_runs.trans (putText_runs h)

theorem State.rendered_runs (s : State) : Runs s s.rendered :=
  ⟨⟨_, rfl, wireContract_render _⟩, fun _ => rfl,
    fun h => Controller.putTextAt_wf _ _ _ (Controller.sendWait_wf _ _ _ _ h), id, fun _ => (by decide : (8 : Nat) ≤ 16),
    ⟨rfl, rfl, rfl, rfl⟩, rfl, rfl⟩

theorem State.toggleRun_runs (s : State) : Runs s s.toggleRun := by
  rw [State.toggleRun_eq]
  split
  · exact ⟨(Runs.refl s).events, id, id, id, id, ⟨rfl, rfl, rfl, rfl⟩, rfl, rfl⟩
  · exact ⟨(Runs.refl s).events, id, id, id, id, ⟨rfl, rfl, rfl, rfl⟩, rfl, rfl⟩
  · exact ⟨(Runs.refl s).events, id, id, id, id, ⟨rfl, rfl, rfl, rfl⟩, rfl, rfl⟩
  · exact ⟨⟨_, rfl, wireContract_alarm _⟩, id, id, id, id, ⟨rfl, rfl, rfl, rfl⟩, rfl, rfl⟩

theorem State.addTime_runs (k : Seconds) (s : State) : Runs s (s.addTime k) := by
  unfold State.addTime
  repeat' split
  all_goals exact ⟨(Runs.refl s).events, id, id, id, id, ⟨rfl, rfl, rfl, rfl⟩, rfl, rfl⟩

theorem State.reinitialise_runs (s : State) : Runs s s.reinitialise :=
  ⟨⟨_, rfl, wireContract_alarm _⟩, id, id, id, id, ⟨rfl, rfl, rfl, rfl⟩, rfl, rfl⟩

theorem State.secondTick_runs (s : State) : Runs s s.secondTick := by
  rw [State.secondTick_eq]
  repeat' split
  all_goals first
    | exact ⟨⟨_, rfl, wireContract_alarm _⟩, id, id, id, id, ⟨rfl, rfl, rfl, rfl⟩, rfl, rfl⟩
    | exact ⟨(Runs.refl s).events, id, id, id, id, ⟨rfl, rfl, rfl, rfl⟩, rfl, rfl⟩

theorem State.settled_runs (s : State) : Runs s s.settled :=
  ⟨⟨_, rfl, wireContract_append (wireContract_wait _) (wireContract_append (wireContract_clrf _) (wireContract_clrf _))⟩,
    id, id, id, id, ⟨rfl, rfl, rfl, rfl⟩, rfl, rfl⟩

theorem State.debounced_runs (b : Button) (s : State) : Runs s (s.debounced b) :=
  ⟨⟨_, rfl, wireContract_append (wireContract_wait _) (wireContract_clrf _)⟩,
    id, id, id, id, ⟨rfl, rfl, rfl, rfl⟩, rfl, rfl⟩

theorem renderDisplay_runs {s t : State} (h : renderDisplay s = .next t) : Runs s t := by
  obtain ⟨_, rfl⟩ := renderDisplay_eq_next h
  exact s.rendered_runs

theorem State.rowUpdate_runs (row : DispatchRow) (s : State) : Runs s (s.rowUpdate row) := by
  cases row with
  | reset => exact s.settled_runs.trans (State.reinitialise_runs _)
  | start => exact s.toggleRun_runs
  | sec => exact s.addTime_runs _
  | min => exact s.addTime_runs _
  | idle => exact Runs.refl s

theorem State.rowEnd_runs (row : DispatchRow) (s : State) : Runs s (s.rowEnd row) := by
  cases row with
  | reset => exact Runs.refl s
  | start => exact s.debounced_runs _
  | sec => exact s.debounced_runs _
  | min => exact s.debounced_runs _
  | idle => exact Runs.refl s

theorem serveRow_runs {s t : State} {row : DispatchRow} (h : serveRow row s = .next t) : Runs s t := by
  rcases serveRow_eq_next h with ⟨_, rfl⟩ | ⟨_, _, rfl⟩
  · exact Runs.refl t
  · exact (s.rowUpdate_runs row).trans ((State.rendered_runs _).trans (State.rowEnd_runs row _))

theorem State.scaled_runs (s : State) : Runs s s.scaled := by
  unfold State.scaled
  split
  · have h0 : Runs s { s with tc := 0 } :=
      ⟨(Runs.refl s).events, id, id, id, id, ⟨rfl, rfl, rfl, rfl⟩, rfl, rfl⟩
    exact h0.trans ((State.secondTick_runs _).trans (State.rendered_runs _))
  · exact ⟨(Runs.refl s).events, id, id, id, id, ⟨rfl, rfl, rfl, rfl⟩, rfl, rfl⟩

theorem execHandler_runs {s t : State} (h : execHandler s = .next t) : Runs s t := by
  obtain ⟨_, h2⟩ := invokeHandler_eq_next (execHandler_eq_next h).2.2
  have h0 : Runs s s.enterHandler := ⟨(Runs.refl s).events, id, id, id, id, ⟨rfl, rfl, rfl, rfl⟩, rfl, rfl⟩
  have hl (u : State) : Runs u u.leaveHandler := ⟨(Runs.refl u).events, id, id, id, id, ⟨rfl, rfl, rfl, rfl⟩, rfl, rfl⟩
  have hs := h0.trans s.enterHandler.scaled_runs
  rcases h2 with ⟨_, rfl⟩ | ⟨_, _, rfl⟩
  · exact hs.trans (hl _)
  · exact hs.trans ((State.rowUpdate_runs _ _).trans ((State.rendered_runs _).trans ((State.rowEnd_runs _ _).trans (hl _))))

/-- A driver operation that runs on. -/
theorem withDriver_runs {s t : State} {f : State → Result} (h : s.withDriver f = .next t)
    (hf : ∀ u, f s = .next u → Runs s u) : Runs s t := hf t (State.withDriver_eq_next h).2

/-- Every instruction that runs on. -/
theorem exec_runs {i : Instr} {s t : State} (h : exec i s = .next t) : Runs s t := by
  cases i with
  | initializeDisplay =>
    simp only [exec, execInitializeDisplay, Host.Outcome.next.injEq] at h
    rw [← h]
    exact s.bringUpDisplay_runs
  | setCursor col =>
    simp only [exec, execSetCursor] at h
    exact withDriver_runs h fun u e => by cases e; exact s.moveCursor_runs col
  | clear =>
    simp only [exec, execClear] at h
    exact withDriver_runs h fun u e => by cases e; exact s.clearDisplay_runs
  | home =>
    simp only [exec, execHome] at h
    exact withDriver_runs h fun u e => by cases e; exact s.homeDisplay_runs
  | setText text =>
    simp only [exec, execSetText] at h
    exact withDriver_runs h fun u e => replaceText_runs e
  | addText text =>
    simp only [exec, execAddText] at h
    exact withDriver_runs h fun u e => putText_runs e
  | writeChar ch =>
    simp only [exec, execWriteChar] at h
    exact withDriver_runs h fun u e => putChar_runs e
  | hsNib3 =>
    simp only [exec, execHsNib3] at h
    exact withDriver_runs h fun u e => by cases e; exact (s.driveSelect_runs _).trans (State.pulseNibble_runs _ _)
  | hsNib2 =>
    simp only [exec, execHsNib2] at h
    exact withDriver_runs h fun u e => by cases e; exact (s.driveSelect_runs _).trans (State.pulseNibble_runs _ _)
  | nib n =>
    simp only [exec, execNib] at h
    exact withDriver_runs h fun u e => by cases e; exact s.pulseNibble_runs n
  | writeNibble n =>
    simp only [exec, execWriteNibble] at h
    exact withDriver_runs h fun u e => by cases e; exact s.pulseNibble_runs n
  | writeByte rs b =>
    simp only [exec, execWriteByte] at h
    exact withDriver_runs h fun u e => by cases e; exact s.sendByte_runs _ _
  | command b =>
    simp only [exec, execCommand] at h
    exact withDriver_runs h fun u e => by cases e; exact s.sendByte_runs _ _
  | data b =>
    simp only [exec, execData] at h
    exact withDriver_runs h fun u e => by cases e; exact s.sendByte_runs _ _
  | lcdClear =>
    simp only [exec, execLcdClear] at h
    exact withDriver_runs h fun u e => by cases e; exact s.sendByte_runs _ _
  | lcdHome =>
    simp only [exec, execLcdHome] at h
    exact withDriver_runs h fun u e => by cases e; exact s.sendByte_runs _ _
  | lcdEntry i sh =>
    simp only [exec, execLcdEntry] at h
    exact withDriver_runs h fun u e => by cases e; exact s.sendByte_runs _ _
  | lcdDisplay d c b =>
    simp only [exec, execLcdDisplay] at h
    exact withDriver_runs h fun u e => by cases e; exact s.sendByte_runs _ _
  | lcdFunction l n f x =>
    simp only [exec, execLcdFunction] at h
    exact withDriver_runs h fun u e => by cases e; exact s.sendByte_runs _ _
  | lcdSetAddr a =>
    simp only [exec, execLcdSetAddr] at h
    exact withDriver_runs h fun u e => by cases e; exact s.sendByte_runs _ _
  | lcdData ch =>
    simp only [exec, execLcdData] at h
    exact withDriver_runs h fun u e => by cases e; exact s.sendByte_runs _ _
  | startButton => exact s.toggleRun_runs.trans (renderDisplay_runs h)
  | secButton => exact (s.addTime_runs _).trans (renderDisplay_runs h)
  | minButton => exact (s.addTime_runs _).trans (renderDisplay_runs h)
  | resetGesture => exact s.reinitialise_runs.trans (renderDisplay_runs h)
  | tick => exact s.secondTick_runs.trans (renderDisplay_runs h)
  | render => exact renderDisplay_runs h
  | handler => exact execHandler_runs h
  | dspReset _ _ _ => exact serveRow_runs (row := .reset) h
  | dspStart _ _ _ _ => exact serveRow_runs (row := .start) h
  | dspSec _ _ _ => exact serveRow_runs (row := .sec) h
  | dspMin _ _ => exact serveRow_runs (row := .min) h
  | dspNone _ _ => exact serveRow_runs (row := .idle) h

end Sys2Proof.Machine
end

