-- ==== Sys2Proof/Laws/Linked.lean ====
section
/-! SUPPORT. The driver and the controller agree: which updates leave the agreement alone and which renew it
(20_memory.md R50, 40_display_driver.md R103). -/

namespace Sys2Proof.Machine

/-- An update outside the driver, the lines and the controller leaves the agreement. -/
theorem State.Linked.of_same {s t : State} (h : s.Linked) (hd : t.lcdDir = s.lcdDir) (he : t.lcdEn = s.lcdEn)
    (hc : t.cursor = s.cursor) (hk : t.controller = s.controller) : t.Linked :=
  ⟨hd.trans h.linesOut, he.trans h.enableLow, by rw [hc, hk]; exact h.agrees⟩

theorem State.Linked.of_update {s t : State} (h : s.Linked) (u : TimeUpdate s t) : t.Linked :=
  h.of_same u.lcdDir (congrArg State.lcdEn u :) (congrArg State.cursor u :) u.controller

/-- A wait outside the driver leaves the agreement. -/
theorem State.Linked.elapse {s t : State} (h : s.Linked) {n : Nat} (hd : t.lcdDir = s.lcdDir) (he : t.lcdEn = s.lcdEn)
    (hc : t.cursor = s.cursor) (hk : t.controller = s.controller.elapse n) : t.Linked :=
  h.of_same hd he hc (hk.trans (h.agrees.ready.elapse n))

theorem State.Linked.settled {s : State} (h : s.Linked) : s.settled.Linked := h.elapse rfl rfl rfl rfl

theorem State.Linked.debounced {s : State} (h : s.Linked) (b : Button) : (s.debounced b).Linked := h.elapse rfl rfl rfl rfl

theorem State.Linked.clearDisplay {s : State} (h : s.Linked) : s.clearDisplay.Linked := by
  rw [State.clearDisplay_eq]
  exact ⟨h.linesOut, rfl, h.agrees.ready.clear_agrees.1⟩

theorem State.Linked.homeDisplay {s : State} (h : s.Linked) : s.homeDisplay.Linked := by
  rw [State.homeDisplay_eq]
  refine ⟨h.linesOut, rfl, ?_⟩
  show ((s.controller.send false Config.cmdHome).elapse Config.tClear).Agrees 0
  rw [Controller.send_home h.agrees.ready.bus h.agrees.ready.idle]
  exact ⟨h.agrees.ready.of_cells s.controller.ddram 0, Nat.zero_le _, fun _ => rfl, fun e => absurd e (by decide),
    fun e => absurd e (by decide)⟩

theorem clampColumn_lt (col : Byte) : clampColumn col < 16 := by
  unfold clampColumn Config.maxCol
  omega

theorem State.Linked.moveCursor {s : State} (h : s.Linked) (col : Byte) : (s.moveCursor col).Linked := by
  have hc := clampColumn_lt col
  rw [State.moveCursor_eq]
  refine ⟨h.linesOut, rfl, ?_⟩
  have hn : (BitVec.ofNat 8 (clampColumn col)).toNat = clampColumn col := by simp; omega
  show (s.controller.send false (columnByte (clampColumn col))).Agrees (BitVec.ofNat 8 (clampColumn col)).toNat
  rw [hn, columnByte, h.agrees.ready.send_setAddr _ (columnAddress_displayed hc)]
  have ha := columnAddress_toNat hc
  refine ⟨h.agrees.ready.of_cells s.controller.ddram _, Nat.le_of_lt hc, ?_, ?_, ?_⟩
  · intro h8
    exact ha.trans (if_pos h8)
  · intro h8
    right
    show columnAddress (clampColumn col) = 0x40#7
    rw [h8]
    decide
  · intro h8
    exact ha.trans (if_neg (by omega))

theorem putChar_linked {s t : State} {ch : Byte} (hl : s.Linked) (h : putChar ch s = .next t) : t.Linked := by
  obtain ⟨hd, hc, rfl⟩ := putChar_eq_next h
  rw [State.placeChar_eq]
  refine ⟨hd, rfl, ?_⟩
  have hn : (BitVec.ofNat 8 (s.cursor.toNat + 1)).toNat = s.cursor.toNat + 1 := by simp; omega
  show (s.controller.putAt s.cursor.toNat ch).Agrees (BitVec.ofNat 8 (s.cursor.toNat + 1)).toNat
  rw [hn]
  exact hl.agrees.putAt ch hc

theorem putText_linked {s t : State} {text : List Byte} (hl : s.Linked) (h : putText text s = .next t) : t.Linked := by
  induction text generalizing s with
  | nil => cases h; exact hl
  | cons ch rest ih =>
    obtain ⟨u, h1, h2⟩ := andThen_eq_next h
    exact ih (putChar_linked hl h1) h2

theorem replaceText_linked {s t : State} {text : List Byte} (hl : s.Linked) (h : replaceText text s = .next t) :
    t.Linked := putText_linked hl.clearDisplay h

theorem State.bringUpDisplay_linked (s : State) : s.bringUpDisplay.Linked := by
  obtain ⟨h1, h2, _⟩ := s.controller.bringUp_ready
  rw [State.bringUpDisplay_eq]
  refine ⟨rfl, rfl, h1, Nat.zero_le _, fun _ => ?_, fun e => ?_, fun e => ?_⟩
  · show s.controller.bringUp.ac.toNat = 0
    rw [h2]
    rfl
  · exact absurd e (by simp)
  · exact absurd e (by simp)

theorem State.Linked.rendered {s : State} (h : s.Linked) : s.rendered.Linked :=
  (State.rendered_shows h.linesOut h.agrees.ready).1

theorem renderDisplay_linked {s t : State} (hl : s.Linked) (h : renderDisplay s = .next t) : t.Linked := by
  obtain ⟨_, rfl⟩ := renderDisplay_eq_next h
  exact hl.rendered

theorem State.Linked.rowUpdate {s : State} (h : s.Linked) (row : DispatchRow) : (s.rowUpdate row).Linked := by
  cases row with
  | reset => exact h.settled.of_update (State.reinitialise_update _)
  | start => exact h.of_update s.toggleRun_update
  | sec => exact h.of_update (s.addTime_update _)
  | min => exact h.of_update (s.addTime_update _)
  | idle => exact h

theorem State.Linked.rowEnd {s : State} (h : s.Linked) (row : DispatchRow) : (s.rowEnd row).Linked := by
  cases row with
  | reset => exact h
  | start => exact h.debounced _
  | sec => exact h.debounced _
  | min => exact h.debounced _
  | idle => exact h

theorem serveRow_linked {s t : State} {row : DispatchRow} (hl : s.Linked) (h : serveRow row s = .next t) : t.Linked := by
  rcases serveRow_eq_next h with ⟨_, rfl⟩ | ⟨_, _, rfl⟩
  · exact hl
  · exact ((hl.rowUpdate row).rendered).rowEnd row

theorem State.Linked.scaled {s : State} (h : s.Linked) : s.scaled.Linked := by
  unfold State.scaled
  split
  · exact ((h.of_same (t := { s with tc := 0 }) rfl rfl rfl rfl).of_update (State.secondTick_update _)).rendered
  · exact h.of_same rfl rfl rfl rfl

theorem invokeHandler_linked {s t : State} (hl : s.Linked) (h : invokeHandler s = .next t) : t.Linked := by
  have hs := (hl.of_same (t := s.enterHandler) rfl rfl rfl rfl).scaled
  rcases (invokeHandler_eq_next h).2 with ⟨_, rfl⟩ | ⟨_, _, rfl⟩
  · exact hs.of_same rfl rfl rfl rfl
  · exact (((hs.rowUpdate _).rendered).rowEnd _).of_same rfl rfl rfl rfl

end Sys2Proof.Machine
end

