-- ==== Sys2Proof/Laws/Modes.lean ====
section
/-! SUPPORT. What each update does to the mode, the alarm output, the context and the tick counter, and the render that
ends an event (41_timekeeper.md R110-R118). -/

namespace Sys2Proof.Machine

theorem evenSeconds_eq (x : Byte) : evenSeconds x = decide (x.toNat % 2 = 0) := by revert x; decide

/-- The parity of `sc` inverts at every count, across the 8-bit wrap too. -/
theorem evenSeconds_succ (x : Byte) : decide ((x + 1).toNat % 2 = 0) = !decide (x.toNat % 2 = 0) := by revert x; decide

/-- Everything the updates of SecButton and MinButton do, register by register. -/
theorem State.addTime_values (k : Seconds) (s : State) :
    (s.addTime k).mode = s.mode ∧ (s.addTime k).sc = s.sc ∧ (s.addTime k).alarm = s.alarm ∧
    (s.addTime k).trace = s.trace ∧
    (s.addTime k).cfg = (if s.mode = .stopped then s.cfg + k else s.cfg) ∧
    (s.addTime k).cur = (if (s.mode = .running ∨ s.mode = .paused) ∧ s.cfg ≠ 0 then s.cur + k else s.cur) := by
  unfold State.addTime
  cases hm : s.mode with
  | stopped => simp
  | alarm => simp [hm]
  | running => dsimp only; split <;> simp_all
  | paused => dsimp only; split <;> simp_all

/-- A render of a state that differs from `s` outside the driver and the lines only in what an event may change. -/
theorem State.rendered_ends {s u : State} {before : List Event} (hd : s.lcdDir = true) (hu : TimeUpdate s u)
    (ht : u.trace = s.trace ++ before) : EndsWithRender s u.rendered before u.text := by
  have e : exec (.setText u.text) s = .next (s.clearDisplay.afterText u.text) := by
    simp only [exec, execSetText, State.withDriver_ready _ hd]
    exact replaceText_fits _ hd (by simp [State.text])
  have hlast : u.text.getLast? = some (digitChar (secondsOf u.shownSeconds % 10)) := rfl
  have hlen : u.text.length = 8 := rfl
  refine ⟨by simp [State.rendered, ht], ⟨_, e, ?_⟩, ?_, ?_, ?_, ?_⟩
  · simp only [State.afterText, hlast, hlen, State.clearDisplay_eq, State.rendered, hu.controller,
      loNibble_digitChar (Nat.mod_lt _ (by decide : 0 < 10)), hu.lcdDir]
    simp
  · rw [hu]; exact ⟨rfl, rfl, rfl⟩
  · rw [hu]; exact ⟨rfl, rfl, rfl, rfl⟩
  · rw [hu]; exact ⟨rfl, rfl, rfl, rfl⟩
  · rw [hu]; rfl

/-- The mode after a Tick: Alarm exactly when a running count reaches 0. -/
theorem State.secondTick_mode (s : State) :
    s.secondTick.mode = if s.mode = .running ∧ s.counted = 0 then .alarm else s.mode := by
  rw [State.secondTick_eq]
  cases hm : s.mode with
  | running => dsimp only; split <;> simp_all
  | stopped => simp
  | paused => simp
  | alarm => simp

/-- A start never leads into Alarm. -/
theorem State.toggleRun_mode (s : State) : s.toggleRun.mode ≠ .alarm := by
  rw [State.toggleRun_eq]
  split <;> simp

/-- A start out of Alarm stops the timer and turns the output off. -/
theorem State.toggleRun_leavesAlarm {s : State} (h : s.mode = .alarm) :
    s.toggleRun.mode = .stopped ∧ s.toggleRun.alarm = false := by
  rw [State.toggleRun_eq, h]; exact ⟨rfl, rfl⟩

/-- What follows the render in a branch leaves mode and output. -/
theorem State.rowEnd_mode (row : DispatchRow) (s : State) :
    (s.rowEnd row).mode = s.mode ∧ (s.rowEnd row).alarm = s.alarm := by
  cases row <;> exact ⟨rfl, rfl⟩

/-- The mode after tick scaling. -/
theorem State.scaled_mode (s : State) :
    s.scaled.mode = if s.tc + 1 = 25 then s.secondTick.mode else s.mode := by
  unfold State.scaled
  split
  · rename_i h
    rw [if_pos (show s.tc + 1 = 25 from h)]
    show (({s with tc := 0} : State).secondTick).mode = _
    rw [State.secondTick_mode, State.secondTick_mode]; rfl
  · rename_i h
    rw [if_neg (show ¬ s.tc + 1 = 25 from h)]

/-- Tick scaling leaves the flags and the request, and moves only the counter of the sequencer's registers. -/
theorem State.scaled_values (s : State) :
    s.scaled.tc = (if s.tc + 1 = 25 then 0 else s.tc + 1) ∧ s.scaled.efStart = s.efStart ∧
    s.scaled.efSec = s.efSec ∧ s.scaled.efMin = s.efMin ∧ s.scaled.tp = s.tp := by
  unfold State.scaled
  by_cases hc : s.tc + 1 = 25
  · rw [if_pos (show s.tc + 1 = Config.tickThreshold from hc), if_pos hc]
    have h := State.secondTick_update { s with tc := 0 }
    exact ⟨(congrArg State.tc h :), (congrArg State.efStart h :), (congrArg State.efSec h :),
      (congrArg State.efMin h :), (congrArg State.tp h :)⟩
  · rw [if_neg (show ¬ s.tc + 1 = Config.tickThreshold from hc), if_neg hc]
    exact ⟨rfl, rfl, rfl, rfl, rfl⟩

/-- An update that keeps the alarm off outside Alarm, and leaves context and tick counter. -/
structure AlarmSafe (s t : State) : Prop where
  alarmOff : (s.mode ≠ .alarm → s.alarm = false) → t.mode ≠ .alarm → t.alarm = false
  ctx : t.ctx = s.ctx
  ticks : t.tc = s.tc

theorem AlarmSafe.of_same {s t : State} (h1 : t.mode = s.mode) (h2 : t.alarm = s.alarm) (h3 : t.ctx = s.ctx)
    (h4 : t.tc = s.tc) : AlarmSafe s t := ⟨by rw [h1, h2]; exact id, h3, h4⟩

theorem AlarmSafe.trans {s t u : State} (h : AlarmSafe s t) (k : AlarmSafe t u) : AlarmSafe s u :=
  ⟨fun x => k.alarmOff (h.alarmOff x), k.ctx.trans h.ctx, k.ticks.trans h.ticks⟩

theorem State.toggleRun_alarmSafe (s : State) : AlarmSafe s s.toggleRun := by
  refine ⟨?_, (congrArg State.ctx s.toggleRun_update :), (congrArg State.tc s.toggleRun_update :)⟩
  rw [State.toggleRun_eq]
  cases hm : s.mode <;> simp

theorem State.addTime_alarmSafe (k : Seconds) (s : State) : AlarmSafe s (s.addTime k) :=
  have h := s.addTime_values k
  .of_same h.1 h.2.2.1 (congrArg State.ctx (s.addTime_update k) :) (congrArg State.tc (s.addTime_update k) :)

theorem State.reinitialise_alarmSafe (s : State) : AlarmSafe s s.reinitialise := ⟨fun _ _ => rfl, rfl, rfl⟩

theorem State.secondTick_alarmSafe (s : State) : AlarmSafe s s.secondTick := by
  refine ⟨?_, (congrArg State.ctx s.secondTick_update :), (congrArg State.tc s.secondTick_update :)⟩
  rw [State.secondTick_eq]
  cases hm : s.mode with
  | running => dsimp only; split <;> simp_all
  | stopped => simp
  | paused => simp
  | alarm => simp

theorem State.rendered_alarmSafe (s : State) : AlarmSafe s s.rendered := .of_same rfl rfl rfl rfl

theorem State.rowUpdate_alarmSafe (row : DispatchRow) (s : State) : AlarmSafe s (s.rowUpdate row) := by
  cases row with
  | reset => exact ⟨fun _ _ => rfl, rfl, rfl⟩
  | start => exact s.toggleRun_alarmSafe
  | sec => exact s.addTime_alarmSafe _
  | min => exact s.addTime_alarmSafe _
  | idle => exact .of_same rfl rfl rfl rfl

theorem State.rowEnd_alarmSafe (row : DispatchRow) (s : State) : AlarmSafe s (s.rowEnd row) := by
  cases row <;> exact .of_same rfl rfl rfl rfl

theorem renderDisplay_alarmSafe {s t : State} (h : renderDisplay s = .next t) : AlarmSafe s t := by
  obtain ⟨_, rfl⟩ := renderDisplay_eq_next h
  exact s.rendered_alarmSafe

theorem serveRow_alarmSafe {row : DispatchRow} {s t : State} (h : serveRow row s = .next t) : AlarmSafe s t := by
  rcases serveRow_eq_next h with ⟨_, rfl⟩ | ⟨_, _, rfl⟩
  · exact .of_same rfl rfl rfl rfl
  · exact (s.rowUpdate_alarmSafe row).trans ((State.rendered_alarmSafe _).trans (State.rowEnd_alarmSafe row _))

/-- A handler invocation keeps the alarm off outside Alarm and the tick counter below the threshold, and ends in the
foreground. -/
theorem execHandler_alarmSafe {s t : State} (h : execHandler s = .next t) (h1 : s.mode ≠ .alarm → s.alarm = false)
    (h2 : s.tc.toNat < 25) : (t.mode ≠ .alarm → t.alarm = false) ∧ t.ctx = .foreground ∧ t.tc.toNat < 25 := by
  obtain ⟨_, hk⟩ := invokeHandler_eq_next (execHandler_eq_next h).2.2
  have hs : (s.enterHandler.scaled.mode ≠ .alarm → s.enterHandler.scaled.alarm = false) ∧
      s.enterHandler.scaled.tc.toNat < 25 := by
    unfold State.scaled
    split
    · have := (State.secondTick_alarmSafe { s.enterHandler with tc := 0 }).trans (State.rendered_alarmSafe _)
      exact ⟨this.alarmOff h1, by rw [this.ticks]; exact (by decide : (0#8).toNat < 25)⟩
    · rename_i hne
      have below : ∀ x : Byte, x.toNat < 25 → ¬ x + 1 = Config.tickThreshold → (x + 1).toNat < 25 := by decide
      exact ⟨h1, below _ h2 hne⟩
  rcases hk with ⟨_, rfl⟩ | ⟨_, _, rfl⟩
  · exact ⟨hs.1, rfl, hs.2⟩
  · have a := (State.rowUpdate_alarmSafe (dispatchRow s.dispatchVector) s.enterHandler.scaled).trans
      ((State.rendered_alarmSafe _).trans (State.rowEnd_alarmSafe (dispatchRow s.dispatchVector) _))
    exact ⟨a.alarmOff hs.1, rfl, by show BitVec.toNat (State.tc (State.rowEnd _ _)) < 25; rw [a.ticks]; exact hs.2⟩

/-- The dispatch of a state is the row instruction of its vector. -/
theorem exec_dispatchInstr (s : State) : exec (dispatchInstr s.dispatchVector) s = dispatch s := by
  unfold dispatchInstr dispatch
  cases dispatchRow s.dispatchVector <;> rfl

/-- After boot the block waits for the timer. -/
theorem blockStep_idle {s : State} (hb : s.boot = .idle) : blockStep s = idleStep s := by
  unfold blockStep; rw [hb]

/-- Before its end the block's next operation is the boot sequence's. -/
theorem blockStep_boot {s : State} (hb : s.boot ≠ .idle) : blockStep s = bootStep s := by
  unfold blockStep; split <;> first | rfl | exact absurd ‹_› hb

/-- An operation asked for directly waits for the end of boot. -/
theorem directStep_boot {s : State} (hb : s.boot ≠ .idle) {fmt : Format} {bytes : List Byte} {rest : List Input} :
    directStep fmt bytes rest s = bootStep s := by
  unfold directStep; split <;> first | rfl | exact absurd ‹_› hb

/-- Everything a step can be: the environment's action, the block's next operation, or an operation asked for directly. -/
theorem step_cases (s : State) :
    (∃ input rest, s.inbox = input :: rest ∧ input.isOperation = false ∧ input ≠ .proceed ∧
      step s = .next ({ s with inbox := rest }.react input)) ∨
    (∃ rest, (rest = s.inbox ∨ s.inbox = .proceed :: rest) ∧ step s = blockStep { s with inbox := rest }) ∨
    (∃ fmt bytes rest, s.inbox = .operation fmt bytes :: rest ∧ s.boot = .idle ∧
      step s = runRequest fmt bytes { s with inbox := rest }) := by
  unfold step turn
  match h : s.inbox with
  | [] => exact .inr (.inl ⟨[], .inl rfl, by cases s; cases h; rfl⟩)
  | .proceed :: rest => exact .inr (.inl ⟨rest, .inr rfl, rfl⟩)
  | .operation fmt bytes :: rest =>
    by_cases hb : s.boot = .idle
    · exact .inr (.inr ⟨fmt, bytes, rest, rfl, hb, by simp only [directStep, hb]⟩)
    · refine .inr (.inl ⟨.operation fmt bytes :: rest, .inl rfl, ?_⟩)
      have e : ({ s with inbox := .operation fmt bytes :: rest } : State) = s := by cases s; cases h; rfl
      show directStep fmt bytes rest s = _
      rw [e, blockStep_boot hb, directStep_boot hb]
  | .press b :: rest => exact .inl ⟨_, _, rfl, rfl, by simp, rfl⟩
  | .release b :: rest => exact .inl ⟨_, _, rfl, rfl, by simp, rfl⟩
  | .raise b :: rest => exact .inl ⟨_, _, rfl, rfl, by simp, rfl⟩
  | .setFlag b :: rest => exact .inl ⟨_, _, rfl, rfl, by simp, rfl⟩
  | .hardwareTick :: rest => exact .inl ⟨_, _, rfl, rfl, by simp, rfl⟩
  | .powerUp :: rest => exact .inl ⟨_, _, rfl, rfl, by simp, rfl⟩

/-- A booted machine has nothing left to boot. -/
theorem State.booted_idle {s : State} (h : s.boot = .idle) : s.booted = s := by
  have : bootStep s = .next s := by simp [bootStep, h]
  simp [State.booted, bootSequence, this]

/-- The display shows the state's text, and driver and controller agree. -/
def State.Current (s : State) : Prop := s.Linked ∧ s.Shows s.text ∧ s.cursor = 8

theorem State.Current.of_same {s t : State} (h : s.Current) (h1 : t.lcdDir = s.lcdDir) (h2 : t.lcdEn = s.lcdEn)
    (h3 : t.cursor = s.cursor) (h4 : t.controller = s.controller) (h5 : t.text = s.text) : t.Current := by
  refine ⟨h.1.of_same h1 h2 h3 h4, ?_, h3.trans h.2.2⟩
  rw [h5]; unfold State.Shows; rw [h4]; exact h.2.1

/-- Every render makes the display current. -/
theorem State.Linked.rendered_current {s : State} (h : s.Linked) : s.rendered.Current := by
  obtain ⟨a, b⟩ := State.rendered_shows h.linesOut h.agrees.ready
  exact ⟨a, b, rfl⟩

theorem State.Current.debounced {s : State} (h : s.Current) (b : Button) : (s.debounced b).Current :=
  h.of_same rfl rfl rfl (h.1.agrees.ready.elapse _) rfl

theorem State.Current.rowEnd {s : State} (h : s.Current) (row : DispatchRow) : (s.rowEnd row).Current := by
  cases row with
  | reset => exact h
  | start => exact h.debounced _
  | sec => exact h.debounced _
  | min => exact h.debounced _
  | idle => exact h

theorem State.Current.scaled {s : State} (h : s.Current) : s.scaled.Current := by
  unfold State.scaled
  split
  · exact ((h.1.of_same (t := { s with tc := 0 }) rfl rfl rfl rfl).of_update
      (State.secondTick_update _)).rendered_current
  · exact h.of_same rfl rfl rfl rfl rfl

/-- A handler invocation leaves the display current. -/
theorem execHandler_current {s t : State} (h : s.Current) (he : execHandler s = .next t) : t.Current := by
  have hs : s.enterHandler.scaled.Current := State.Current.scaled (h.of_same rfl rfl rfl rfl rfl)
  rcases (invokeHandler_eq_next (execHandler_eq_next he).2.2).2 with ⟨_, rfl⟩ | ⟨_, _, rfl⟩
  · exact hs.of_same rfl rfl rfl rfl rfl
  · exact ((hs.1.rowUpdate _).rendered_current.rowEnd _).of_same rfl rfl rfl rfl rfl

end Sys2Proof.Machine
end

