-- ==== Sys2Proof/Laws/NoFault.lean ====
section
/-! SUPPORT. The shared operations never fault (60_exceptions.md R150): the cursor is read only where the lines are
outputs. -/

namespace Sys2Proof.Machine

theorem putChar_noFault (ch : Byte) (s : State) (e : Fault) (hd : s.lcdDir = true) : putChar ch s ≠ .fault e := by
  unfold putChar State.withCursor
  rw [if_pos hd]
  dsimp only
  split <;> simp

theorem putText_noFault (text : List Byte) (s : State) (e : Fault) (hd : s.lcdDir = true) : putText text s ≠ .fault e := by
  induction text generalizing s with
  | nil => simp [putText]
  | cons ch rest ih =>
    unfold putText
    cases h : putChar ch s with
    | next u =>
      obtain ⟨_, _, rfl⟩ := putChar_eq_next h
      rw [andThen_next]; apply ih; rw [State.placeChar_eq]; exact hd
    | fault e' => exact absurd h (putChar_noFault ch s e' hd)
    | refused e => simp [andThen]

theorem State.withDriver_noFault (s : State) (f : State → Result) (e : Fault)
    (h : s.lcdDir = true → f s ≠ .fault e) : s.withDriver f ≠ .fault e := by
  unfold State.withDriver; split
  · exact h ‹_›
  · simp

theorem renderDisplay_noFault (s : State) (e : Fault) : renderDisplay s ≠ .fault e := by
  apply State.withDriver_noFault; intro h; apply putText_noFault; rw [State.clearDisplay_eq]; exact h

theorem serveRow_noFault (row : DispatchRow) (s : State) (e : Fault) : serveRow row s ≠ .fault e := by
  by_cases hr : row = .idle
  · subst hr; simp [serveRow]
  cases hd : s.lcdDir with
  | true => rw [serveRow_eq row hd]; simp
  | false => rw [serveRow_refused hd hr]; simp

end Sys2Proof.Machine
end

