-- ==== Sys2Proof/Laws/Oblivious.lean ====
section
/-! SUPPORT. What no operation depends on: the controller, the Start level and the trace so far. -/

namespace Sys2Proof.Machine

/-- A state with another controller, another Start level, and events put before its trace. -/
def State.over (c : Controller) (l : Bool) (p : List Event) (u : State) : State :=
  { u with controller := c, lvlStart := l, trace := p ++ u.trace }

theorem State.over_self (s : State) : { s with trace := [] }.over s.controller s.lvlStart s.trace = s := by
  simp [State.over]

/-- A state update that depends on neither, and whose effect on the controller depends on the controller alone. -/
def Oblivious (f : State → State) : Prop :=
  ∀ u : State, ∃ (u' : State) (k : Controller → Controller), ∀ c l p, f (u.over c l p) = u'.over (k c) l p

/-- The same of an operation: it runs on, or stops alike, whatever the controller, the Start level and the trace. -/
def ObliviousResult (f : State → Result) : Prop :=
  ∀ u : State, (∃ (u' : State) (k : Controller → Controller), ∀ c l p, f (u.over c l p) = .next (u'.over (k c) l p)) ∨
    (∃ e, ∀ c l p, f (u.over c l p) = .fault e) ∨ (∃ e, ∀ c l p, f (u.over c l p) = .refused e)

theorem Oblivious.comp {f g : State → State} (hg : Oblivious g) (hf : Oblivious f) : Oblivious fun s => g (f s) := by
  intro u
  obtain ⟨u1, k1, h1⟩ := hf u
  obtain ⟨u2, k2, h2⟩ := hg u1
  exact ⟨u2, fun c => k2 (k1 c), fun c l p => by simp only [h1, h2]⟩

theorem Oblivious.result {f : State → State} (h : Oblivious f) : ObliviousResult fun s => .next (f s) := by
  intro u
  obtain ⟨u1, k1, h1⟩ := h u
  exact .inl ⟨u1, k1, fun c l p => by simp only [h1]⟩

theorem ObliviousResult.andThen {f : State → Result} {g : State → Result} (hf : ObliviousResult f)
    (hg : ObliviousResult g) : ObliviousResult fun s => Machine.andThen (f s) g := by
  intro u
  rcases hf u with ⟨u1, k1, h1⟩ | ⟨e, h1⟩ | ⟨e, h1⟩
  · rcases hg u1 with ⟨u2, k2, h2⟩ | ⟨e, h2⟩ | ⟨e, h2⟩
    · exact .inl ⟨u2, fun c => k2 (k1 c), fun c l p => by simp only [h1, andThen_next, h2]⟩
    · exact .inr (.inl ⟨e, fun c l p => by simp only [h1, andThen_next, h2]⟩)
    · exact .inr (.inr ⟨e, fun c l p => by simp only [h1, andThen_next, h2]⟩)
  · exact .inr (.inl ⟨e, fun c l p => by simp only [h1, andThen_fault]⟩)
  · exact .inr (.inr ⟨e, fun c l p => by simp only [h1, andThen_refused]⟩)

theorem ObliviousResult.after {f : State → Result} {g : State → State} (hf : ObliviousResult f) (hg : Oblivious g) :
    ObliviousResult fun s => f (g s) := by
  intro u
  obtain ⟨u1, k1, h1⟩ := hg u
  rcases hf u1 with ⟨u2, k2, h2⟩ | ⟨e, h2⟩ | ⟨e, h2⟩
  · exact .inl ⟨u2, fun c => k2 (k1 c), fun c l p => by simp only [h1, h2]⟩
  · exact .inr (.inl ⟨e, fun c l p => by simp only [h1, h2]⟩)
  · exact .inr (.inr ⟨e, fun c l p => by simp only [h1, h2]⟩)

/-- An operation that chooses by a value no controller, Start level or trace enters into. -/
theorem ObliviousResult.choose {α : Type} {f : α → State → Result} {v : State → α} (hf : ∀ a, ObliviousResult (f a))
    (hv : ∀ u c l p, v (State.over c l p u) = v u) : ObliviousResult fun s => f (v s) s := by
  intro u
  simp only [hv]
  exact hf (v u) u

theorem Oblivious.choose {α : Type} {f : α → State → State} {v : State → α} (hf : ∀ a, Oblivious (f a))
    (hv : ∀ u c l p, v (State.over c l p u) = v u) : Oblivious fun s => f (v s) s := by
  intro u
  simp only [hv]
  exact hf (v u) u

theorem ObliviousResult.stop (e : Refusal) : ObliviousResult fun _ => .refused e :=
  fun _ => .inr (.inr ⟨e, fun _ _ _ => rfl⟩)

theorem ObliviousResult.fault (e : Fault) : ObliviousResult fun _ => .fault e :=
  fun _ => .inr (.inl ⟨e, fun _ _ _ => rfl⟩)

theorem Oblivious.id : Oblivious fun s => s := fun u => ⟨u, fun c => c, fun _ _ _ => rfl⟩

theorem ObliviousResult.withDriver {f : State → Result} (hf : ObliviousResult f) :
    ObliviousResult fun s => s.withDriver f :=
  .choose (f := fun (b : Bool) s => if b then f s else .refused .driverBeforeInitialize) (v := State.lcdDir)
    (fun b => by cases b; exact .stop _; exact hf) (fun _ _ _ _ => rfl)

theorem State.wait_oblivious (t : Nat) : Oblivious (State.wait t) :=
  fun u => ⟨u.wait t, Controller.elapse t, fun c l p => by simp [State.wait, State.emit, State.over]⟩

theorem State.emit_oblivious (e : Event) : Oblivious (State.emit e) :=
  fun u => ⟨u.emit e, fun c => c, fun c l p => by simp [State.emit, State.over]⟩

theorem State.pulseNibble_oblivious (n : Nibble) : Oblivious (State.pulseNibble n) :=
  fun u => ⟨u.pulseNibble n, Controller.pulse u.lcdRs n, fun c l p => by simp [State.pulseNibble_eq, State.over]⟩

theorem State.driveSelect_oblivious (v : Bool) : Oblivious (State.driveSelect v) :=
  fun u => ⟨u.driveSelect v, fun c => c, fun c l p => by simp [State.driveSelect, State.emit, State.over]⟩

theorem State.driveAlarm_oblivious (v : Bool) : Oblivious (State.driveAlarm v) :=
  fun u => ⟨u.driveAlarm v, fun c => c, fun c l p => by simp [State.driveAlarm, State.emit, State.over]⟩

theorem State.sendByte_oblivious (rs : Bool) (b : Byte) : Oblivious (State.sendByte rs b) :=
  fun u => ⟨u.sendByte rs b, Controller.send rs b, fun c l p => by simp [State.sendByte_eq, State.over]⟩

theorem State.moveCursor_oblivious (col : Byte) : Oblivious (State.moveCursor col) :=
  fun u => ⟨u.moveCursor col, Controller.send false (columnByte (clampColumn col)),
    fun c l p => by simp [State.moveCursor_eq, State.over]⟩

theorem State.clearDisplay_oblivious : Oblivious State.clearDisplay :=
  fun u => ⟨u.clearDisplay, fun c => (c.send false Config.cmdClear).elapse Config.tClear,
    fun c l p => by simp [State.clearDisplay_eq, State.over]⟩

theorem State.homeDisplay_oblivious : Oblivious State.homeDisplay :=
  fun u => ⟨u.homeDisplay, fun c => (c.send false Config.cmdHome).elapse Config.tClear,
    fun c l p => by simp [State.homeDisplay_eq, State.over]⟩

theorem State.bringUpDisplay_oblivious : Oblivious State.bringUpDisplay :=
  fun u => ⟨u.bringUpDisplay, Controller.bringUp, fun c l p => by simp [State.bringUpDisplay_eq, State.over]⟩

theorem State.placeChar_oblivious (ch : Byte) : Oblivious (State.placeChar ch) :=
  fun u => ⟨u.placeChar ch, Controller.putAt u.cursor.toNat ch, fun c l p => by simp [State.placeChar_eq, State.over]⟩

theorem putChar_oblivious (ch : Byte) : ObliviousResult (putChar ch) := by
  refine .choose (f := fun (v : Bool × Byte) s => if v.1 then
    if Config.cols ≤ v.2.toNat then .refused .writePastColumn15 else .next (s.placeChar ch)
    else .fault .uninitialisedRead) (v := fun s => (s.lcdDir, s.cursor)) (fun v => ?_) (fun _ _ _ _ => rfl)
  split
  · split
    · exact .stop _
    · exact (State.placeChar_oblivious ch).result
  · exact .fault _

theorem putText_oblivious (text : List Byte) : ObliviousResult (putText text) := by
  induction text with
  | nil => exact Oblivious.id.result
  | cons ch rest ih => exact (putChar_oblivious ch).andThen ih

theorem replaceText_oblivious (text : List Byte) : ObliviousResult (replaceText text) :=
  (putText_oblivious text).after State.clearDisplay_oblivious

theorem renderDisplay_oblivious : ObliviousResult renderDisplay :=
  .choose (f := fun text s => s.withDriver (replaceText text)) (v := State.text)
    (fun text => (replaceText_oblivious text).withDriver) (fun _ _ _ _ => rfl)

theorem State.toggleRun_oblivious : Oblivious State.toggleRun := fun u =>
  ⟨u.toggleRun, fun c => c, fun c l p => by
    cases hm : u.mode <;> simp [State.toggleRun, State.over, hm, State.driveAlarm, State.emit]⟩

theorem State.addTime_oblivious (k : Seconds) : Oblivious (State.addTime k) := fun u =>
  ⟨u.addTime k, fun c => c, fun c l p => by
    simp only [State.addTime, State.over]
    repeat' split
    all_goals simp_all⟩

theorem State.reinitialise_oblivious : Oblivious State.reinitialise := fun u =>
  ⟨u.reinitialise, fun c => c, fun c l p => by simp [State.reinitialise, State.over, State.driveAlarm, State.emit]⟩

theorem State.secondTick_oblivious : Oblivious State.secondTick := fun u =>
  ⟨u.secondTick, fun c => c, fun c l p => by
    have hc : (State.over c l p u).counted = u.counted := rfl
    have hm : (State.over c l p u).mode = u.mode := rfl
    simp only [State.secondTick_eq, hc, hm]
    split
    · rfl
    · rfl
    · split <;> simp [State.over]
    · simp [State.over]⟩

theorem execTick_oblivious : ObliviousResult execTick := renderDisplay_oblivious.after State.secondTick_oblivious

theorem State.setFlag_oblivious (b : Button) (v : Bool) : Oblivious (State.setFlag b v) :=
  fun u => ⟨u.setFlag b v, fun c => c, fun c l p => by cases b <;> rfl⟩

theorem State.clearFlag_oblivious (b : Button) : Oblivious (State.clearFlag b) :=
  (State.setFlag_oblivious b false).comp (State.emit_oblivious _)

theorem scaleTick_oblivious : ObliviousResult scaleTick := by
  refine .choose (f := fun (n : Byte) s => if n + 1 = Config.tickThreshold then execTick { s with tc := 0 }
    else .next { s with tc := n + 1 }) (v := State.tc) (fun n => ?_) (fun _ _ _ _ => rfl)
  split
  · exact execTick_oblivious.after fun u => ⟨{ u with tc := 0 }, fun c => c, fun _ _ _ => rfl⟩
  · exact Oblivious.result fun u => ⟨{ u with tc := n + 1 }, fun c => c, fun _ _ _ => rfl⟩

theorem serveCombo_oblivious : ObliviousResult serveCombo :=
  (renderDisplay_oblivious.after State.reinitialise_oblivious).after
    ((State.clearFlag_oblivious _).comp ((State.clearFlag_oblivious _).comp (State.wait_oblivious _)))

theorem serveButton_oblivious (b : Button) {event : State → Result} (h : ObliviousResult event) :
    ObliviousResult (serveButton b event) :=
  h.andThen (((State.clearFlag_oblivious b).comp (State.wait_oblivious _)).result)

theorem serveRow_oblivious (row : DispatchRow) : ObliviousResult (serveRow row) := by
  cases row with
  | reset => exact serveCombo_oblivious
  | start => exact serveButton_oblivious _ (renderDisplay_oblivious.after State.toggleRun_oblivious)
  | sec => exact serveButton_oblivious _ (renderDisplay_oblivious.after (State.addTime_oblivious _))
  | min => exact serveButton_oblivious _ (renderDisplay_oblivious.after (State.addTime_oblivious _))
  | idle => exact Oblivious.id.result

theorem dispatch_oblivious : ObliviousResult dispatch :=
  .choose (v := fun s => dispatchRow s.dispatchVector) serveRow_oblivious (fun _ _ _ _ => rfl)

theorem invokeHandler_oblivious : ObliviousResult invokeHandler :=
  ((scaleTick_oblivious.after fun u => ⟨u.enterHandler, fun c => c, fun _ _ _ => rfl⟩).andThen dispatch_oblivious).andThen
    (Oblivious.result fun u => ⟨u.leaveHandler, fun c => c, fun _ _ _ => rfl⟩)

theorem execHandler_oblivious : ObliviousResult execHandler := by
  refine .choose (f := fun (v : Bool × Ctx) s => if v.1 = false then .refused .handlerBeforeEnable
    else if v.2 = .inHandler then .refused .handlerReentered else invokeHandler s)
    (v := fun s => (s.irqEnabled, s.ctx)) (fun v => ?_) (fun _ _ _ _ => rfl)
  split
  · exact .stop _
  · split
    · exact .stop _
    · exact invokeHandler_oblivious

/-- What an instruction does depends on neither the controller, nor the Start level, nor the trace so far. -/
theorem exec_oblivious (i : Instr) : ObliviousResult (exec i) := by
  cases i with
  | initializeDisplay => exact State.bringUpDisplay_oblivious.result
  | setCursor col => exact (State.moveCursor_oblivious col).result.withDriver
  | clear => exact State.clearDisplay_oblivious.result.withDriver
  | home => exact State.homeDisplay_oblivious.result.withDriver
  | setText text => exact (replaceText_oblivious text).withDriver
  | addText text => exact (putText_oblivious text).withDriver
  | writeChar ch => exact (putChar_oblivious ch).withDriver
  | hsNib3 => exact ((State.pulseNibble_oblivious _).comp (State.driveSelect_oblivious _)).result.withDriver
  | hsNib2 => exact ((State.pulseNibble_oblivious _).comp (State.driveSelect_oblivious _)).result.withDriver
  | nib n => exact (State.pulseNibble_oblivious n).result.withDriver
  | writeNibble n => exact (State.pulseNibble_oblivious n).result.withDriver
  | startButton => exact renderDisplay_oblivious.after State.toggleRun_oblivious
  | secButton => exact renderDisplay_oblivious.after (State.addTime_oblivious _)
  | minButton => exact renderDisplay_oblivious.after (State.addTime_oblivious _)
  | resetGesture => exact renderDisplay_oblivious.after State.reinitialise_oblivious
  | tick => exact execTick_oblivious
  | render => exact renderDisplay_oblivious
  | handler => exact execHandler_oblivious
  | dspReset _ _ _ => exact serveRow_oblivious .reset
  | dspStart _ _ _ _ => exact serveRow_oblivious .start
  | dspSec _ _ _ => exact serveRow_oblivious .sec
  | dspMin _ _ => exact serveRow_oblivious .min
  | dspNone _ _ => exact serveRow_oblivious .idle
  | _ => exact (State.sendByte_oblivious _ _).result.withDriver

end Sys2Proof.Machine
end

