-- ==== Sys2Proof/Laws/PerInstr.lean ====
section
/-! SUPPORT. Per-instruction family EncodesItsRow: the first word of every instruction's encoding has the fixed bits of its
row in spec/opcode_table.json. The masks and matches are copied from the table, not computed from the encoder. -/

namespace Sys2Proof.Laws.EncodesItsRow

/-- The mask and the match of an instruction's row. -/
def row : Instr → Nat × Nat
  | .lcdClear => (0x1FF, 0x001)
  | .lcdHome => (0x1FF, 0x002)
  | .lcdEntry _ _ => (0x1FC, 0x004)
  | .lcdDisplay _ _ _ => (0x1F8, 0x008)
  | .lcdFunction _ _ _ _ => (0x1E0, 0x020)
  | .lcdSetAddr _ => (0x180, 0x080)
  | .lcdData _ => (0x100, 0x100)
  | .hsNib3 => (0x1F, 0x03)
  | .hsNib2 => (0x1F, 0x02)
  | .nib _ => (0x0, 0x0)
  | .dspReset _ _ _ => (0x18, 0x18)
  | .dspStart _ _ _ _ => (0x04, 0x04)
  | .dspSec _ _ _ => (0x06, 0x02)
  | .dspMin _ _ => (0x07, 0x01)
  | .dspNone _ _ => (0x07, 0x00)
  | .initializeDisplay => (0xF, 0x0)
  | .setCursor _ => (0xF, 0x1)
  | .clear => (0xF, 0x2)
  | .home => (0xF, 0x3)
  | .setText _ => (0xF, 0x4)
  | .addText _ => (0xF, 0x5)
  | .writeChar _ => (0xF, 0x6)
  | .writeByte _ _ => (0xF, 0x7)
  | .writeNibble _ => (0xF, 0x8)
  | .startButton => (0xF, 0x9)
  | .secButton => (0xF, 0xA)
  | .minButton => (0xF, 0xB)
  | .resetGesture => (0xF, 0xC)
  | .tick => (0xF, 0xD)
  | .render => (0xF, 0xE)
  | .handler => (0xF, 0xF)
  | .command _ => (0xF, 0x7)
  | .data _ => (0xF, 0x7)

/-- The table's word at the head of an encoding: two bytes, low first, for WIRE9, one byte otherwise (log 10). -/
def headWord (fmt : Format) (bytes : List Byte) : Nat :=
  (bytes.headD 0).toNat + if fmt = .wire9 then 256 * (bytes.getD 1 0).toNat else 0

/-- The head of the encoding matches the row. -/
def Statement (i : Instr) : Prop := headWord i.format (encode i) &&& (row i).1 = (row i).2

theorem lcdClear : Statement .lcdClear := by unfold Statement; decide
theorem lcdHome : Statement .lcdHome := by unfold Statement; decide
theorem lcdEntry (i s : Bool) : Statement (.lcdEntry i s) := by unfold Statement; revert i s; decide
theorem lcdDisplay (d c b : Bool) : Statement (.lcdDisplay d c b) := by unfold Statement; revert d c b; decide
theorem lcdFunction (l n f : Bool) (x : BitVec 2) : Statement (.lcdFunction l n f x) := by unfold Statement; revert l n f x; decide
theorem lcdSetAddr (a : Address) : Statement (.lcdSetAddr a) := by unfold Statement; revert a; decide
theorem lcdData (ch : Byte) : Statement (.lcdData ch) := by unfold Statement; revert ch; decide
theorem hsNib3 : Statement .hsNib3 := by unfold Statement; decide
theorem hsNib2 : Statement .hsNib2 := by unfold Statement; decide
theorem nib (n : Nibble) : Statement (.nib n) := by unfold Statement; revert n; decide
theorem dspReset (es ec em : Bool) : Statement (.dspReset es ec em) := by unfold Statement; revert es ec em; decide
theorem dspStart (ls lm ec em : Bool) : Statement (.dspStart ls lm ec em) := by unfold Statement; revert ls lm ec em; decide
theorem dspSec (ls lm em : Bool) : Statement (.dspSec ls lm em) := by unfold Statement; revert ls lm em; decide
theorem dspMin (ls lm : Bool) : Statement (.dspMin ls lm) := by unfold Statement; revert ls lm; decide
theorem dspNone (ls lm : Bool) : Statement (.dspNone ls lm) := by unfold Statement; revert ls lm; decide
theorem initializeDisplay : Statement .initializeDisplay := by unfold Statement; decide
theorem setCursor (col : Byte) : Statement (.setCursor col) := by simp [Statement, headWord, encode, Instr.format, row]
theorem clear : Statement .clear := by unfold Statement; decide
theorem home : Statement .home := by unfold Statement; decide
theorem setText (text : List Byte) : Statement (.setText text) := by simp [Statement, headWord, encode, Instr.format, row]
theorem addText (text : List Byte) : Statement (.addText text) := by simp [Statement, headWord, encode, Instr.format, row]
theorem writeChar (ch : Byte) : Statement (.writeChar ch) := by simp [Statement, headWord, encode, Instr.format, row]
theorem writeByte (rs : Bool) (b : Byte) : Statement (.writeByte rs b) := by simp [Statement, headWord, encode, Instr.format, row]
theorem writeNibble (n : Nibble) : Statement (.writeNibble n) := by unfold Statement; revert n; decide
theorem startButton : Statement .startButton := by unfold Statement; decide
theorem secButton : Statement .secButton := by unfold Statement; decide
theorem minButton : Statement .minButton := by unfold Statement; decide
theorem resetGesture : Statement .resetGesture := by unfold Statement; decide
theorem tick : Statement .tick := by unfold Statement; decide
theorem render : Statement .render := by unfold Statement; decide
theorem handler : Statement .handler := by unfold Statement; decide
theorem command (b : Byte) : Statement (.command b) := by simp [Statement, headWord, encode, Instr.format, row]
theorem data (b : Byte) : Statement (.data b) := by simp [Statement, headWord, encode, Instr.format, row]

end Sys2Proof.Laws.EncodesItsRow
end

