-- ==== Sys2Proof/Tests/Slice0.lean ====
section
/-! SUPPORT. Tests and witnesses. The expected results are those of spec/95_test_vectors.md and of the rules named; none is
the model's own answer. -/

namespace Sys2Proof.Tests

set_option maxRecDepth 20000

open Sys2Proof.Machine

/-! Well-formedness: a vector with both levels asserted belongs to the first row alone (30_encoding.md R75). -/

theorem test_wellFormed_refuses_start : (Instr.dspStart true true false false).wellFormed = false := by decide
theorem test_wellFormed_refuses_sec : (Instr.dspSec true true false).wellFormed = false := by decide
theorem test_wellFormed_refuses_min : (Instr.dspMin true true).wellFormed = false := by decide
theorem test_wellFormed_refuses_none : (Instr.dspNone true true).wellFormed = false := by decide
theorem test_wellFormed_admits_reset : (Instr.dspReset true true true).wellFormed = true := by decide

/-! Decoding: words written out from the patterns of 30_encoding.md R65-R72, R75, R76. -/

theorem test_decode_wire9 :
    decode .wire9 [0b00000001, 0b0] = .ok .lcdClear ∧
    decode .wire9 [0b00000010, 0b0] = .ok .lcdHome ∧
    decode .wire9 [0b00000101, 0b0] = .ok (.lcdEntry false true) ∧
    decode .wire9 [0b00001010, 0b0] = .ok (.lcdDisplay false true false) ∧
    decode .wire9 [0b00110101, 0b0] = .ok (.lcdFunction true false true 1) ∧
    decode .wire9 [0b10000111, 0b0] = .ok (.lcdSetAddr 0x07) ∧
    decode .wire9 [0b00000001, 0b1] = .ok (.lcdData 0x01) := by decide

theorem test_decode_nibbles :
    decode .hs5 [0b00011] = .ok .hsNib3 ∧ decode .hs5 [0b00010] = .ok .hsNib2 ∧
    decode .nib [0b0101] = .ok (.nib 5) := by decide

theorem test_decode_dispatch :
    decode .dispatch5 [0b11001] = .ok (.dspReset false false true) ∧
    decode .dispatch5 [0b10101] = .ok (.dspStart true false false true) ∧
    decode .dispatch5 [0b01011] = .ok (.dspSec false true true) ∧
    decode .dispatch5 [0b10001] = .ok (.dspMin true false) ∧
    decode .dispatch5 [0b01000] = .ok (.dspNone false true) := by decide

theorem test_decode_operations :
    decode .opsel [0x0] = .ok .initializeDisplay ∧ decode .opsel [0x1, 15] = .ok (.setCursor 15) ∧
    decode .opsel [0x2] = .ok .clear ∧ decode .opsel [0x3] = .ok .home ∧
    decode .opsel [0x4, 0x30, 0x31] = .ok (.setText [0x30, 0x31]) ∧
    decode .opsel [0x5, 0x41] = .ok (.addText [0x41]) ∧ decode .opsel [0x6, 0x41] = .ok (.writeChar 0x41) ∧
    decode .opsel [0x7, 0, 0x28] = .ok (.writeByte false 0x28) ∧ decode .opsel [0x8, 0xA] = .ok (.writeNibble 0xA) ∧
    decode .opsel [0x9] = .ok .startButton ∧ decode .opsel [0xA] = .ok .secButton ∧
    decode .opsel [0xB] = .ok .minButton ∧ decode .opsel [0xC] = .ok .resetGesture ∧
    decode .opsel [0xD] = .ok .tick ∧ decode .opsel [0xE] = .ok .render ∧ decode .opsel [0xF] = .ok .handler := by
  decide

/-- `command` and `data` are other names of writeByte's words (R77). -/
theorem test_encode_aliases :
    encode (.command 0x28) = [0x7, 0, 0x28] ∧ encode (.data 0x41) = [0x7, 1, 0x41] := by decide

theorem test_decode_rejects :
    decode .wire9 [0x00, 0] = .error .noBaseCode ∧ decode .wire9 [0x03, 0] = .error .noBaseCode ∧
    decode .wire9 [0x10, 0] = .error .noBaseCode ∧ decode .wire9 [0x7F, 0] = .error .noBaseCode ∧
    decode .wire9 [0x01, 2] = .error .strayBits ∧ decode .hs5 [0b10011] = .error .notHandshake ∧
    decode .nib [0x10] = .error .strayBits ∧ decode .opsel [0x10] = .error .strayBits ∧
    decode .opsel [0x1] = .error .wrongLength ∧ decode .opsel [] = .error .wrongLength := by decide

theorem test_decode_tableWords :
    decodeTableWord 16 0x028 = some (.lcdFunction false true false 0) ∧
    decodeTableWord 16 0x141 = some (.lcdData 0x41) ∧ decodeTableWord 8 0x1 = some (.setCursor 0) ∧
    decodeTableWord 8 0x18 = some (.dspReset false false false) := by decide

/-! A small state after boot, as 70_reset_and_hazards.md R184 describes it, with an empty trace. -/

/-- "00:00:00" in the first row, blanks elsewhere. -/
def shownMemory : Ddram :=
  [(0, 0x30), (1, 0x30), (2, 0x3A), (3, 0x30), (4, 0x30), (5, 0x3A), (6, 0x30), (7, 0x30)] ++ Ddram.filled 0x20 8 120

def upController : Controller where
  bus := .four
  busy := 0
  ac := 0x08
  ddram := shownMemory
  function := 0b010
  display := 0b100
  entry := 0b10
  reservedSeen := false
  freeIx := 0

def up : State :=
  { State.reset with
    cursor := 8
    lcdRs := true
    lcdDir := true
    irqEnabled := true
    boot := .idle
    controller := upController }

/-- A TimeKeeper state as the vectors write it: `(mode, cfg, cur, sc, alarm)`. -/
def timer (mode : Mode) (cfg cur : Seconds) (sc : Byte) (alarm : Bool) : State :=
  { up with mode := mode, cfg := cfg, cur := cur, sc := sc, alarm := alarm }

def timerOf (s : State) : Mode × Seconds × Seconds × Byte × Bool := (s.mode, s.cfg, s.cur, s.sc, s.alarm)

/-- A result that runs on to a state of which a check holds. -/
def ends (r : Result) (check : State → Bool) : Bool :=
  match r with
  | .next t => check t
  | .fault _ => false
  | .refused _ => false

/-- An event that stays as it is at level L2. -/
def plain (e : Event) : Event2 := .other (.other e)

/-- `R(text)` of the vectors. -/
def renders (text : List Byte) : List Event2 :=
  [.byte false 0x01, plain (.wait 2000)] ++ text.map (Event2.byte true)

def zeros : List Byte := [0x30, 0x30, 0x3A, 0x30, 0x30, 0x3A, 0x30, 0x30]

/-! The wire and the driver (95_test_vectors.md 2.1, 2.3, 2.4). -/

theorem test_writeNibble : ends (exec (.writeNibble 0xA) up) (fun t => t.lcdD == 0xA && !t.lcdEn && decide
    (t.trace = [.d 0xA, .en false, .wait 1, .en true, .wait 1, .en false, .wait 100])) = true := by decide

theorem test_nib : ends (exec (.nib 0) up) (fun t => t.lcdD == 0 && t.lcdRs && decide
    (t.trace = [.d 0, .en false, .wait 1, .en true, .wait 1, .en false, .wait 100])) = true := by decide

theorem test_writeByte : ends (exec (.writeByte true 0x3A) up) (fun t => t.lcdRs && t.lcdD == 0xA && decide
    (t.trace = [.rs true, .d 3, .en false, .wait 1, .en true, .wait 1, .en false, .wait 100,
      .d 0xA, .en false, .wait 1, .en true, .wait 1, .en false, .wait 100])) = true := by decide

theorem test_command : ends (exec (.command 0xC0) up) (fun t => !t.lcdRs && t.lcdD == 0 &&
    decide (toL2 t.trace = [.byte false 0xC0])) = true := by decide

theorem test_data : ends (exec (.data 0x41) up) (fun t => t.controller.ac == 0x09 &&
    decide (t.controller.ddram.read 0x08 = some 0x41) && decide (toL2 t.trace = [.byte true 0x41])) = true := by decide

theorem test_setCursor_cutoff : ends (exec (.setCursor 8) up) (fun t => t.cursor == 8 && t.controller.ac == 0x40 &&
    decide (toL2 t.trace = [.byte false 0xC0])) = true := by decide

theorem test_setCursor_clamps : ends (exec (.setCursor 255) up) (fun t => t.cursor == 15 && t.controller.ac == 0x47 &&
    decide (toL2 t.trace = [.byte false 0xC7])) = true := by decide

theorem test_clear : ends (exec .clear up) (fun t => t.cursor == 0 && t.controller.ac == 0 && t.controller.busy == 0 &&
    decide (t.controller.shown 0 = some 0x20) &&
    decide (toL2 t.trace = [.byte false 0x01, plain (.wait 2000)])) = true := by decide

theorem test_home : ends (exec .home up) (fun t => t.cursor == 0 && t.controller.ac == 0 &&
    decide (t.controller.shown 2 = some 0x3A) &&
    decide (toL2 t.trace = [.byte false 0x02, plain (.wait 2000)])) = true := by decide

theorem test_writeChar_switchesRow : ends (exec (.writeChar 0x49) up) (fun t => t.cursor == 9 &&
    decide (t.controller.shown 8 = some 0x49) && decide (t.controller.ddram.read 0x08 = some 0x20) &&
    decide (toL2 t.trace = [.byte false 0xC0, .byte true 0x49])) = true := by decide

theorem test_writeChar_past_15 : exec (.writeChar 0x41) { up with cursor := 16 } = .refused .writePastColumn15 := rfl

theorem test_addText_crossesRows :
    ends (exec (.addText [0x78, 0x79, 0x7A]) { up with cursor := 6, controller := { upController with ac := 6 } })
      (fun t => t.cursor == 9 &&
        decide (toL2 t.trace = [.byte true 0x78, .byte true 0x79, .byte false 0xC0, .byte true 0x7A])) = true := by
  decide

theorem test_addText_past_15 : exec (.addText [0x61, 0x62]) { up with cursor := 15 } = .refused .writePastColumn15 := rfl

theorem test_setText_empty : ends (exec (.setText []) up) (fun t => t.cursor == 0 &&
    decide (toL2 t.trace = [.byte false 0x01, plain (.wait 2000)])) = true := by decide

theorem test_setText_fills_the_row :
    ends (exec (.setText [0x41, 0x42, 0x43, 0x44, 0x45, 0x46, 0x47, 0x48, 0x49, 0x4A, 0x4B, 0x4C, 0x4D, 0x4E, 0x4F, 0x50]) up)
      (fun t => t.cursor == 16 && t.controller.ac == 0x48 && decide (t.controller.ddram.read 0x07 = some 0x48) &&
        decide (t.controller.ddram.read 0x40 = some 0x49) && decide (t.controller.ddram.read 0x47 = some 0x50)) = true := by
  decide

/-- The registers `initialize()` sends to (10_state.md R27-R29, 93_implementation_defined.md U6), from power-up. -/
theorem test_initialize : ends (exec .initializeDisplay State.reset) (fun t => t.cursor == 0 && t.lcdD == 6 && !t.lcdRs &&
    t.controller.function == 0b010 && t.controller.display == 0b100 && t.controller.entry == 0b10 &&
    decide (t.controller.bus = .four) && duration t.trace == 47524 && t.trace.length == 95) = true := by decide

theorem test_driver_before_initialize : exec .clear State.reset = .refused .driverBeforeInitialize := rfl

/-! Wire words: 30_encoding.md R65-R72, the controller by 20_memory.md R48, R49 and 10_state.md R27-R29. -/

theorem test_lcdClear : ends (exec .lcdClear up) (fun t => t.cursor == 8 && t.controller.ac == 0 &&
    decide (t.controller.shown 7 = some 0x20) && decide (toL2 t.trace = [.byte false 0x01])) = true := by decide

theorem test_lcdHome : ends (exec .lcdHome up) (fun t => t.controller.ac == 0 &&
    decide (toL2 t.trace = [.byte false 0x02])) = true := by decide

theorem test_lcdEntry : ends (exec (.lcdEntry true false) up) (fun t => t.controller.entry == 0b10 &&
    !t.controller.reservedSeen && decide (toL2 t.trace = [.byte false 0x06])) = true := by decide

theorem test_lcdDisplay : ends (exec (.lcdDisplay true false false) up) (fun t => t.controller.display == 0b100 &&
    !t.controller.reservedSeen && decide (toL2 t.trace = [.byte false 0x0C])) = true := by decide

/-- A reserved byte (30_encoding.md R74): the verdict, and no step: neither mode nor cells known. -/
theorem test_lcdDisplay_reserved : ends (exec (.lcdDisplay true true false) up) (fun t => t.controller.reservedSeen &&
    decide (t.controller.bus = .unknown 0) && decide (t.controller.shown 0 = none) &&
    decide (toL2 t.trace = [.byte false 0x0E])) = true := by decide

theorem test_lcdFunction : ends (exec (.lcdFunction false true false 0) up) (fun t => t.controller.function == 0b010 &&
    !t.controller.reservedSeen && decide (toL2 t.trace = [.byte false 0x28])) = true := by decide

theorem test_lcdSetAddr : ends (exec (.lcdSetAddr 0x47) up) (fun t => t.controller.ac == 0x47 &&
    !t.controller.reservedSeen && decide (toL2 t.trace = [.byte false 0xC7])) = true := by decide

theorem test_lcdData_wraps :
    ends (exec (.lcdData 0x41) { up with controller := { upController with ac := 0x7F } }) (fun t => t.controller.ac == 0 &&
      decide (t.controller.ddram.read 0x7F = some 0x41) && decide (toL2 t.trace = [.byte true 0x41])) = true := by decide

theorem test_hsNib3 : ends (exec .hsNib3 { up with controller := { upController with bus := .unknown 2 } })
    (fun t => decide (t.controller.bus = .eight) && t.lcdD == 3) = true := by decide

/-- After the first handshake nibble 4.1 ms are due (70_reset_and_hazards.md R193), 100 microseconds of them made. -/
theorem test_hsNib3_waits : ends (exec .hsNib3 { up with controller := { upController with bus := .unknown 0 } })
    (fun t => decide (t.controller.bus = .unknown 1) && t.controller.busy == 4000) = true := by decide

theorem test_hsNib2 : ends (exec .hsNib2 { up with controller := { upController with bus := .eight } })
    (fun t => decide (t.controller.bus = .four) && t.lcdD == 2) = true := by decide

/-- A pulse in 8-bit mode is a whole character with that upper half, and the mode stays (30_encoding.md R70, D7). -/
theorem test_nib_eight : ends (exec (.nib 8) { up with lcdRs := true, controller := { upController with bus := .eight } })
    (fun t => decide (t.controller.bus = .eight) && t.controller.ac == 9 &&
      (t.controller.ddram.read 0x08).isSome) = true := by decide

/-- After an odd nibble the halves of 0x41 are read as 0x04 and the high half of the next byte (20_memory.md R54). -/
theorem test_writeByte_after_odd_nibble :
    ends (exec (.data 0x41) { up with controller := { upController with bus := .fourHalf true 0 100 } }) (fun t =>
      decide (t.controller.bus = .fourHalf true 1 100) && decide (t.controller.ddram.read 0x08 = some 0x04)) = true := by decide

/-! The TimeKeeper (95_test_vectors.md 1.4-1.8, 2.5, 2.6). -/

theorem test_twoDigits : twoDigits 7 = [0x30, 0x37] ∧ twoDigits 100 = [0x39, 0x30] ∧ twoDigits 255 = [0x39, 0x35] := by
  decide

theorem test_renderText_saturates :
    renderText 4294967295 true = [0x39, 0x35, 0x3A, 0x32, 0x38, 0x3A, 0x31, 0x35] := by decide

theorem test_startButton_counts_down : ends (exec .startButton (timer .stopped 90 33 7 false)) (fun t =>
    decide (timerOf t = (.running, 90, 90, 0, false)) &&
    decide (toL2 t.trace = renders [0x30, 0x30, 0x3A, 0x30, 0x31, 0x3A, 0x33, 0x30])) = true := by decide

theorem test_startButton_leaves_alarm : ends (exec .startButton (timer .alarm 90 0 5 false)) (fun t =>
    decide (timerOf t = (.stopped, 90, 0, 0, false)) &&
    decide (toL2 t.trace = plain (.alarm false) :: renders [0x30, 0x30, 0x3A, 0x30, 0x31, 0x3A, 0x33, 0x30]))
      = true := by decide

theorem test_secButton_wraps : ends (exec .secButton (timer .stopped 0xFFFFFFFF 0 0 false)) (fun t =>
    decide (timerOf t = (.stopped, 0, 0, 0, false)) && decide (toL2 t.trace = renders zeros)) = true := by decide

theorem test_secButton_paused : ends (exec .secButton (timer .paused 90 30 3 false)) (fun t =>
    decide (timerOf t = (.paused, 90, 31, 3, false)) &&
    decide (toL2 t.trace = renders [0x30, 0x30, 0x20, 0x30, 0x30, 0x20, 0x33, 0x31])) = true := by decide

theorem test_minButton_running : ends (exec .minButton (timer .running 90 30 2 false)) (fun t =>
    decide (timerOf t = (.running, 90, 90, 2, false))) = true := by decide

theorem test_minButton_stopwatch_keeps : ends (exec .minButton (timer .paused 0 30 2 false)) (fun t =>
    decide (timerOf t = (.paused, 0, 30, 2, false)) &&
    decide (toL2 t.trace = renders [0x30, 0x30, 0x3A, 0x30, 0x30, 0x3A, 0x33, 0x30])) = true := by decide

theorem test_resetGesture : ends (exec .resetGesture (timer .alarm 90 0 4 true)) (fun t =>
    decide (timerOf t = (.stopped, 0, 0, 0, false)) &&
    decide (toL2 t.trace = plain (.alarm false) :: renders zeros)) = true := by decide

theorem test_tick_enters_alarm : ends (exec .tick (timer .running 90 1 89 false)) (fun t =>
    decide (timerOf t = (.alarm, 90, 0, 0, true)) &&
    decide (toL2 t.trace = plain (.alarm true) :: renders zeros)) = true := by decide

theorem test_tick_countdown_wraps : ends (exec .tick (timer .running 90 0 3 false)) (fun t =>
    decide (timerOf t = (.running, 90, 0xFFFFFFFF, 4, false)) &&
    decide (toL2 t.trace = renders [0x39, 0x35, 0x3A, 0x32, 0x38, 0x3A, 0x31, 0x35])) = true := by decide

theorem test_render_blinks : ends (exec .render (timer .paused 3725 99 1 false)) (fun t => t.cursor == 8 &&
    decide (toL2 t.trace = renders [0x30, 0x30, 0x20, 0x30, 0x31, 0x20, 0x33, 0x39])) = true := by decide

/-! The dispatcher (95_test_vectors.md 2.7; 42_input_dispatcher.md R132-R134). -/

theorem test_dspReset : ends (exec (.dspReset false true true) { up with efSec := true, efMin := true }) (fun t =>
    !t.efSec && !t.efMin && decide (toL2 t.trace = plain (.wait 50000) :: plain (.clrf .sec) ::
      plain (.clrf .min) :: plain (.alarm false) :: renders zeros)) = true := by decide

theorem test_dspStart : ends (exec (.dspStart true false true true) { up with efStart := true, efSec := true }) (fun t =>
    !t.efStart && t.efSec && decide (t.mode = .running) &&
    decide (toL2 t.trace = renders zeros ++ [plain (.wait 150000), plain (.clrf .start)])) = true := by
  decide

theorem test_dspSec : ends (exec (.dspSec false false true) { up with efSec := true, efMin := true }) (fun t =>
    !t.efSec && t.efMin && t.cfg == 1) = true := by decide

theorem test_dspMin : ends (exec (.dspMin false true) { up with efMin := true }) (fun t => !t.efMin && t.cfg == 60) = true := by
  decide

theorem test_dspNone : ends (exec (.dspNone true false) up) (fun t => decide (t = up)) = true := by decide

theorem test_handler_services_sec :
    ends (exec .handler { up with tc := 3, efSec := true, efMin := true, tp := true }) (fun t =>
      decide (timerOf t = (.stopped, 1, 0, 0, false)) && t.tc == 4 && !t.efSec && t.efMin && !t.tp &&
      decide (t.ctx = .foreground) && decide (toL2 t.trace =
        renders [0x30, 0x30, 0x3A, 0x30, 0x30, 0x3A, 0x30, 0x31] ++
          [plain (.wait 150000), plain (.clrf .sec)])) = true := by decide

theorem test_handler_ticks : ends (exec .handler { up with tc := 24 }) (fun t =>
    decide (timerOf t = (.stopped, 0, 0, 1, false)) && t.tc == 0 && decide (toL2 t.trace = renders zeros)) = true := by
  decide

/-! Steps. -/

theorem test_step_boots_then_runs :
    ends (step (State.reset.withFetchWord 8 0xF)) (fun t => t.tc == 1 && t.cursor == 8 && decide (t.inbox = [])) = true := by
  decide

theorem test_step_takes_the_press : ends (step { up with inbox := [.press .sec] }) (fun t =>
    t.lvlSec && t.efSec && decide (t.inbox = [])) = true := by decide

/-- Two ticks before the block runs on are one request (70_reset_and_hazards.md R196). -/
theorem test_ticks_merge :
    ends (Host.Core.run Sys2Proof.core 4 { up with inbox := [.hardwareTick, .hardwareTick, .proceed, .proceed] }) (fun t =>
      t.tc == 1 && !t.tp && decide (t.inbox = [])) = true := by decide

/-- Sec rises again in its own debounce wait, with Min held, and the clear erases the edge (20_memory.md R56): the level
alone stands, and the next invocation takes the gesture (42_input_dispatcher.md R132, R135). -/
theorem test_raised_level_alone :
    ends (Host.Core.run Sys2Proof.core 2 { timer .stopped 90 0 7 false with lvlMin := true, inbox := [.raise .sec] })
      (fun t => t.lvlSec && !t.efSec && t.cfg == 90) = true ∧
    ends (Host.Core.run Sys2Proof.core 2 { timer .stopped 90 0 7 false with
      lvlMin := true, tp := true, inbox := [.raise .sec, .proceed] }) (fun t => t.lvlSec && !t.efSec && t.cfg == 0) = true := by
  decide

/-- A handshake nibble long after an odd nibble counts as the first of a handshake; the second, 4.1 ms after one that was a
high half, as the second (30_encoding.md R70). -/
theorem test_hsNib3_resynchronises :
    ends (exec .hsNib3 { up with controller := { upController with bus := .fourHalf true 5 40000 } })
      (fun t => decide (t.controller.bus = .unknown 1)) = true ∧
    ends (exec .hsNib3 { up with controller := { upController with bus := .fourHalf false 3 4200 } })
      (fun t => decide (t.controller.bus = .unknown 2)) = true := by decide

/-- A power-up in the middle of boot begins it again (70_reset_and_hazards.md R180). -/
theorem test_powerUp_in_boot :
    ends (Host.Core.run Sys2Proof.core 2 { State.reset with inbox := [.proceed, .powerUp] }) (fun t =>
      decide (t.boot = .bringUp) && !t.lcdDir && decide (t.trace = [])) = true := by decide

theorem test_step_idles : step up = .next up := rfl

/-! Witnesses: for every statement that has hypotheses, a state and operands that meet them together. -/

theorem up_ready : up.controller.Ready := ⟨rfl, rfl, rfl, rfl, rfl, rfl⟩

theorem up_agrees : up.controller.Agrees 8 :=
  ⟨up_ready, by decide, by decide, fun _ => .inl rfl, by decide⟩

theorem up_linked : up.Linked := ⟨rfl, rfl, up_agrees⟩

theorem up_inv : up.Inv := ⟨fun _ => rfl, by decide, by decide, rfl, rfl, rfl, rfl, by decide⟩

theorem up_shows : up.Shows up.text := by
  have h : ∀ c, c < 16 → up.controller.shown c = some (up.text.getD c 0x20#8) := by decide
  exact h

theorem up_displayInv : up.DisplayInv :=
  ⟨up_inv, rfl, nofun, fun _ => ⟨up_linked, up_shows, rfl⟩⟩

/-- A cursor that agrees with the controller, for the boundary columns. -/
def upAt (cursor : Byte) (ac : Address) : State := { up with cursor := cursor, controller := { upController with ac := ac } }

theorem upAt_linked {cursor : Byte} {ac : Address} (h1 : cursor.toNat ≤ 16) (h2 : cursor.toNat < 8 → ac.toNat = cursor.toNat)
    (h3 : cursor.toNat = 8 → ac = 0x08#7 ∨ ac = 0x40#7) (h4 : 8 < cursor.toNat → ac.toNat = cursor.toNat + 0x38) :
    (upAt cursor ac).Linked := ⟨rfl, rfl, ⟨rfl, rfl, rfl, rfl, rfl, rfl⟩, h1, h2, h3, h4⟩

/-- The instruction runs on from the state. -/
def runsOn (i : Instr) (s : State) : Bool := ends (exec i s) (fun _ => true)

theorem runsOn_next {i : Instr} {s : State} (h : runsOn i s = true) : ∃ t, exec i s = .next t := by
  unfold runsOn at h
  cases e : exec i s with
  | next t => exact ⟨t, rfl⟩
  | fault _ => rw [e] at h; cases h
  | refused _ => rw [e] at h; cases h

theorem witness_DecodeOfEncodeIsCanonical : (Instr.dspSec true false true).wellFormed = true ∧
    (Instr.lcdSetAddr 0x7F).wellFormed = true := by decide

theorem witness_EncodeOfDecodeIsTheWord : decode .wire9 [0b11111111, 0b0] = .ok (.lcdSetAddr 0x7F) := by decide

theorem witness_ColumnAddressesFollowTheOffsetLogic : (7 < 16 ∧ 7 < 8) ∧ (8 < 16 ∧ ¬ 8 < 8) ∧ 15 < 16 := by decide

theorem witness_MemoryReadsBackWhatWasWritten : shownMemory.wf = true ∧ 127 < 128 ∧ (0 : Nat) ≠ 127 := by decide

theorem witness_BlockNeverReadsTheDisplay : SameBlock up { up with controller := Controller.reset } ∧
    upController ≠ Controller.reset := ⟨rfl, by decide⟩

theorem witness_NibbleTransferPulsesEnableOnce : up.lcdDir = true ∧
    (Instr.nib 5 = .writeNibble 5 ∨ Instr.nib 5 = .nib 5) := by decide

theorem witness_ByteTransactionSendsHighNibbleFirst : up.lcdDir = true ∧
    (true = true ∧ Instr.data 0x41 = .data 0x41) ∧ (false = false ∧ Instr.command 0x28 = .command 0x28) := by decide

theorem witness_WireWordsSendTheirPatterns : up.lcdDir = true := rfl

theorem witness_HandshakeNibblesAreSingleTransfers : up.lcdDir = true ∧ (Instr.hsNib3 = .hsNib3 ∧ (3 : Nibble) = 3) ∧
    (Instr.hsNib2 = .hsNib2 ∧ (2 : Nibble) = 2) := by decide

theorem witness_HandshakeReachesFourBitModeFromAnyState : up.lcdDir = true := rfl

theorem witness_SetCursorSendsTheClampedColumn : (upAt 16 0x48).lcdDir = true ∧ min (7 : Byte).toNat 15 < 8 ∧
    ¬ min (8 : Byte).toNat 15 < 8 ∧ min (255 : Byte).toNat 15 = 15 := by decide

theorem witness_ClearAndHomeWaitAndResetTheCursor : (upAt 16 0x48).lcdDir = true := rfl

theorem witness_RenderShowsTheModesValue : (timer .paused 3725 99 1 false).lcdDir = true ∧
    (timer .paused 3725 99 1 false).mode = .paused := by decide

theorem witness_ResetGestureReinitialisesTheTimer : (timer .alarm 90 0 4 true).lcdDir = true := rfl

theorem witness_DispatchRowsServeTheirEvents : up.lcdDir = true := rfl

theorem witness_HandlerTicksThenDispatchesThenReturns : { up with tc := 24 }.irqEnabled = true ∧
    { up with tc := 24 }.ctx = .foreground ∧ { up with tc := 24 }.tc + 1 = 25 := by decide

theorem witness_HandlerClearsOnlyTheServicedFlags :
    { up with efSec := true, efMin := true, lvlSec := true, lvlMin := true }.irqEnabled = true ∧
    { up with efSec := true, efMin := true, lvlSec := true, lvlMin := true }.ctx = .foreground ∧
    { up with efSec := true, efMin := true, lvlSec := true, lvlMin := true }.lcdDir = true := by decide

theorem witness_ControllerObeysWireWords : up.lcdDir = true ∧ up.controller.bus = .four ∧ up.controller.busy = 0 ∧
    up.controller.entry.getLsbD 1 = true ∧ (0x07 : Address).toNat ≤ 0x07 ∧
    (0x40 ≤ (0x40 : Address).toNat ∧ (0x47 : Address).toNat ≤ 0x47) ∧ wireVerdict false 0x0E ≠ .emitted ∧
    wireVerdict false 0x30 ≠ .emitted ∧ wireVerdict false 0x00 ≠ .emitted := by decide

theorem witness_WriteCharSwitchesRowAtColumnEight :
    ((upAt 15 0x47).cursor.toNat < 16 ∧ (upAt 15 0x47).cursor ≠ 8) ∧ ((upAt 7 0x07).cursor.toNat < 16 ∧ (upAt 7 0x07).cursor ≠ 8) ∧
    (upAt 8 0x08).cursor = 8 ∧ 16 ≤ (upAt 16 0x48).cursor.toNat ∧ (upAt 16 0x48).lcdDir = true := by decide

theorem witness_OnlyCharactersStoreAndInTheirColumn :
    (upAt 0 0x00).Linked ∧ (∃ t, exec (.writeChar 0x41) (upAt 0 0x00) = .next t) ∧
    (upAt 8 0x40).Linked ∧ (∃ t, exec (.writeChar 0x41) (upAt 8 0x40) = .next t) ∧
    (upAt 15 0x47).Linked ∧ (∃ t, exec (.writeChar 0x41) (upAt 15 0x47) = .next t) ∧
    up.Linked ∧ (∃ t, exec (.setCursor 255) up = .next t) ∧ ∃ t, exec .home up = .next t :=
  ⟨upAt_linked (by decide) (by decide) (by decide) (by decide), runsOn_next (by decide),
    upAt_linked (by decide) (by decide) (by decide) (by decide), runsOn_next (by decide),
    upAt_linked (by decide) (by decide) (by decide) (by decide), runsOn_next (by decide),
    up_linked, runsOn_next (by decide), runsOn_next (by decide)⟩

theorem witness_AddTextWritesCharactersInOrder :
    (upAt 15 0x47).lcdDir = true ∧ (upAt 15 0x47).cursor.toNat + [(0x41 : Byte)].length ≤ 16 ∧
    (upAt 15 0x47).cursor.toNat ≤ 16 ∧ 16 < (upAt 15 0x47).cursor.toNat + [(0x41 : Byte), 0x42].length := by decide

theorem witness_SetTextClearsThenWrites : (List.replicate 16 (0x41 : Byte)).length ≤ 16 ∧
    16 < (List.replicate 17 (0x41 : Byte)).length ∧ up.lcdDir = true := by decide

theorem witness_SetTextIsWhatTheDisplayShows : up.controller.Ready ∧
    (∃ t, exec (.setText (List.replicate 16 0x41)) up = .next t) ∧
    (∀ c, c < 16 → 0x08 ≠ (columnAddress c).toNat) := ⟨up_ready, runsOn_next (by decide), by decide⟩

theorem witness_DriverIsRefusedBeforeInitialize : State.reset.lcdDir = false ∧ Instr.tick ≠ .initializeDisplay ∧
    Instr.tick ≠ .handler ∧ ∀ a b, Instr.tick ≠ .dspNone a b := ⟨rfl, nofun, nofun, nofun⟩

theorem witness_DriverRowsKeepEverythingElse : isDriverRow .initializeDisplay = true ∧
    (∃ t, exec .initializeDisplay State.reset = .next t) ∧ isDriverRow (.writeChar 0x41) = true ∧
    (∃ t, exec (.writeChar 0x41) up = .next t) ∧ Instr.writeChar 0x41 ≠ .initializeDisplay ∧ up.lcdEn = false :=
  ⟨rfl, runsOn_next (by decide), rfl, runsOn_next (by decide), nofun, rfl⟩

theorem witness_OperationsKeepDriverAndControllerAgreeing : isRawWire .handler = false ∧ up.Linked ∧
    ∃ t, exec .handler up = .next t := ⟨rfl, up_linked, runsOn_next (by decide)⟩

theorem witness_EveryTraceMeetsTheWireContract : ∃ t, exec .render up = .next t := runsOn_next (by decide)

theorem witness_OperationsTakeTheirMinimumTime :
    (∃ t, exec (.writeNibble 0) up = .next t) ∧ (∃ t, exec (.writeByte true 0) up = .next t) ∧
    (∃ t, exec (.command 0x28) up = .next t) ∧ (∃ t, exec (.data 0x41) up = .next t) ∧
    (∃ t, exec (.setCursor 8) up = .next t) ∧ (∃ t, exec (.writeChar 0x41) up = .next t) ∧
    (∃ t, exec .clear up = .next t) ∧ (∃ t, exec .home up = .next t) ∧
    (∃ t, exec .initializeDisplay up = .next t) ∧ (∃ t, exec .render up = .next t) ∧
    (∃ t, exec .handler { up with tc := 24 } = .next t) :=
  ⟨runsOn_next (by decide), runsOn_next (by decide), runsOn_next (by decide), runsOn_next (by decide),
    runsOn_next (by decide), runsOn_next (by decide), runsOn_next (by decide), runsOn_next (by decide),
    runsOn_next (by decide), runsOn_next (by decide), runsOn_next (by decide)⟩

theorem witness_TwoDigitsClampTheTens : 0 ≤ 255 ∧ 99 ≤ 99 ∧ 100 ≤ 255 ∧ 255 ≤ 255 := by decide

theorem witness_StartButtonMovesTheMode :
    (timer .stopped 90 0 7 false).lcdDir = true ∧ (timer .stopped 90 0 7 false).mode = .stopped ∧
    (timer .paused 90 30 5 false).mode = .paused ∧ (timer .running 90 30 5 false).mode = .running ∧
    (timer .alarm 90 0 4 true).mode = .alarm := by decide

theorem witness_TimeButtonsAddSeconds : up.lcdDir = true ∧ ((60 : Seconds) = 60 ∧ Instr.minButton = .minButton) ∧
    (timer .paused 90 0xFFFFFFFF 0 false).cfg ≠ 0 := by decide

theorem witness_TickCountsAndSoundsTheAlarm :
    (timer .running 90 2 0 false).counted ≠ 0 ∧ (timer .running 90 1 0 false).counted = 0 ∧
    (timer .running 0 0xFFFFFFFF 3 false).counted = 0 ∧ (timer .alarm 90 0 255 false).mode = .alarm ∧
    (timer .paused 90 2 0 false).mode = .paused := by decide

theorem witness_AlarmAlternatesEveryTick :
    (∃ t, exec .tick (timer .alarm 90 0 255 false) = .next t) ∧
    (timer .alarm 90 0 255 false).alarm = decide ((timer .alarm 90 0 255 false).sc.toNat % 2 = 0) ∧
    ∃ t, exec .tick (timer .running 90 1 89 false) = .next t ∧ t.mode = .alarm :=
  ⟨runsOn_next (by decide), by decide, by
    have h : ends (exec .tick (timer .running 90 1 89 false)) (fun t => decide (t.mode = .alarm)) = true := by decide
    cases e : exec .tick (timer .running 90 1 89 false) with
    | next t => rw [e] at h; exact ⟨t, rfl, by simpa [ends] using h⟩
    | fault _ => rw [e] at h; cases h
    | refused _ => rw [e] at h; cases h⟩

/-- In on the 25th invocation; out by the Start flag, or by the gesture. -/
theorem witness_AlarmIsEnteredAndLeftOnlyAsTheTableSays :
    ends (exec .handler { timer .running 90 1 0 false with tc := 24 }) (fun t => decide (t.mode = .alarm)) = true ∧
    ends (exec .handler { timer .alarm 90 0 0 true with efStart := true }) (fun t => decide (t.mode ≠ .alarm)) = true ∧
    ends (exec .resetGesture (timer .alarm 90 0 0 true)) (fun t => decide (t.mode ≠ .alarm)) = true := by decide

theorem witness_EventsShowTheStateTheyLeave : up.Linked ∧ (∃ t, exec .startButton up = .next t) ∧
    (∃ t, exec .secButton up = .next t) ∧ (∃ t, exec .minButton up = .next t) ∧
    (∃ t, exec .resetGesture up = .next t) ∧ (∃ t, exec .tick up = .next t) ∧ ∃ t, exec .render up = .next t :=
  ⟨up_linked, runsOn_next (by decide), runsOn_next (by decide), runsOn_next (by decide), runsOn_next (by decide),
    runsOn_next (by decide), runsOn_next (by decide)⟩

theorem witness_IdleInvocationChangesOnlyTheTickCounter :
    up.irqEnabled = true ∧ up.ctx = .foreground ∧ { up with tc := 23 }.tc + 1 ≠ 25 ∧ up.efStart = false ∧
    up.efSec = false ∧ up.efMin = false ∧ ({ up with lvlSec := true }.lvlSec && { up with lvlSec := true }.lvlMin) = false := by
  decide

theorem witness_HandlerIsRefusedEarlyAndNested : State.reset.irqEnabled = false ∧
    { up with ctx := .inHandler }.irqEnabled = true ∧ { up with ctx := .inHandler }.ctx = .inHandler := by decide

theorem witness_StepRunsTheDecodedOperation :
    { up with inbox := [.operation .opsel [0xF]] }.boot = .idle ∧ decode .opsel [0xF] = .ok .handler ∧
    decode .wire9 [0x00, 0] = .error .noBaseCode ∧ decodeTableWord 8 0xF = some .handler := by decide

theorem witness_StepLetsTheEnvironmentActThenTheBlock :
    ({ up with inbox := [.press .start] } : State).inbox = .press .start :: [] ∧ Input.press .start ≠ .proceed ∧
    (Input.press .start).isOperation = false ∧ ({ up with inbox := [.proceed] } : State).inbox = .proceed :: [] ∧
    up.boot = .idle ∧ { up with tp := true }.irqEnabled = true ∧ { up with tp := true }.ctx = .foreground ∧
    (up.tp && up.irqEnabled && decide (up.ctx = .foreground)) = false ∧ up.inbox = [] ∧
    ({ up with inbox := [.hardwareTick, .hardwareTick, .proceed] } : State).inbox =
      List.replicate (1 + 1) .hardwareTick ++ .proceed :: [] := by decide

theorem witness_EnvironmentSetsInputsFlagsAndRequest : Button.start ≠ .sec ∧ Button.min ≠ .sec := by decide

theorem witness_BootBringsUpRendersAndEnables : State.reset.boot = .bringUp ∧ up.powerUp.boot = .bringUp ∧
    (∀ input rest, State.reset.inbox = input :: rest → input.isOperation = true) ∧
    (∀ input rest, ({ State.reset with inbox := [.operation .opsel [2]] } : State).inbox = input :: rest →
      input.isOperation = true) := ⟨rfl, rfl, nofun, fun _ _ h => by cases h; rfl⟩

theorem witness_PowerUpRestartsFromReset :
    ({ State.reset with boot := .firstRender, inbox := [.powerUp] } : State).inbox = .powerUp :: [] ∧
    KeepsEnvironment up up.enterHandler := ⟨rfl, rfl, rfl, rfl, rfl⟩

theorem witness_EveryStepKeepsTheInvariant : up.Inv ∧ (∃ t, step up = .next t) ∧
    ({ up with inbox := [.powerUp] } : State).Inv ∧ ∃ t, step { up with inbox := [.powerUp] } = .next t :=
  ⟨up_inv, ⟨up, test_step_idles⟩, ⟨fun _ => rfl, by decide, by decide, rfl, rfl, rfl, rfl, by decide⟩, ⟨_, rfl⟩⟩

theorem witness_TheDisplayAlwaysShowsTheCurrentState : up.DisplayInv ∧ ∃ t, step up = .next t :=
  ⟨up_displayInv, up, test_step_idles⟩

theorem witness_TheDeviceNeverStops :
    ({ up with tp := true, efStart := true, inbox := [.release .start, .hardwareTick, .powerUp] } : State).DisplayInv :=
  ⟨⟨fun _ => rfl, by decide, by decide, rfl, rfl, rfl, rfl, by decide⟩, rfl, nofun,
    fun _ => ⟨⟨rfl, rfl, up_agrees⟩, up_shows, rfl⟩⟩

theorem witness_TraceOnlyGrowsAndIsNeverRead : (∃ t, exec .tick up = .next t) ∧
    exec .tick State.reset = .refused .driverBeforeInitialize := ⟨runsOn_next (by decide), rfl⟩

theorem witness_NibblesPairInFourBitModeAndAreWholeInEight : up.lcdDir = true ∧ up.controller.busy = 0 ∧
    up.controller.bus = .four ∧ (true = true ∧ true = true) ∧
    ((0x70 : Byte).extractLsb' 4 4 ≠ 3 ∧ wireVerdict false (joinNibbles 8 ((0x70 : Byte).extractLsb' 4 4)) = .emitted ∧
      joinNibbles 8 ((0x70 : Byte).extractLsb' 4 4) ≠ 0x01 ∧ joinNibbles 8 ((0x70 : Byte).extractLsb' 4 4) ≠ 0x02) ∧
    { upController with bus := .fourHalf true 4 500 }.bus = .fourHalf true 4 500 ∧
    ({ up with lcdRs := false, controller := { upController with bus := .fourHalf false 3 100 } } : State).controller.bus =
      .fourHalf false 3 100 ∧
    wireVerdict false (joinNibbles 3 3) ≠ .emitted ∧ (100 : Nat) ≤ 100 ∧
    { upController with bus := .eight }.bus = .eight ∧ upController.entry.getLsbD 1 = true ∧ up.lcdRs = true ∧
    { up with lcdRs := false }.lcdRs = false ∧ ((4 : Nibble) ≠ 3 ∧ (4 : Nibble) ≠ 2) ∧ (true ≠ false ∧ (0x07 : Nat) ≠ 0x08) := by
  decide

end Sys2Proof.Tests
end

/-! PROOFS. State and reset (10_state.md): what the driver's rows leave alone, the invariant's step lemma, and what no
instruction reads. -/

namespace Sys2Proof.Machine

/-! The driver and wire rows leave everything outside the driver alone (40_display_driver.md R103). -/

theorem KeepsOutsideDriver.refl (s : State) : KeepsOutsideDriver s s :=
  ⟨⟨rfl, rfl, rfl, rfl, rfl⟩, ⟨rfl, rfl, rfl⟩, ⟨rfl, rfl, rfl, rfl⟩, ⟨rfl, rfl, rfl, rfl⟩, rfl⟩

theorem KeepsOutsideDriver.trans {s t u : State} (h : KeepsOutsideDriver s t) (k : KeepsOutsideDriver t u) :
    KeepsOutsideDriver s u := by
  simp only [KeepsOutsideDriver, KeepsTime, KeepsFlags, KeepsEnvironment, KeepsControl] at h k ⊢
  simp only [h, k, and_self]

/-- An update of the tracked cursor, the lines, the trace and the controller. -/
theorem KeepsOutsideDriver.of_update (s : State) (cursor : Byte) (rs en dir : Bool) (d : Nibble) (trace : List Event)
    (c : Controller) : KeepsOutsideDriver s { s with
      cursor := cursor, lcdRs := rs, lcdEn := en, lcdDir := dir, lcdD := d, trace := trace, controller := c } :=
  .refl s

theorem State.pulseNibble_keeps (n : Nibble) (s : State) : KeepsOutsideDriver s (s.pulseNibble n) := by
  rw [State.pulseNibble_eq]; exact .of_update ..

theorem State.driveSelect_keeps (v : Bool) (s : State) : KeepsOutsideDriver s (s.driveSelect v) := .refl s

theorem State.sendByte_keeps (rs : Bool) (b : Byte) (s : State) : KeepsOutsideDriver s (s.sendByte rs b) := by
  rw [State.sendByte_eq]; exact .of_update ..

theorem State.moveCursor_keeps (col : Byte) (s : State) : KeepsOutsideDriver s (s.moveCursor col) := by
  rw [State.moveCursor_eq]; exact .of_update ..

theorem State.clearDisplay_keeps (s : State) : KeepsOutsideDriver s s.clearDisplay := by
  rw [State.clearDisplay_eq]; exact .of_update ..

theorem State.homeDisplay_keeps (s : State) : KeepsOutsideDriver s s.homeDisplay := by
  rw [State.homeDisplay_eq]; exact .of_update ..

theorem State.bringUpDisplay_keeps (s : State) : KeepsOutsideDriver s s.bringUpDisplay := by
  rw [State.bringUpDisplay_eq]; exact .of_update ..

theorem putChar_keeps {s t : State} {ch : Byte} (h : putChar ch s = .next t) : KeepsOutsideDriver s t := by
  obtain ⟨_, _, rfl⟩ := putChar_eq_next h
  rw [State.placeChar_eq]; exact .of_update ..

theorem putText_keeps {s t : State} {text : List Byte} (h : putText text s = .next t) : KeepsOutsideDriver s t := by
  induction text generalizing s with
  | nil => cases h; exact .refl _
  | cons ch rest ih =>
    obtain ⟨u, h1, h2⟩ := andThen_eq_next h
    exact (putChar_keeps h1).trans (ih h2)

theorem replaceText_keeps {s t : State} {text : List Byte} (h : replaceText text s = .next t) : KeepsOutsideDriver s t :=
  s.clearDisplay_keeps.trans (putText_keeps h)

/-- A driver operation that is one update of the state. -/
theorem withDriver_update_keeps {s t : State} {f : State → State} (h : (s.withDriver fun u => .next (f u)) = .next t)
    (hf : KeepsOutsideDriver s (f s)) : KeepsOutsideDriver s t := by
  obtain ⟨_, e⟩ := State.withDriver_eq_next h
  cases e
  exact hf

/-- A row of the driver or of the wire that runs on leaves everything outside the driver as it was. -/
theorem exec_driverRow_keeps {i : Instr} {s t : State} (hr : isDriverRow i = true) (h : exec i s = .next t) :
    KeepsOutsideDriver s t := by
  cases i with
  | lcdClear | lcdHome | lcdEntry | lcdDisplay | lcdFunction | lcdSetAddr | lcdData | writeByte | command | data =>
    exact withDriver_update_keeps h (s.sendByte_keeps _ _)
  | hsNib3 | hsNib2 =>
    exact withDriver_update_keeps (f := fun u => (u.driveSelect _).pulseNibble _) h ((s.driveSelect_keeps _).trans (State.pulseNibble_keeps _ _))
  | nib n | writeNibble n => exact withDriver_update_keeps h (s.pulseNibble_keeps n)
  | initializeDisplay =>
    obtain rfl : s.bringUpDisplay = t := Host.Outcome.next.inj h
    exact s.bringUpDisplay_keeps
  | setCursor col => exact withDriver_update_keeps h (s.moveCursor_keeps col)
  | clear => exact withDriver_update_keeps h s.clearDisplay_keeps
  | home => exact withDriver_update_keeps h s.homeDisplay_keeps
  | setText text => exact replaceText_keeps (State.withDriver_eq_next h).2
  | addText text => exact putText_keeps (State.withDriver_eq_next h).2
  | writeChar ch => exact putChar_keeps (State.withDriver_eq_next h).2
  | dspReset | dspStart | dspSec | dspMin | dspNone | startButton | secButton | minButton | resetGesture | tick | render
  | handler => cases hr

/-! Every step keeps the invariant. -/

theorem KeepsOutsideDriver.alarmSafe {s t : State} (h : KeepsOutsideDriver s t) : AlarmSafe s t := by
  obtain ⟨⟨_, _, _, hmode, halarm⟩, _, _, ⟨hctx, _, _, _⟩, hticks⟩ := h
  exact .of_same hmode halarm hctx hticks

/-- Every instruction but Handler keeps the alarm off outside Alarm and leaves context and tick counter. -/
theorem exec_alarmSafe {i : Instr} {s t : State} (hi : i ≠ .handler) (h : exec i s = .next t) : AlarmSafe s t := by
  by_cases hr : isDriverRow i = true
  · exact (exec_driverRow_keeps hr h).alarmSafe
  cases i with
  | startButton => exact s.toggleRun_alarmSafe.trans (renderDisplay_alarmSafe h)
  | secButton | minButton => exact (s.addTime_alarmSafe _).trans (renderDisplay_alarmSafe h)
  | resetGesture => exact s.reinitialise_alarmSafe.trans (renderDisplay_alarmSafe h)
  | tick => exact s.secondTick_alarmSafe.trans (renderDisplay_alarmSafe h)
  | render => exact renderDisplay_alarmSafe h
  | dspReset => exact serveRow_alarmSafe (row := .reset) h
  | dspStart => exact serveRow_alarmSafe (row := .start) h
  | dspSec => exact serveRow_alarmSafe (row := .sec) h
  | dspMin => exact serveRow_alarmSafe (row := .min) h
  | dspNone => exact serveRow_alarmSafe (row := .idle) h
  | handler => exact absurd rfl hi
  | _ => exact absurd rfl hr

/-- What the invariant says of alarm, context and tick counter. -/
def State.Resting (s : State) : Prop :=
  (s.mode ≠ .alarm → s.alarm = false) ∧ s.ctx = .foreground ∧ s.tc.toNat < 25

theorem State.Inv.resting {s : State} (h : s.Inv) : s.Resting := ⟨h.alarmOff, h.foreground, h.ticksBelow⟩

theorem State.Resting.of_alarmSafe {s t : State} (h : s.Resting) (a : AlarmSafe s t) : t.Resting := by
  obtain ⟨halarm, hctx, hticks⟩ := h
  exact ⟨a.alarmOff halarm, a.ctx.trans hctx, a.ticks ▸ hticks⟩

/-- Every instruction leaves the block resting; Handler's exit returns it to the foreground (60_exceptions.md R158). -/
theorem exec_resting {i : Instr} {s t : State} (h : exec i s = .next t) (hs : s.Resting) : t.Resting := by
  by_cases hi : i = .handler
  · subst hi
    obtain ⟨halarm, _, hticks⟩ := hs
    exact execHandler_alarmSafe h halarm hticks
  · exact hs.of_alarmSafe (exec_alarmSafe hi h)

/-- The invariant after a run to `u` that then sets the boot position and the interrupt consistently. -/
theorem State.Inv.of_runs {s u : State} (h : s.Inv) (r : Runs s u) (hu : u.Resting) (b : BootStep) (irq : Bool)
    (hl : u.lcdDir = decide (b ≠ .bringUp)) (hq : irq = decide (b = .idle)) :
    State.Inv { u with boot := b, irqEnabled := irq } := by
  obtain ⟨halarm, hctx, hticks⟩ := hu
  exact ⟨halarm, hticks, r.cursor h.cursorRange, r.enable h.enableLow, hctx, hl, hq, r.memory h.memory⟩

/-- Every instruction, once bring-up is over. -/
theorem exec_inv {i : Instr} {s t : State} (hs : s.Inv) (hb : s.boot ≠ .bringUp) (h : exec i s = .next t) : t.Inv := by
  have r := exec_runs h
  have hlines : s.lcdDir = true := hs.linesOut.trans (decide_eq_true hb)
  refine hs.of_runs r (exec_resting h hs.resting) t.boot t.irqEnabled ?_ ?_
  · rw [r.lines hlines, r.boot, decide_eq_true hb]
  · rw [r.interrupt, r.boot, hs.interruptOn]

/-- Every operation of the boot sequence (70_reset_and_hazards.md R183). -/
theorem bootStep_inv {s t : State} (hs : s.Inv) (h : bootStep s = .next t) : t.Inv := by
  cases hb : s.boot with
  | bringUp =>
    simp only [bootStep, hb, Host.Outcome.next.injEq] at h
    subst h
    refine hs.of_runs s.bringUpDisplay_runs (hs.resting.of_alarmSafe s.bringUpDisplay_keeps.alarmSafe) .firstRender _
      s.bringUpDisplay_linked.linesOut ?_
    rw [s.bringUpDisplay_runs.interrupt, hs.interruptOn, hb]
    rfl
  | firstRender =>
    simp only [bootStep, hb, Config.bootRender, if_true] at h
    obtain ⟨u, hu, e⟩ := andThen_eq_next h
    cases e
    obtain ⟨hd, rfl⟩ := renderDisplay_eq_next hu
    refine hs.of_runs s.rendered_runs (hs.resting.of_alarmSafe s.rendered_alarmSafe) .enableTimer _ hd ?_
    rw [s.rendered_runs.interrupt, hs.interruptOn, hb]
    rfl
  | enableTimer =>
    simp only [bootStep, hb] at h
    cases h
    refine hs.of_runs (.refl s) hs.resting .idle true ?_ rfl
    rw [hs.linesOut, hb]
    rfl
  | idle =>
    simp only [bootStep, hb] at h
    cases h
    exact hs

/-- The invariant says nothing of flags, levels, the timer's request and what the environment does next. -/
theorem State.Inv.withInputs {s : State} (h : s.Inv) (efStart efSec efMin lvlStart lvlSec lvlMin tp : Bool)
    (inbox : List Input) : State.Inv { s with
      efStart := efStart, efSec := efSec, efMin := efMin, lvlStart := lvlStart, lvlSec := lvlSec, lvlMin := lvlMin,
      tp := tp, inbox := inbox } :=
  ⟨h.alarmOff, h.ticksBelow, h.cursorRange, h.enableLow, h.foreground, h.linesOut, h.interruptOn, h.memory⟩

theorem State.Inv.setFlag {s : State} (h : s.Inv) (b : Button) (v : Bool) : (s.setFlag b v).Inv := by
  cases b <;> exact h.withInputs ..

theorem State.Inv.setLevel {s : State} (h : s.Inv) (b : Button) (v : Bool) : (s.setLevel b v).Inv := by
  cases b <;> exact h.withInputs ..

/-- A power-up from any state (70_reset_and_hazards.md R180). -/
theorem State.powerUp_inv (s : State) : s.powerUp.Inv :=
  ⟨fun _ => rfl, (by decide : (0#8).toNat < 25), Nat.zero_le _, rfl, rfl, rfl, rfl, rfl⟩

/-- Whatever the environment does keeps the invariant. -/
theorem State.Inv.react {s : State} (h : s.Inv) (input : Input) : (s.react input).Inv := by
  cases input with
  | press b => exact (h.setLevel b true).setFlag b true
  | release b => exact h.setLevel b false
  | raise b => exact h.setLevel b true
  | setFlag b => exact h.setFlag b true
  | hardwareTick => exact h.withInputs ..
  | powerUp => exact s.powerUp_inv
  | proceed => exact h
  | operation => exact h

theorem blockStep_inv {s t : State} (hs : s.Inv) (h : blockStep s = .next t) : t.Inv := by
  by_cases hb : s.boot = .idle
  · rw [blockStep_idle hb, idleStep] at h
    split at h
    · exact exec_inv hs (by simp [hb]) h
    · cases h; exact hs
  · rw [blockStep_boot hb] at h
    exact bootStep_inv hs h

theorem runRequest_inv {s t : State} {fmt : Format} {bytes : List Byte} (hs : s.Inv) (hb : s.boot = .idle)
    (h : runRequest fmt bytes s = .next t) : t.Inv := by
  unfold runRequest at h
  split at h
  · exact exec_inv hs (by simp [hb]) h
  · cases h

/-- Settles O55, by what a step can be: an action of the environment, the block's next operation, or an operation asked
for directly. -/
theorem everyStepKeepsTheInvariant : Obligations.EveryStepKeepsTheInvariant := by
  intro s t hs h
  rcases step_cases s with ⟨input, rest, _, _, _, e⟩ | ⟨rest, _, e⟩ | ⟨fmt, bytes, rest, _, hb, e⟩
  all_goals
    rw [e] at h
    have hrest : State.Inv { s with inbox := rest } := hs.withInputs ..
  · cases h
    exact hrest.react input
  · exact blockStep_inv hrest h
  · exact runRequest_inv hrest hb h

/-! What no instruction reads. -/

/-- `exec_oblivious` at a state: one answer for every Start level and every trace before this instruction. -/
theorem exec_over_cases (i : Instr) (s : State) :
    (∃ (u : State) (c : Controller), ∀ l p, exec i { s with lvlStart := l, trace := p } = .next (u.over c l p)) ∨
    (∃ e, ∀ l p, exec i { s with lvlStart := l, trace := p } = .fault e) ∨
    (∃ e, ∀ l p, exec i { s with lvlStart := l, trace := p } = .refused e) := by
  have e (l : Bool) (p : List Event) : ({ s with trace := [] } : State).over s.controller l p =
      { s with lvlStart := l, trace := p } := by simp [State.over]
  rcases exec_oblivious i { s with trace := [] } with ⟨u, k, h⟩ | ⟨x, h⟩ | ⟨x, h⟩
  · exact .inl ⟨u, k s.controller, fun l p => e l p ▸ h _ l p⟩
  · exact .inr (.inl ⟨x, fun l p => e l p ▸ h _ l p⟩)
  · exact .inr (.inr ⟨x, fun l p => e l p ▸ h _ l p⟩)

/-- Settles O47: an instruction answers alike for every Start level, and leaves the level it found. -/
theorem startLevelIsReadByNothing : Obligations.StartLevelIsReadByNothing := by
  intro i s v
  rcases exec_over_cases i s with ⟨u, c, h⟩ | ⟨e, h⟩ | ⟨e, h⟩
  all_goals
    have hs : exec i s = _ := h s.lvlStart s.trace
    have hv : exec i { s with lvlStart := v } = _ := h v s.trace
    rw [hs, hv]
    rfl

/-- Settles O59: an instruction answers alike for every trace before it, and puts the same events after it. -/
theorem traceOnlyGrowsAndIsNeverRead : Obligations.TraceOnlyGrowsAndIsNeverRead := by
  intro i s past
  rcases exec_over_cases i s with ⟨u, c, h⟩ | ⟨e, h⟩ | ⟨e, h⟩
  all_goals
    have hs : exec i s = _ := h s.lvlStart s.trace
    have hp : exec i { s with trace := past } = _ := h s.lvlStart past
    rw [hs, hp]
  · refine ⟨fun t ht => ?_, fun _ he => (nomatch he)⟩
    obtain rfl := Host.Outcome.next.inj ht
    exact ⟨u.trace, rfl, rfl⟩
  · exact ⟨fun _ ht => (nomatch ht), fun _ he => (nomatch he)⟩
  · exact ⟨fun _ ht => (nomatch ht), fun _ => id⟩

/-- Settles O7: each field of the reset state, as R35 lists them. -/
theorem resetGivesTheStatedValues : Obligations.ResetGivesTheStatedValues :=
  ⟨rfl, rfl, rfl, rfl, rfl, rfl, rfl, rfl, rfl, rfl, rfl, rfl, rfl, rfl, rfl, rfl⟩

end Sys2Proof.Machine

/-! PROOFS. Memory (20_memory.md): what the block can see of the display, that its operations keep driver and controller
in agreement, and what the sink does with characters, wire words and lone nibbles. -/

namespace Sys2Proof.Machine

/-! The block reads nothing of the controller (20_memory.md R47). -/

/-- Settles O11: an instruction runs on, or stops alike, whatever the controller, and what it leaves in the block does
not depend on it. -/
theorem blockNeverReadsTheDisplay : Obligations.BlockNeverReadsTheDisplay := by
  intro i s t hst
  have hover (c : Controller) : ({ s with trace := [] } : State).over c s.lvlStart s.trace =
      { s with controller := c } := by simp [State.over]
  have hs := hover s.controller
  have ht := (hover t.controller).trans hst.symm
  rcases exec_oblivious i { s with trace := [] } with ⟨u, k, h⟩ | ⟨e, h⟩ | ⟨e, h⟩
  all_goals
    have es := hs ▸ h s.controller s.lvlStart s.trace
    have et := ht ▸ h t.controller s.lvlStart s.trace
    rw [es, et]
    rfl

/-! The operations of the block keep driver and controller in agreement (20_memory.md R50). -/

/-- A driver operation that is one update of the state ends in that update. -/
theorem withDriver_update_eq {s t : State} {f : State → State}
    (h : (s.withDriver fun u => .next (f u)) = .next t) : f s = t := by
  obtain ⟨_, e⟩ := State.withDriver_eq_next h
  exact Host.Outcome.next.inj e

/-- Settles O28, by what each operation of the block does to the tracked cursor and the address counter. -/
theorem operationsKeepDriverAndControllerAgreeing : Obligations.OperationsKeepDriverAndControllerAgreeing := by
  intro i s t hr hs h
  cases i with
  | initializeDisplay =>
    obtain rfl : s.bringUpDisplay = t := Host.Outcome.next.inj h
    exact s.bringUpDisplay_linked
  | setCursor col => exact withDriver_update_eq h ▸ hs.moveCursor col
  | clear => exact withDriver_update_eq h ▸ hs.clearDisplay
  | home => exact withDriver_update_eq h ▸ hs.homeDisplay
  | setText text => exact replaceText_linked hs (State.withDriver_eq_next h).2
  | addText text => exact putText_linked hs (State.withDriver_eq_next h).2
  | writeChar ch => exact putChar_linked hs (State.withDriver_eq_next h).2
  | startButton => exact renderDisplay_linked (hs.of_update s.toggleRun_update) h
  | secButton | minButton => exact renderDisplay_linked (hs.of_update (s.addTime_update _)) h
  | resetGesture => exact renderDisplay_linked (hs.of_update s.reinitialise_update) h
  | tick => exact renderDisplay_linked (hs.of_update s.secondTick_update) h
  | render => exact renderDisplay_linked hs h
  | dspReset => exact serveRow_linked (row := .reset) hs h
  | dspStart => exact serveRow_linked (row := .start) hs h
  | dspSec => exact serveRow_linked (row := .sec) hs h
  | dspMin => exact serveRow_linked (row := .min) hs h
  | dspNone => exact serveRow_linked (row := .idle) hs h
  | handler => exact invokeHandler_linked hs (execHandler_eq_next h).2.2
  | lcdClear | lcdHome | lcdEntry | lcdDisplay | lcdFunction | lcdSetAddr | lcdData | hsNib3 | hsNib2 | nib | writeByte
  | writeNibble | command | data => cases hr

/-! Character memory and column addresses (20_memory.md R41, R45, R48). -/

/-- Settles O10, by the laws of a write: the written cell, the others, and the canonical form. -/
theorem memoryReadsBackWhatWasWritten : Obligations.MemoryReadsBackWhatWasWritten :=
  fun m a v => ⟨m.read_write_same a v, fun _ hb => m.read_write_other v hb, fun hm ha => Ddram.write_wf v ha hm⟩

/-- A displayed address is the address of its column: the offset of the second row undone. -/
theorem columnAddress_surj {a : Address} (ha : a.toNat ≤ 0x07 ∨ 0x40 ≤ a.toNat ∧ a.toNat ≤ 0x47) :
    ∃ c, c < 16 ∧ columnAddress c = a := by
  rcases ha with h | ⟨h1, h2⟩
  · refine ⟨a.toNat, by omega, BitVec.eq_of_toNat_eq ?_⟩
    rw [columnAddress_toNat (by omega), if_pos (by omega)]
  · refine ⟨a.toNat - 0x38, by omega, BitVec.eq_of_toNat_eq ?_⟩
    rw [columnAddress_toNat (by omega), if_neg (by omega)]
    omega

/-- Settles O8, by the value of each column's address. -/
theorem columnAddressesFollowTheOffsetLogic : Obligations.ColumnAddressesFollowTheOffsetLogic := by
  refine ⟨fun c => columnAddress_toNat, fun c d hc hd h => columnAddress_inj hc hd (congrArg BitVec.toNat h),
    fun a => ⟨?_, columnAddress_surj⟩, rfl, rfl, rfl⟩
  rintro ⟨c, hc, rfl⟩
  rw [columnAddress_toNat hc]
  split <;> omega

/-! Characters and texts on the display (20_memory.md R43, R50). -/

/-- Settles O22: writeChar stores at the tracked column's address; setCursor and home only move the address counter. -/
theorem onlyCharactersStoreAndInTheirColumn : Obligations.OnlyCharactersStoreAndInTheirColumn := by
  constructor
  · intro ch s t hl h
    obtain ⟨_, hc, rfl⟩ := putChar_eq_next (State.withDriver_eq_next h).2
    have hm : (s.placeChar ch).controller.ddram =
        s.controller.ddram.write (columnAddress s.cursor.toNat).toNat ch := by
      rw [State.placeChar_eq, hl.agrees.putAt_eq ch hc]
    rw [hm]
    exact ⟨hc, Ddram.read_write_same .., fun a ha => Ddram.read_write_other _ ch ha⟩
  · intro i s t hi hl h a
    have hr := hl.agrees.ready
    rcases hi with ⟨col, rfl⟩ | rfl
    · obtain rfl := withDriver_update_eq (f := State.moveCursor col) h
      rw [State.moveCursor_eq, columnByte, hr.send_setAddr _ (columnAddress_displayed (clampColumn_lt col))]
    · obtain rfl := withDriver_update_eq (f := State.homeDisplay) h
      rw [State.homeDisplay_eq, Controller.send_home hr.bus hr.idle]

theorem State.afterText_controller (text : List Byte) (s : State) :
    (s.afterText text).controller = s.controller.putTextAt s.cursor.toNat text := by
  unfold State.afterText
  cases hl : text.getLast? with
  | none => rw [List.getLast?_eq_none_iff.1 hl]; rfl
  | some last => rfl

/-- A text that replaces the display's fits, and is what reaches the cleared controller from column 0 on. -/
theorem replaceText_eq_next {s t : State} {text : List Byte} (hd : s.lcdDir = true) (h : replaceText text s = .next t) :
    text.length ≤ 16 ∧
      t.controller = ((s.controller.send false Config.cmdClear).elapse Config.tClear).putTextAt 0 text := by
  by_cases hl : text.length ≤ 16
  · rw [replaceText_fits text hd hl] at h
    cases h
    rw [State.afterText_controller, State.clearDisplay_eq]
    exact ⟨hl, rfl⟩
  · rw [replaceText_overflows text hd (Nat.lt_of_not_le hl)] at h
    cases h

/-- Settles O25: setText clears every cell and writes each character in its column. -/
theorem setTextIsWhatTheDisplayShows : Obligations.SetTextIsWhatTheDisplayShows := by
  intro text s t hr h
  obtain ⟨hd, h⟩ := State.withDriver_eq_next h
  obtain ⟨hl, hc⟩ := replaceText_eq_next hd h
  constructor
  · intro col hcol
    rw [hc]
    exact hr.clear_putText_shown text hl col hcol
  · intro a ha hcols
    obtain ⟨hagrees, hblank⟩ := hr.clear_agrees
    have hother := (hagrees.putTextAt_read text (by omega)).2 a fun j hj => hcols (0 + j) (by omega)
    rw [hc, hother, hblank]
    exact Ddram.blank_read ha

/-! What the sink does with the words of the wire (20_memory.md R48, R49). -/

/-- The controller after the row of a wire word is the one the word was sent to. -/
theorem exec_word_controller {s : State} (hd : s.lcdDir = true) {w : LcdWord} {c : Controller}
    (h : s.controller.send w.rs w.byte = c) : ∃ t, exec w.toInstr s = .next t ∧ t.controller = c := by
  have e : exec w.toInstr s = s.withDriver fun u => .next (u.sendByte w.rs w.byte) := by cases w <;> rfl
  refine ⟨_, e.trans (State.withDriver_ready _ hd), ?_⟩
  rw [State.sendByte_eq, h]

/-- A character is stored at the address counter, whatever entry mode says of the counter. -/
theorem Controller.obey_data_ddram (c : Controller) (ch : Byte) :
    (c.obey (.data ch)).ddram = c.ddram.write c.ac.toNat ch := Controller.advance_ddram _

/-- With entry mode left-to-right the address counter then advances by one, and nothing else changes. -/
theorem Controller.obey_data_leftToRight {c : Controller} (he : c.entry.getLsbD 1 = true) (ch : Byte) :
    c.obey (.data ch) = { c with ddram := c.ddram.write c.ac.toNat ch, ac := c.ac + 1 } := if_pos he

theorem Controller.send_data_of_four {c : Controller} (hb : c.bus = .four) (hi : c.busy = 0) (ch : Byte) :
    c.send true ch = c.obey (.data ch) := by
  obtain ⟨hbus, hbusy⟩ := c.takeByte_data ch
  rw [Controller.send_of_four true ch hb hi, Controller.elapse_of_four _ (hbus.trans hb) (hbusy.trans hi)]
  rfl

/-- A reserved byte leaves its verdict, a bus of unknown width and no known cell, and time mends none of it. -/
theorem Controller.takeByte_reserved_elapse {rs : Bool} {b : Byte} (hv : wireVerdict rs b ≠ .emitted) (c : Controller)
    (n : Nat) : ((c.takeByte rs b).elapse n).reservedSeen = true ∧ ((c.takeByte rs b).elapse n).bus = .unknown 0 ∧
      ∀ a, ((c.takeByte rs b).elapse n).ddram.read a = none := by
  rw [Controller.takeByte_reserved hv]
  exact ⟨rfl, rfl, fun _ => rfl⟩

/-- Settles O15, by the law of each word in 4-bit mode between two bytes. -/
theorem controllerObeysWireWords : Obligations.ControllerObeysWireWords := by
  intro s hd hb hi
  refine ⟨?_, ?_, ?_, ?_, ?_, fun a ha => ?_, fun ch => ?_, fun b hv => ?_⟩
  · obtain ⟨t, ht, hc⟩ := exec_word_controller (w := .clear) hd (Controller.send_cmdClear hb hi)
    refine ⟨t, ht, ?_, fun a ha => ?_⟩
    · rw [hc]
    · rw [hc]; exact Ddram.blank_read ha
  · exact exec_word_controller (w := .home) hd (Controller.send_cmdHome hb hi)
  · exact exec_word_controller (w := .entry true false) hd (Controller.send_entry hb hi)
  · exact exec_word_controller (w := .display true false false) hd (Controller.send_display hb hi)
  · exact exec_word_controller (w := .function false true false 0) hd (Controller.send_function hb hi)
  · obtain ⟨c, hc, rfl⟩ := columnAddress_surj ha
    exact exec_word_controller (w := .setAddr _) hd (Controller.send_setAddr hb hi (columnAddress_displayed hc))
  · obtain ⟨t, ht, hc⟩ := exec_word_controller (w := .data ch) hd (Controller.send_data_of_four hb hi ch)
    refine ⟨t, ht, fun he => ?_, ?_⟩
    · rw [hc, Controller.obey_data_leftToRight he]
    · rw [hc, Controller.obey_data_ddram]
      exact ⟨Ddram.read_write_same .., fun a ha => Ddram.read_write_other _ ch ha⟩
  · refine ⟨s.sendByte false b, State.withDriver_ready (fun u => .next (u.sendByte false b)) hd, ?_⟩
    rw [State.sendByte_eq, Controller.send_of_four false b hb hi]
    exact Controller.takeByte_reserved_elapse hv ..

/-! Lone nibbles (20_memory.md R54, 30_encoding.md R70). -/

theorem exec_nib_controller {s : State} (hd : s.lcdDir = true) {n : Nibble} {c : Controller}
    (h : s.controller.pulse s.lcdRs n = c) : ∃ t, exec (.nib n) s = .next t ∧ t.controller = c := by
  refine ⟨s.pulseNibble n, State.withDriver_ready (fun u => .next (u.pulseNibble n)) hd, ?_⟩
  rw [State.pulseNibble_eq, h]

/-- In the middle of a byte a nibble in time, or no handshake nibble, completes it. -/
theorem Controller.pulse_pairs {c : Controller} {rsHi : Bool} {hi : Nibble} {gap : Nat}
    (hb : c.bus = .fourHalf rsHi hi gap) (hidle : c.busy = 0) {rs : Bool} {n : Nibble}
    (hn : rs = true ∨ n ≠ 3 ∨ gap ≤ 100) :
    c.pulse rs n = (c.takePair rsHi hi rs n).elapse Config.tCycle := by
  rw [Controller.pulse_of_half hb hidle, Controller.takeSecond_pairs]
  exact hn.imp_right (Or.imp_right (Nat.add_le_add_right · 2))

/-- A byte sent in the middle of another, when the pair its high nibble completes is taken with register-select `sel` by
the controller `d` and is an emitted word other than clear and home: the word is obeyed, and the byte's low nibble is
left as the next high half. -/
theorem Controller.send_shifted {c d : Controller} {rsHi rs sel : Bool} {hi : Nibble} {gap : Nat} {b pair : Byte}
    (hb : c.bus = .fourHalf rsHi hi gap) (hidle : c.busy = 0) (hn : rs = true ∨ hiNibble b ≠ 3 ∨ gap ≤ 100)
    (htake : c.takePair rsHi hi rs (hiNibble b) = ({ d with bus := .four } : Controller).takeByte sel pair)
    (hd : d.busy = 0) (hv : wireVerdict sel pair = .emitted)
    (hexec : sel = true ∨ pair ≠ Config.cmdClear ∧ pair ≠ Config.cmdHome) :
    ∃ w : LcdWord, w.rs = sel ∧ w.byte = pair ∧ (d.obey w).busy = 0 ∧
      c.send rs b = { d.obey w with bus := .fourHalf rs (loNibble b) 100 } := by
  obtain ⟨w, hrs, hbyte, hobey⟩ := Controller.takeByte_obeys hv { d with bus := .four }
  obtain ⟨hfour, hbusy⟩ := Controller.takeByte_emitted (c := { d with bus := .four }) hv hexec rfl hd
  have hmode := Controller.obey_bus w d .four (.fourHalf rs (loNibble b) 100)
  refine ⟨w, hrs, hbyte, ?_, ?_⟩
  · rw [hobey] at hbusy
    exact (congrArg Controller.busy hmode).symm.trans hbusy
  · rw [Controller.send, Controller.pulse_pairs hb hidle hn, htake, Controller.elapse_of_four _ hfour hbusy,
      Controller.pulse_of_four hfour hbusy, hobey]
    exact hmode

/-- A word with register-select 1 is a character. -/
theorem LcdWord.eq_data_of_rs {w : LcdWord} (h : w.rs = true) : w = .data w.byte := by
  cases w with
  | data ch => rfl
  | clear | home | entry | display | function | setAddr => cases h

/-- Two characters' halves, or the halves of an emitted command other than clear and home, are obeyed whichever
register-select a mixed pair is taken with (log 31). -/
theorem pair_obeyed {rsHi rs : Bool} {pair : Byte}
    (h : rsHi = true ∧ rs = true ∨ wireVerdict false pair = .emitted ∧ pair ≠ 0x01 ∧ pair ≠ 0x02)
    (sel : Bool) (hsel : rsHi = rs → sel = rs) :
    wireVerdict sel pair = .emitted ∧ (sel = true ∨ pair ≠ Config.cmdClear ∧ pair ≠ Config.cmdHome) := by
  cases sel with
  | true => exact ⟨rfl, .inl rfl⟩
  | false =>
    rcases h with ⟨rfl, rfl⟩ | ⟨hv, hexec⟩
    · cases hsel rfl
    · exact ⟨hv, .inr hexec⟩

/-- A byte sent in the middle of another shifts the pairing: its high nibble completes the byte before, which is obeyed
with its own register-select, or with a free one where the halves' differ. -/
theorem Controller.send_in_the_middle {c : Controller} {rsHi rs : Bool} {hi : Nibble} {gap : Nat} {b : Byte}
    (hb : c.bus = .fourHalf rsHi hi gap) (hidle : c.busy = 0) (hn : rs = true ∨ hiNibble b ≠ 3 ∨ gap ≤ 100)
    (hp : rsHi = true ∧ rs = true ∨ wireVerdict false (joinNibbles hi (hiNibble b)) = .emitted ∧
      joinNibbles hi (hiNibble b) ≠ 0x01 ∧ joinNibbles hi (hiNibble b) ≠ 0x02) :
    (rsHi = rs → ∃ w : LcdWord, w.rs = rs ∧ w.byte = joinNibbles hi (hiNibble b) ∧ (c.obey w).busy = 0 ∧
      c.send rs b = { c.obey w with bus := .fourHalf rs (loNibble b) 100 }) ∧
    (rsHi ≠ rs → ∃ w : LcdWord, w.rs = Config.freeSelect c.freeIx ∧ w.byte = joinNibbles hi (hiNibble b) ∧
      (({ c with freeIx := c.freeIx + 1 } : Controller).obey w).busy = 0 ∧
      c.send rs b = { ({ c with freeIx := c.freeIx + 1 } : Controller).obey w with
        bus := .fourHalf rs (loNibble b) 100 }) := by
  constructor
  · intro hsame
    obtain ⟨hv, hexec⟩ := pair_obeyed hp rs fun _ => rfl
    exact Controller.send_shifted hb hidle hn (if_pos hsame) hidle hv hexec
  · intro hmixed
    obtain ⟨hv, hexec⟩ := pair_obeyed hp (Config.freeSelect c.freeIx) fun h => absurd h hmixed
    exact Controller.send_shifted (d := { c with freeIx := c.freeIx + 1 }) hb hidle hn (if_neg hmixed) hidle hv hexec

/-- In 8-bit mode a nibble that is no handshake command is a whole byte with a free lower half. -/
theorem Controller.takeWhole_byte {rs : Bool} {n : Nibble} (h : rs = true ∨ n ≠ 3 ∧ n ≠ 2) (c : Controller) :
    c.takeWhole rs n =
      ({ c with freeIx := c.freeIx + 1 } : Controller).takeByte rs (joinNibbles n (Config.freeHalf c.freeIx)) := by
  unfold Controller.takeWhole
  have hr : Config.rsCommand = false := rfl
  rcases h with rfl | ⟨h3, h2⟩
  · simp [hr]
  · rw [if_neg fun e => h3 e.2, if_neg fun e => h2 e.2]

theorem Controller.takeWhole_handshakeNibble (c : Controller) : c.takeWhole false 3 = c.handshake true := rfl

theorem Controller.takeWhole_switchNibble (c : Controller) : c.takeWhole false 2 = c.handshake false := rfl

/-- A handshake command sets or clears DL. -/
theorem Controller.handshake_dataLength (width8 : Bool) (c : Controller) :
    (c.handshake width8).function.getLsbD 2 = width8 := by
  have key : ∀ (v : Bool) (x : BitVec 2), (bit v ++ x).getLsbD 2 = v := by decide
  exact key _ _

/-- A character taken in 8-bit mode, then a wait: the bus mode stays, the character is in the addressed cell and in no
other, and the counter advances when entry mode is left-to-right. -/
theorem Controller.eightBit_character {c : Controller} (hb : c.bus = .eight) (hi : c.busy = 0) (ch : Byte) (n : Nat) :
    ((c.takeByte true ch).elapse n).bus = .eight ∧ ((c.takeByte true ch).elapse n).busy = 0 ∧
      ((c.takeByte true ch).elapse n).ddram = c.ddram.write c.ac.toNat ch ∧
      (c.entry.getLsbD 1 = true → ((c.takeByte true ch).elapse n).ac = c.ac + 1) := by
  obtain ⟨hbus, hbusy⟩ := c.takeByte_data ch
  rw [hb] at hbus
  rw [Controller.elapse_of_rest n (by rw [hbus]; rfl) (hbusy.trans hi)]
  refine ⟨hbus, hbusy.trans hi, Controller.obey_data_ddram c ch, fun he => ?_⟩
  exact congrArg Controller.ac (Controller.obey_data_leftToRight he ch)

/-- Settles O60, by the pairing's shift in 4-bit mode and by what a whole nibble is in 8-bit mode. -/
theorem nibblesPairInFourBitModeAndAreWholeInEight : Obligations.NibblesPairInFourBitModeAndAreWholeInEight := by
  intro s hd hi
  refine ⟨fun n hb => ?_, fun rsHi hiHalf gap rs b hb hn hp => ?_, fun hiHalf gap n hb hrs hn hv => ?_,
    fun n hb => ?_⟩
  · exact exec_nib_controller hd (Controller.pulse_of_four hb hi _ n)
  · obtain ⟨hsame, hmixed⟩ := Controller.send_in_the_middle hb hi hn hp
    have hc : (s.sendByte rs b).controller = s.controller.send rs b := by rw [State.sendByte_eq]
    refine ⟨s.sendByte rs b, State.withDriver_ready (fun u => .next (u.sendByte rs b)) hd, ?_⟩
    rw [hc]
    by_cases h : rsHi = rs
    · obtain ⟨w, hwrs, hwbyte, hbusy, e⟩ := hsame h
      rw [e]
      refine ⟨rfl, hbusy, fun _ => ⟨w, hwrs, hwbyte, rfl⟩, fun hne => absurd h hne, fun _ hrs => ?_⟩
      have hw := LcdWord.eq_data_of_rs (hwrs.trans hrs)
      rw [hwbyte] at hw
      subst hw
      show (s.controller.obey (.data _)).ddram.read _ = _
      rw [Controller.obey_data_ddram]
      exact Ddram.read_write_same ..
    · obtain ⟨w, hwrs, hwbyte, hbusy, e⟩ := hmixed h
      rw [e]
      exact ⟨rfl, hbusy, fun he => absurd he h, fun _ => ⟨w, hwrs, hwbyte, rfl⟩,
        fun h1 h2 => absurd (h1.trans h2.symm) h⟩
  · obtain ⟨t, ht, hc⟩ := exec_nib_controller hd (Controller.pulse_pairs hb hi (.inr hn))
    refine ⟨t, ht, ?_⟩
    rw [hc, hrs, Controller.takePair, if_pos rfl]
    exact Controller.takeByte_reserved_elapse hv ..
  · obtain ⟨t, ht, hc⟩ := exec_nib_controller hd (Controller.pulse_of_eight hb hi _ n)
    refine ⟨t, ht, fun hrs => ?_, fun hrs hn => ?_, fun hrs hn => ?_, fun hrs h3 h2 => ?_⟩ <;> rw [hc, hrs]
    · rw [Controller.takeWhole_byte (.inl rfl)]
      obtain ⟨hbus, hbusy, hcells, hac⟩ := Controller.eightBit_character
        (c := { s.controller with freeIx := s.controller.freeIx + 1 }) hb hi
        (joinNibbles n (Config.freeHalf s.controller.freeIx)) Config.tCycle
      rw [hcells]
      exact ⟨hbus, hbusy, Ddram.read_write_same .., fun a ha => Ddram.read_write_other _ _ ha, hac⟩
    · rw [hn, Controller.takeWhole_handshakeNibble]
      exact ⟨rfl, Controller.handshake_dataLength true _, rfl, rfl⟩
    · rw [hn, Controller.takeWhole_switchNibble]
      exact ⟨rfl, Controller.handshake_dataLength false _, rfl, rfl⟩
    · rw [Controller.takeWhole_byte (.inr ⟨h3, h2⟩)]
      split
      · rename_i hv
        obtain ⟨w, hwrs, hwbyte, e⟩ := Controller.takeByte_obeys hv
          { s.controller with freeIx := s.controller.freeIx + 1 }
        exact ⟨w, hwrs, hwbyte, congrArg _ e⟩
      · rename_i hv
        exact Controller.takeByte_reserved_elapse hv ..

end Sys2Proof.Machine

/-! PROOFS. Encodings (30_encoding.md): how a trace reads back, what the wire words and the handshake nibbles send, where
the handshake leads, the two decoders' tables, and what a step makes of a request or of the environment. -/

namespace Sys2Proof.Machine

/-! The views of a trace (30_encoding.md R79). -/

theorem leadingNibble_nibbleEvents (n : Nibble) (rest : List Event) :
    leadingNibble (nibbleEvents n ++ rest) = some n := by
  simp [leadingNibble, nibbleEvents]

/-- The seven events of a nibble transfer are one event of level L1. -/
theorem toL1From_nibbleEvents (rs : Bool) (n : Nibble) (rest : List Event) :
    toL1From rs 0 (nibbleEvents n ++ rest) = .nib rs n :: toL1From rs 0 rest := by
  have h := leadingNibble_nibbleEvents n rest
  simp only [nibbleEvents, List.cons_append, List.nil_append] at h ⊢
  simp only [toL1From, h]

/-- A byte transaction is its register-select event and two nibbles with that value. -/
theorem toL1From_byteEvents (r rs : Bool) (b : Byte) (rest : List Event) :
    toL1From r 0 (byteEvents rs b ++ rest) =
      .other (.rs rs) :: .nib rs (hiNibble b) :: .nib rs (loNibble b) :: toL1From rs 0 rest := by
  have select (es : List Event) : toL1From r 0 (.rs rs :: es) = .other (.rs rs) :: toL1From rs 0 es := rfl
  rw [byteEvents, List.cons_append, List.cons_append, select, List.append_assoc, toL1From_nibbleEvents,
    toL1From_nibbleEvents]

/-- After the handshake a register-select event and two nibbles with its value are one byte. -/
theorem toL2From_byte (rs : Bool) (hi lo : Nibble) (rest : List Event1) :
    toL2From 0 0 (.other (.rs rs) :: .nib rs hi :: .nib rs lo :: rest) =
      .byte rs (joinNibbles hi lo) :: toL2From 0 0 rest := by
  have h : leadingByte (.other (.rs rs) :: .nib rs hi :: .nib rs lo :: rest) = some (rs, joinNibbles hi lo) :=
    if_pos ⟨rfl, rfl⟩
  simp only [toL2From, h]

/-- A nibble that no register-select event precedes begins no byte. -/
theorem toL2From_nibble (rs : Bool) (n : Nibble) (rest : List Event1) :
    toL2From 0 0 (.nib rs n :: rest) = .other (.nib rs n) :: toL2From 0 0 rest := rfl

/-- Settles O6, level by level: L1 reads each half as a nibble, L2 joins the two that follow a register-select event. -/
theorem byteTransactionReadsBackAsItsByte : Obligations.ByteTransactionReadsBackAsItsByte := by
  constructor
  · intro r rs b rest
    rw [toL1From_byteEvents, toL2From_byte, joinNibbles_split]
  · intro r n rest
    rw [toL1From_nibbleEvents, toL2From_nibble]

/-! Wire words (30_encoding.md R65-R69, R71, R72). -/

theorem State.sendByte_eq_afterByte (rs : Bool) (b : Byte) (s : State) : s.sendByte rs b = s.afterByte rs b :=
  State.sendByte_eq rs b s

/-- The row of a wire word is the byte transaction of its byte. -/
theorem exec_word {s : State} (hd : s.lcdDir = true) (w : LcdWord) {b : Byte} (hb : w.byte = b) :
    exec w.toInstr s = .next (s.afterByte w.rs b) := by
  have e : exec w.toInstr s = s.withDriver fun u => .next (u.sendByte w.rs w.byte) := by cases w <;> rfl
  rw [e, State.withDriver_ready _ hd, State.sendByte_eq_afterByte, hb]

theorem entry_byte (i s : Bool) : (LcdWord.entry i s).byte = 0b000001#6 ++ bit i ++ bit s := by
  revert i s; decide

theorem display_byte (d c b : Bool) : (LcdWord.display d c b).byte = 0b00001#5 ++ bit d ++ bit c ++ bit b := by
  revert d c b; decide

theorem function_byte (l n f : Bool) (x : BitVec 2) :
    (LcdWord.function l n f x).byte = 0b001#3 ++ bit l ++ bit n ++ bit f ++ x := by
  revert l n f x; decide

theorem setAddr_byte (a : Address) : (LcdWord.setAddr a).byte = 0b1#1 ++ a := by
  revert a; decide

/-- Settles O14: each row sends its word's byte, and base code OR operand is the pattern with the operand in place. -/
theorem wireWordsSendTheirPatterns : Obligations.WireWordsSendTheirPatterns := fun _ hd =>
  ⟨exec_word hd .clear rfl, exec_word hd .home rfl,
    fun i sh => exec_word hd (.entry i sh) (entry_byte i sh),
    fun d c b => exec_word hd (.display d c b) (display_byte d c b),
    fun l n f x => exec_word hd (.function l n f x) (function_byte l n f x),
    fun a => exec_word hd (.setAddr a) (setAddr_byte a), fun ch => exec_word hd (.data ch) rfl⟩

/-! The handshake (30_encoding.md R70). -/

/-- A handshake unit: register-select 0, then the nibble transfer. -/
theorem exec_handshakeUnit {i : Instr} {n : Nibble} {s : State} (hd : s.lcdDir = true)
    (hu : i = .hsNib3 ∧ n = 3 ∨ i = .hsNib2 ∧ n = 2) :
    exec i s = .next { s with
      lcdRs := false
      lcdD := n
      lcdEn := false
      trace := s.trace ++ (.rs false :: nibbleEvents n)
      controller := s.controller.pulse false n } := by
  have e : exec i s = s.withDriver fun u => .next ((u.driveSelect false).pulseNibble n) := by
    rcases hu with ⟨rfl, rfl⟩ | ⟨rfl, rfl⟩ <;> rfl
  rw [e, State.withDriver_ready _ hd, State.pulseNibble_eq]
  simp [State.driveSelect, State.emit]

/-- Settles O16, by what a handshake unit does. -/
theorem handshakeNibblesAreSingleTransfers : Obligations.HandshakeNibblesAreSingleTransfers :=
  fun _ _ _ hd hu => exec_handshakeUnit hd hu

/-- A handshake unit after a wait runs on and leaves the lines out; the controller sees the wait and the nibble. -/
theorem exec_handshakeUnit_afterWait {i : Instr} {n : Nibble} {s : State} (hd : s.lcdDir = true)
    (hu : i = .hsNib3 ∧ n = 3 ∨ i = .hsNib2 ∧ n = 2) (wait : Nat) :
    ∃ t, exec i (s.afterWait wait) = .next t ∧ t.lcdDir = true ∧
      t.controller = (s.controller.elapse wait).pulse false n :=
  ⟨_, exec_handshakeUnit (s := s.afterWait wait) hd hu, hd, rfl⟩

/-- Settles O17: the first nibble begins a handshake in any controller, the second leaves one more to come, the third
gives 8-bit mode, and nibble 2 switches. -/
theorem handshakeReachesFourBitModeFromAnyState : Obligations.HandshakeReachesFourBitModeFromAnyState := by
  intro s hs
  obtain ⟨t, ht, htd, htc⟩ := exec_handshakeUnit_afterWait hs (.inl ⟨rfl, rfl⟩) 40000
  obtain ⟨u, hu, hud, huc⟩ := exec_handshakeUnit_afterWait htd (.inl ⟨rfl, rfl⟩) 4100
  obtain ⟨v, hv, hvd, hvc⟩ := exec_handshakeUnit_afterWait hud (.inl ⟨rfl, rfl⟩) 100
  obtain ⟨w, hw, _, hwc⟩ := exec_handshakeUnit_afterWait hvd (.inr ⟨rfl, rfl⟩) 100
  have first : t.controller.Handshaking := htc ▸ s.controller.handshake_first
  obtain ⟨hubus, huidle⟩ : (u.controller.bus = .unknown 2 ∨ u.controller.bus = .eight) ∧ u.controller.busy = 0 :=
    huc ▸ Controller.handshake_second first
  obtain ⟨hvbus, hvidle⟩ : v.controller.bus = .eight ∧ v.controller.busy = 0 :=
    hvc ▸ Controller.handshake_third hubus huidle 100
  obtain ⟨hwbus, hwidle⟩ : w.controller.bus = .four ∧ w.controller.busy = 0 := by
    rw [hwc.trans (Controller.handshake_switch hvbus hvidle 100)]
    exact ⟨rfl, rfl⟩
  exact ⟨t, u, v, w, ht, hu, hv, hw, hvbus, hwbus, hwidle⟩

/-! The dispatcher decode (30_encoding.md R75). -/

/-- The fields of a dispatch vector are the bits it was made of. -/
theorem dispatchVectorOf_fields (lvlSec lvlMin efStart efSec efMin : Bool) :
    (dispatchVectorOf lvlSec lvlMin efStart efSec efMin).extractLsb' 3 2 = bit lvlSec ++ bit lvlMin ∧
    (dispatchVectorOf lvlSec lvlMin efStart efSec efMin).getLsbD 2 = efStart ∧
    (dispatchVectorOf lvlSec lvlMin efStart efSec efMin).getLsbD 1 = efSec ∧
    (dispatchVectorOf lvlSec lvlMin efStart efSec efMin).getLsbD 0 = efMin := by
  revert lvlSec lvlMin efStart efSec efMin; decide

theorem bothLevels_iff (lvlSec lvlMin : Bool) : bit lvlSec ++ bit lvlMin = 0b11#2 ↔ (lvlSec && lvlMin) = true := by
  revert lvlSec lvlMin; decide

/-- Settles O4: the decode tests the vector's fields in R75's order, and these are the bits it was made of. -/
theorem dispatchTakesFirstMatchingRow : Obligations.DispatchTakesFirstMatchingRow := by
  intro lvlSec lvlMin efStart efSec efMin
  obtain ⟨levels, start, sec, min⟩ := dispatchVectorOf_fields lvlSec lvlMin efStart efSec efMin
  simp only [dispatchRow, levels, start, sec, min, bothLevels_iff]

/-! The verdicts on the 256 command bytes (30_encoding.md R74). -/

theorem wireVerdict_emitted_iff (b : Byte) : wireVerdict false b = .emitted ↔
    b = 0x01 ∨ b = 0x02 ∨ b = 0x06 ∨ b = 0x0C ∨ b = 0x28 ∨ (0x80 ≤ b ∧ b ≤ 0x87) ∨ (0xC0 ≤ b ∧ b ≤ 0xC7) := by
  revert b; decide

theorem wireVerdict_reservedOperand_iff (b : Byte) : wireVerdict false b = .reservedOperand ↔
    b = 0x04 ∨ b = 0x05 ∨ b = 0x07 ∨ (0x08 ≤ b ∧ b ≤ 0x0B) ∨ (0x0D ≤ b ∧ b ≤ 0x0F) ∨ (0x20 ≤ b ∧ b ≤ 0x27) ∨
      (0x29 ≤ b ∧ b ≤ 0x3F) ∨ (0x88 ≤ b ∧ b ≤ 0xBF) ∨ 0xC8 ≤ b := by
  revert b; decide

theorem wireVerdict_reservedNoBase_iff (b : Byte) : wireVerdict false b = .reservedNoBase ↔
    b = 0x00 ∨ b = 0x03 ∨ (0x10 ≤ b ∧ b ≤ 0x1F) ∨ (0x40 ≤ b ∧ b ≤ 0x7F) := by
  revert b; decide

/-- The verdict "no base code" is the decoder's own answer. -/
theorem wireVerdict_reservedNoBase_iff_none (rs : Bool) (b : Byte) :
    wireVerdict rs b = .reservedNoBase ↔ lcdOfByte rs b = none := by
  cases h : lcdOfByte rs b with
  | none => simp [wireVerdict, h]
  | some w =>
    cases w with
    | clear | home | data => simp [wireVerdict, h]
    | entry | display | function | setAddr =>
      simp only [wireVerdict, h]
      split <;> simp

/-- A request of a command byte is refused exactly when the byte is no wire word. -/
theorem decode_command_error_iff (b : Byte) :
    decode .wire9 [b, 0] = .error .noBaseCode ↔ lcdOfByte false b = none := by
  have hrs : (0#1 ++ b).getLsbD 8 = false := by rw [BitVec.getLsbD_append]; rfl
  have hbyte : (0#1 ++ b).extractLsb' 0 8 = b := by
    rw [BitVec.extractLsb'_append_eq_of_add_le (by decide), BitVec.extractLsb'_eq_self]
  have e : decode .wire9 [b, 0] = decodeWire9 (0#1 ++ b) := rfl
  rw [e, decodeWire9, hrs, hbyte]
  cases lcdOfByte false b <;> simp

/-- Settles O5: each class by the verdicts of the 256 command bytes, and the last by what the decoder answers. -/
theorem wireVerdictsFollowTheLists : Obligations.WireVerdictsFollowTheLists :=
  ⟨fun _ => rfl, wireVerdict_emitted_iff, wireVerdict_reservedOperand_iff, wireVerdict_reservedNoBase_iff,
    fun b => (wireVerdict_reservedNoBase_iff_none false b).trans (decode_command_error_iff b).symm⟩

/-! The nibble split (30_encoding.md R63). -/

theorem toNat_nibbles (b : Byte) : b.toNat = 16 * (hiNibble b).toNat + (loNibble b).toNat := by
  simp only [hiNibble, loNibble, BitVec.extractLsb'_toNat, Nat.shiftRight_eq_div_pow]
  omega

/-- Settles O9, by definition, by the join of the two halves and by their values. -/
theorem nibblesAreTheHalvesOfAByte : Obligations.NibblesAreTheHalvesOfAByte :=
  fun b => ⟨rfl, rfl, joinNibbles_split b, toNat_nibbles b⟩

/-! Requests (30_encoding.md R78; log 9, 10, 11). -/

theorem runRequest_ok {fmt : Format} {bytes : List Byte} {i : Instr} (h : decode fmt bytes = .ok i) (s : State) :
    runRequest fmt bytes s = exec i s := by
  rw [runRequest, h]

theorem runRequest_error {fmt : Format} {bytes : List Byte} {e : DecodeReject} (h : decode fmt bytes = .error e)
    (s : State) : runRequest fmt bytes s = .refused (.undecodable e) := by
  rw [runRequest, h]

/-- After boot a request at the head of the inbox runs on the rest of it. -/
theorem step_request {s : State} {fmt : Format} {bytes : List Byte} {rest : List Input} (hb : s.boot = .idle)
    (h : s.inbox = .operation fmt bytes :: rest) : step s = runRequest fmt bytes { s with inbox := rest } := by
  simp only [step, turn, h, directStep, hb]

/-- A word of the table is read as the request it stands for. -/
theorem decodeTableWord_some {nbits w : Nat} {i : Instr} (h : decodeTableWord nbits w = some i) :
    decode (tableRequest nbits w).1 (tableRequest nbits w).2 = .ok i := by
  unfold decodeTableWord at h
  split at h
  · rename_i j hj
    rw [hj, Option.some.inj h]
  · cases h

/-- A booted machine next runs the request of the table word placed by withFetchWord. -/
theorem step_withFetchWord {s : State} (hb : s.boot = .idle) (nbits w : Nat) :
    step (s.withFetchWord nbits w) = runRequest (tableRequest nbits w).1 (tableRequest nbits w).2 s := by
  rw [State.withFetchWord, State.withRequest, State.booted_idle hb]
  exact step_request hb rfl

/-- Settles O48, by the decoder's answer to the request, which a booted machine runs next. -/
theorem stepRunsTheDecodedOperation : Obligations.StepRunsTheDecodedOperation := by
  constructor
  · intro s fmt bytes rest hb h
    rw [step_request hb h]
    exact ⟨fun _ hi => runRequest_ok hi _, fun _ he => runRequest_error he _⟩
  · intro s nbits w i hb hi
    rw [step_withFetchWord hb, runRequest_ok (decodeTableWord_some hi)]

/-! The environment's actions (30_encoding.md R78, 10_state.md R23, R24, R26). -/

@[simp] theorem State.setLevel_level (b c : Button) (v : Bool) (s : State) :
    (s.setLevel b v).level c = if c = b then v else s.level c := by
  cases b <;> cases c <;> rfl

@[simp] theorem State.setLevel_flag (b c : Button) (v : Bool) (s : State) : (s.setLevel b v).flag c = s.flag c := by
  cases b <;> rfl

@[simp] theorem State.setFlag_level (b c : Button) (v : Bool) (s : State) : (s.setFlag b v).level c = s.level c := by
  cases b <;> rfl

theorem State.setLevel_keepsTime (b : Button) (v : Bool) (s : State) : KeepsTime s (s.setLevel b v) := by
  cases b <;> exact ⟨rfl, rfl, rfl, rfl, rfl⟩

theorem State.setFlag_keepsTime (b : Button) (v : Bool) (s : State) : KeepsTime s (s.setFlag b v) := by
  cases b <;> exact ⟨rfl, rfl, rfl, rfl, rfl⟩

theorem KeepsTime.trans {s t u : State} (h : KeepsTime s t) (k : KeepsTime t u) : KeepsTime s u := by
  simp only [KeepsTime] at h k ⊢
  simp only [h, k, and_self]

theorem State.react_press_keepsTime (s : State) (b : Button) : KeepsTime s (s.react (.press b)) :=
  (s.setLevel_keepsTime b true).trans (State.setFlag_keepsTime b true _)

/-- A press sets its button's level and flag. -/
theorem State.react_press (s : State) (b c : Button) :
    (s.react (.press b)).level c = (if c = b then true else s.level c) ∧
    (s.react (.press b)).flag c = if c = b then true else s.flag c := by
  simp [State.react]

theorem State.react_release (s : State) (b c : Button) :
    (s.react (.release b)).level c = (if c = b then false else s.level c) ∧
    (s.react (.release b)).flag c = s.flag c := by
  simp [State.react]

theorem State.react_raise (s : State) (b c : Button) :
    (s.react (.raise b)).level c = (if c = b then true else s.level c) ∧
    (s.react (.raise b)).flag c = s.flag c := by
  simp [State.react]

theorem State.react_setFlag (s : State) (b c : Button) :
    (s.react (.setFlag b)).level c = s.level c ∧
    (s.react (.setFlag b)).flag c = if c = b then true else s.flag c := by
  simp [State.react]

/-- Settles O50, by each action's level and flag of every button. -/
theorem environmentSetsInputsFlagsAndRequest : Obligations.EnvironmentSetsInputsFlagsAndRequest := by
  intro s b
  refine ⟨?_, ?_, ?_, ?_, ?_, ?_, ?_, ?_, fun c hc => ?_, ⟨s.react_press_keepsTime b,
    s.setLevel_keepsTime b false, s.setLevel_keepsTime b true, s.setFlag_keepsTime b true⟩, rfl, rfl⟩
  all_goals simp [State.react_press, State.react_release, State.react_raise, State.react_setFlag, *]

end Sys2Proof.Machine

/-! PROOFS. The display driver (40_display_driver.md): the wire contract, the transfers, the operations, and their frame. -/

namespace Sys2Proof.Machine

/-! The wire contract (40_display_driver.md R94). -/

/-- Settles O29, by what every instruction that runs on keeps: the events it appends meet the contract, each pin sequence
ending at rest for the next. -/
theorem everyTraceMeetsTheWireContract : Obligations.EveryTraceMeetsTheWireContract :=
  fun _ _ _ h => (exec_runs h).events

/-! What the driver and the wire leave alone (40_display_driver.md, opening). -/

/-- Two states that differ at most in the tracked cursor, the lines, the controller and the trace. -/
def DriverUpdate (s t : State) : Prop :=
  t = { s with
    cursor := t.cursor, lcdRs := t.lcdRs, lcdEn := t.lcdEn, lcdD := t.lcdD, lcdDir := t.lcdDir,
    controller := t.controller, trace := t.trace }

theorem DriverUpdate.refl (s : State) : DriverUpdate s s := rfl

theorem DriverUpdate.trans {s t u : State} (h : DriverUpdate s t) (k : DriverUpdate t u) : DriverUpdate s u := by
  unfold DriverUpdate at *; rw [k, h]

theorem DriverUpdate.keeps {s t : State} (h : DriverUpdate s t) : KeepsOutsideDriver s t := by
  rw [h]
  exact ⟨⟨rfl, rfl, rfl, rfl, rfl⟩, ⟨rfl, rfl, rfl⟩, ⟨rfl, rfl, rfl, rfl⟩, ⟨rfl, rfl, rfl, rfl⟩, rfl⟩

theorem State.sendByte_update (rs : Bool) (b : Byte) (s : State) : DriverUpdate s (s.sendByte rs b) := by
  rw [State.sendByte_eq]; rfl

theorem State.pulseNibble_update (n : Nibble) (s : State) : DriverUpdate s (s.pulseNibble n) := by
  rw [State.pulseNibble_eq]; rfl

theorem State.driveSelect_update (v : Bool) (s : State) : DriverUpdate s (s.driveSelect v) := rfl

theorem State.moveCursor_update (col : Byte) (s : State) : DriverUpdate s (s.moveCursor col) := by
  rw [State.moveCursor_eq]; rfl

theorem State.bringUpDisplay_update (s : State) : DriverUpdate s s.bringUpDisplay := by
  rw [State.bringUpDisplay_eq]; rfl

theorem State.clearDisplay_update (s : State) : DriverUpdate s s.clearDisplay := by
  rw [State.clearDisplay_eq]; rfl

theorem State.homeDisplay_update (s : State) : DriverUpdate s s.homeDisplay := by
  rw [State.homeDisplay_eq]; rfl

theorem putChar_update {s t : State} {ch : Byte} (h : putChar ch s = .next t) : DriverUpdate s t := by
  obtain ⟨_, _, rfl⟩ := putChar_eq_next h
  rw [State.placeChar_eq]; rfl

theorem putText_update {s t : State} {text : List Byte} (h : putText text s = .next t) : DriverUpdate s t := by
  induction text generalizing s with
  | nil => cases h; exact .refl _
  | cons ch rest ih =>
    obtain ⟨u, h1, h2⟩ := andThen_eq_next h
    exact (putChar_update h1).trans (ih h2)

/-- A driver operation that is one update of the driver, and runs on. -/
theorem withDriver_driverUpdate {s t : State} {f : State → State} (hf : ∀ u, DriverUpdate u (f u))
    (h : (s.withDriver fun u => .next (f u)) = .next t) : s.lcdDir = true ∧ DriverUpdate s t :=
  ⟨(State.withDriver_eq_next h).1, withDriver_update_eq h ▸ hf s⟩

/-- A row of the driver or of the wire is bring-up, or found the lines out and updates the driver alone. -/
theorem driverRow_eq_next {i : Instr} {s t : State} (hi : isDriverRow i = true) (h : exec i s = .next t) :
    (i = .initializeDisplay ∧ t = s.bringUpDisplay) ∨ (s.lcdDir = true ∧ DriverUpdate s t) := by
  cases i with
  | initializeDisplay => exact .inl ⟨rfl, (Host.Outcome.next.inj h).symm⟩
  | setText text =>
    obtain ⟨hd, h⟩ := State.withDriver_eq_next h
    exact .inr ⟨hd, s.clearDisplay_update.trans (putText_update h)⟩
  | addText text =>
    obtain ⟨hd, h⟩ := State.withDriver_eq_next h
    exact .inr ⟨hd, putText_update h⟩
  | writeChar ch =>
    obtain ⟨hd, h⟩ := State.withDriver_eq_next h
    exact .inr ⟨hd, putChar_update h⟩
  | setCursor col => exact .inr (withDriver_driverUpdate (State.moveCursor_update col) h)
  | clear => exact .inr (withDriver_driverUpdate State.clearDisplay_update h)
  | home => exact .inr (withDriver_driverUpdate State.homeDisplay_update h)
  | lcdClear | lcdHome | lcdEntry | lcdDisplay | lcdFunction | lcdSetAddr | lcdData | writeByte | command | data =>
    exact .inr (withDriver_driverUpdate (State.sendByte_update _ _) h)
  | nib n | writeNibble n => exact .inr (withDriver_driverUpdate (State.pulseNibble_update n) h)
  | hsNib3 | hsNib2 =>
    exact .inr (withDriver_driverUpdate
      (fun u => (u.driveSelect_update _).trans (State.pulseNibble_update _ _)) h)
  | dspReset | dspStart | dspSec | dspMin | dspNone | startButton | secButton | minButton | resetGesture | tick | render
  | handler => cases hi

/-- Settles O27: bring-up puts the lines out, every other row found them out, and each updates the driver alone. -/
theorem driverRowsKeepEverythingElse : Obligations.DriverRowsKeepEverythingElse := by
  intro i s t hi h
  have hruns := exec_runs h
  rcases driverRow_eq_next hi h with ⟨rfl, rfl⟩ | ⟨hd, hu⟩
  · exact ⟨s.bringUpDisplay_update.keeps, s.bringUpDisplay_linked.linesOut, fun hne => absurd rfl hne, hruns.enable⟩
  · exact ⟨hu.keeps, hruns.lines hd, fun _ => hd, hruns.enable⟩

/-! Transfers (40_display_driver.md R90-R93). -/

/-- Settles O12: both rows are one nibble transfer. -/
theorem nibbleTransferPulsesEnableOnce : Obligations.NibbleTransferPulsesEnableOnce := by
  intro n i s hd hi
  have e : exec i s = s.withDriver fun u => .next (u.pulseNibble n) := by rcases hi with rfl | rfl <;> rfl
  rw [e, State.withDriver_ready _ hd, State.pulseNibble_eq]
  rfl

/-- Settles O13: the three rows are one byte transaction, two nibble transfers to the controller. -/
theorem byteTransactionSendsHighNibbleFirst : Obligations.ByteTransactionSendsHighNibbleFirst := by
  intro rs b i s hd hi
  have e : exec i s = s.withDriver fun u => .next (u.sendByte rs b) := by
    rcases hi with rfl | ⟨rfl, rfl⟩ | ⟨rfl, rfl⟩ <;> rfl
  rw [e, State.withDriver_ready _ hd, State.sendByte_eq]
  rfl

/-! Bring-up (40_display_driver.md R95). -/

/-- Settles O18, by what bring-up does to the block, and to any controller. -/
theorem initializeReadiesAnyController : Obligations.InitializeReadiesAnyController := by
  intro s
  have e := s.bringUpDisplay_eq
  obtain ⟨_, hac, hblank⟩ := s.controller.bringUp_ready
  refine ⟨s.bringUpDisplay, rfl, ?_, ?_, ?_, ?_, ?_, ?_, s.bringUpDisplay_update.keeps, s.bringUpDisplay_linked, ?_,
    fun a ha => ?_⟩
  all_goals rw [e]
  · exact hac
  · exact hblank ▸ Ddram.blank_read ha

/-! The cursor (40_display_driver.md R96-R98). -/

/-- The set-address byte of a column: base code OR address. -/
theorem columnByte_eq {c : Nat} (h : c < 16) :
    columnByte c = 0x80 ||| BitVec.ofNat 8 (if c < 8 then c else c + 0x38) := by
  revert h; revert c; decide

/-- Settles O19: setCursor sends the byte of the clamped column. -/
theorem setCursorSendsTheClampedColumn : Obligations.SetCursorSendsTheClampedColumn := by
  intro col s hd
  have e : exec (.setCursor col) s = .next (s.moveCursor col) :=
    State.withDriver_ready (fun u => .next (u.moveCursor col)) hd
  rw [e, State.moveCursor_eq, columnByte_eq (clampColumn_lt col)]
  rfl

theorem exec_clear {s : State} (hd : s.lcdDir = true) : exec .clear s = .next s.clearDisplay :=
  State.withDriver_ready (fun u => .next u.clearDisplay) hd

theorem exec_home {s : State} (hd : s.lcdDir = true) : exec .home s = .next s.homeDisplay :=
  State.withDriver_ready (fun u => .next u.homeDisplay) hd

/-- Settles O20: each is its command byte, the wait, and the cursor's new value. -/
theorem clearAndHomeWaitAndResetTheCursor : Obligations.ClearAndHomeWaitAndResetTheCursor := by
  intro s hd
  rw [exec_clear hd, exec_home hd, State.clearDisplay, State.homeDisplay, State.sendCommand_eq, State.sendCommand_eq,
    State.sendByte_eq_afterByte, State.sendByte_eq_afterByte]
  exact ⟨rfl, rfl⟩

/-! Characters and texts (40_display_driver.md R99-R101). -/

theorem exec_writeChar {s : State} (hd : s.lcdDir = true) (ch : Byte) : exec (.writeChar ch) s = putChar ch s :=
  State.withDriver_ready _ hd

theorem exec_addText {s : State} (hd : s.lcdDir = true) (text : List Byte) : exec (.addText text) s = putText text s :=
  State.withDriver_ready _ hd

/-- Away from the row switch a character is its own byte transaction. -/
theorem State.placeChar_inRow {s : State} (h : s.cursor ≠ 8) (ch : Byte) :
    s.placeChar ch = { s.afterByte true ch with cursor := s.cursor + 1 } := by
  have hc : s.cursor.toNat ≠ Config.rowCutoff := fun e => h (BitVec.eq_of_toNat_eq e)
  simp only [State.placeChar, if_neg hc, State.sendByte_eq_afterByte]
  rfl

/-- At the row switch the set-address byte of the second row comes first. -/
theorem State.placeChar_atSwitch {s : State} (h : s.cursor = 8) (ch : Byte) :
    s.placeChar ch = { (s.afterByte false 0xC0).afterByte true ch with cursor := 9 } := by
  have hc : s.cursor.toNat = Config.rowCutoff := congrArg BitVec.toNat h
  simp only [State.placeChar, if_pos hc, State.moveCursor, State.sendCommand_eq, State.sendByte_eq_afterByte]
  rfl

/-- Settles O21, by where the cursor stands: off the row switch, on it, or past the last column. -/
theorem writeCharSwitchesRowAtColumnEight : Obligations.WriteCharSwitchesRowAtColumnEight := by
  intro ch s hd
  rw [exec_writeChar hd]
  refine ⟨fun hc h8 => ?_, fun h8 => ?_, putChar_refused ch hd⟩
  · rw [putChar_ready ch hd hc, State.placeChar_inRow h8]
  · rw [putChar_ready ch hd (h8 ▸ by decide), State.placeChar_atSwitch h8]

theorem State.afterText_trace (text : List Byte) (s : State) :
    (s.afterText text).trace = s.trace ++ textEvents s.cursor.toNat text := by
  unfold State.afterText
  cases hl : text.getLast? with
  | none => rw [List.getLast?_eq_none_iff.1 hl]; exact (List.append_nil _).symm
  | some last => rfl

theorem State.afterText_cursor {text : List Byte} {s : State} (h : s.cursor.toNat + text.length ≤ 16) :
    (s.afterText text).cursor.toNat = s.cursor.toNat + text.length := by
  unfold State.afterText
  cases hl : text.getLast? with
  | none => rw [List.getLast?_eq_none_iff.1 hl]; rfl
  | some last => exact Nat.mod_eq_of_lt (by omega)

/-- A text that fits runs on: the cursor after its last character, its events, and the driver alone updated. -/
theorem putText_runsOn {s : State} (text : List Byte) (hd : s.lcdDir = true) (hc : s.cursor.toNat + text.length ≤ 16) :
    ∃ t, putText text s = .next t ∧ t.cursor.toNat = s.cursor.toNat + text.length ∧
      t.trace = s.trace ++ textEvents s.cursor.toNat text ∧ DriverUpdate s t ∧ t.lcdDir = true := by
  have e := putText_fits text hd hc
  exact ⟨_, e, State.afterText_cursor hc, s.afterText_trace text, putText_update e, (putText_runs e).lines hd⟩

/-- Settles O23: addText is the fold of writeChar, which keeps the lines out. -/
theorem addTextWritesCharactersInOrder : Obligations.AddTextWritesCharactersInOrder := by
  intro s hd
  refine ⟨exec_addText hd [], fun ch rest => ?_, fun text hc => ?_, fun text hs hc => ?_⟩
  · rw [exec_addText hd, exec_writeChar hd, putText]
    cases h : putChar ch s with
    | next u => exact (exec_addText ((putChar_runs h).lines hd) rest).symm
    | fault e => rfl
    | refused e => rfl
  · obtain ⟨t, ht, hcursor, htrace, hu, hout⟩ := putText_runsOn text hd hc
    exact ⟨t, (exec_addText hd text).trans ht, hcursor, htrace, hu.keeps, hout⟩
  · rw [exec_addText hd, putText_overflows text hd hs hc]

/-- Settles O24: after a clear the lines are out, the cursor is 0 and the text is added. -/
theorem setTextClearsThenWrites : Obligations.SetTextClearsThenWrites := by
  intro text s hd
  have hclear : s.clearDisplay.lcdDir = true := s.clearDisplay_runs.lines hd
  have e : exec (.setText text) s = putText text s.clearDisplay := State.withDriver_ready _ hd
  rw [e]
  refine ⟨?_, fun hl => ?_, replaceText_overflows text hd⟩
  · rw [exec_clear hd, andThen_next, exec_addText hclear]
  · have hcursor : s.clearDisplay.cursor.toNat = 0 := rfl
    obtain ⟨t, ht, htc, htrace, hu, hout⟩ := putText_runsOn text hclear (by omega)
    rw [hcursor, State.clearDisplay_eq] at htrace
    exact ⟨t, ht, by omega, htrace, (s.clearDisplay_update.trans hu).keeps, hout⟩

end Sys2Proof.Machine

/-! PROOFS. The TimeKeeper (41_timekeeper.md): decomposition and text, what each event does, the ways into Alarm and out
of it, and that the display shows the current state. -/

namespace Sys2Proof.Machine

/-! Decomposition and text (41_timekeeper.md R117, R119, R121). -/

/-- Settles O31, by definition, and because the hours saturate above 255 * 3600 + 3599 seconds. -/
theorem secondsDecomposeAndReconstruct : Obligations.SecondsDecomposeAndReconstruct := by
  intro v
  refine ⟨rfl, rfl, rfl, ?_⟩
  simp only [hoursOf, minutesOf, secondsOf, Config.hoursMax]
  omega

/-- Settles O32, by definition and by division with remainder. -/
theorem twoDigitsClampTheTens : Obligations.TwoDigitsClampTheTens := by
  intro n _
  exact ⟨rfl, fun _ => by omega, fun _ => by omega⟩

/-- Settles O33: the separator is one code for either signal. -/
theorem renderTextIsEightCodes : Obligations.RenderTextIsEightCodes :=
  fun v colonOn =>
    ⟨by simp [renderText, renderLayout, Config.charColon, Config.charBlank], renderText_length v colonOn⟩

theorem renderText_zero : renderText 0 true = [0x30, 0x30, 0x3A, 0x30, 0x30, 0x3A, 0x30, 0x30] := by decide

/-- In Paused and Alarm the colon is shown at even `sc` (41_timekeeper.md R118). -/
theorem colonPhase_eq (sc : Byte) : colonPhase sc = decide (sc.toNat % 2 = 0) := evenSeconds_eq sc

theorem State.text_stopped {s : State} (h : s.mode = .stopped) : s.text = renderText s.cfg true := by
  simp only [State.text, State.shownSeconds, State.colonOn, h]

theorem State.text_running {s : State} (h : s.mode = .running) : s.text = renderText s.cur true := by
  simp only [State.text, State.shownSeconds, State.colonOn, h]

theorem State.text_paused {s : State} (h : s.mode = .paused) :
    s.text = renderText s.cur (decide (s.sc.toNat % 2 = 0)) := by
  simp only [State.text, State.shownSeconds, State.colonOn, h, colonPhase_eq]

theorem State.text_alarm {s : State} (h : s.mode = .alarm) :
    s.text = renderText s.cur (decide (s.sc.toNat % 2 = 0)) := by
  simp only [State.text, State.shownSeconds, State.colonOn, h, colonPhase_eq]

/-! The events: updates, then the render of the state they leave (41_timekeeper.md R110). -/

/-- An event whose updates touch the TimeKeeper alone runs on whenever the lines are out. -/
theorem renderDisplay_update {s u : State} (hd : s.lcdDir = true) (hu : TimeUpdate s u) :
    renderDisplay u = .next u.rendered := renderDisplay_eq (hu.lcdDir.trans hd)

/-- A render after updates that write no alarm. -/
theorem State.rendered_ends_silent {s u : State} (hd : s.lcdDir = true) (hu : TimeUpdate s u) (ht : u.trace = s.trace) :
    EndsWithRender s u.rendered [] u.text :=
  State.rendered_ends hd hu (ht.trans (List.append_nil _).symm)

/-- Settles O34: the render of the state's own text, which is the value and the colon of its mode. -/
theorem renderShowsTheModesValue : Obligations.RenderShowsTheModesValue := by
  intro s hd
  obtain ⟨⟨hkeeps, _⟩, _⟩ := s.rendered_keeps
  have hends := State.rendered_ends_silent hd (.refl s) rfl
  refine ⟨s.rendered, renderDisplay_eq hd, hkeeps, rfl, ?_⟩
  cases hm : s.mode with
  | stopped => exact State.text_stopped hm ▸ hends
  | running => exact State.text_running hm ▸ hends
  | paused => exact State.text_paused hm ▸ hends
  | alarm => exact State.text_alarm hm ▸ hends

/-- Every transition of StartButton keeps the configured seconds and zeroes `sc`. -/
theorem State.toggleRun_values (s : State) : s.toggleRun.cfg = s.cfg ∧ s.toggleRun.sc = 0 := by
  rw [State.toggleRun_eq]
  cases s.mode <;> exact ⟨rfl, rfl⟩

/-- Settles O35, mode by mode: the updates, then the render of the state they leave. -/
theorem startButtonMovesTheMode : Obligations.StartButtonMovesTheMode := by
  intro s hd
  obtain ⟨hcfg, hsc⟩ := s.toggleRun_values
  refine ⟨s.toggleRun.rendered, renderDisplay_update hd s.toggleRun_update, hcfg, hsc, ?_, ?_, ?_, ?_⟩
  all_goals
    intro hm
    rw [State.toggleRun_eq, hm]
  · exact ⟨rfl, rfl, rfl, State.rendered_ends_silent hd rfl rfl⟩
  · exact ⟨rfl, rfl, rfl, State.rendered_ends_silent hd rfl rfl⟩
  · exact ⟨rfl, rfl, rfl, State.rendered_ends_silent hd rfl rfl⟩
  · exact ⟨rfl, rfl, rfl, State.rendered_ends hd rfl rfl⟩

/-- Settles O36: one argument for both buttons, by what adding `k` seconds does to each register. -/
theorem timeButtonsAddSeconds : Obligations.TimeButtonsAddSeconds := by
  intro k i s hd hi
  have he : exec i s = renderDisplay (s.addTime k) := by rcases hi with ⟨rfl, rfl⟩ | ⟨rfl, rfl⟩ <;> rfl
  have hu := s.addTime_update k
  obtain ⟨hmode, hsc, halarm, htrace, hcfg, hcur⟩ := s.addTime_values k
  exact ⟨_, he.trans (renderDisplay_update hd hu), hmode, hsc, halarm, hcfg, hcur,
    State.rendered_ends_silent hd hu htrace⟩

/-- Settles O37: the updates do not read the mode, and what they leave renders as 00:00:00. -/
theorem resetGestureReinitialisesTheTimer : Obligations.ResetGestureReinitialisesTheTimer := by
  intro s hd
  have htext : s.reinitialise.text = [0x30, 0x30, 0x3A, 0x30, 0x30, 0x3A, 0x30, 0x30] := renderText_zero
  exact ⟨_, renderDisplay_update hd s.reinitialise_update, rfl, rfl, rfl, rfl, rfl,
    htext ▸ State.rendered_ends hd s.reinitialise_update rfl⟩

theorem State.secondTick_cfg (s : State) : s.secondTick.cfg = s.cfg := by
  rw [State.secondTick_eq]
  cases s.mode with
  | running => dsimp only; split <;> rfl
  | stopped | paused | alarm => rfl

/-- Settles O38, by what a Tick does in each mode, and in Running by whether the count reaches 0. -/
theorem tickCountsAndSoundsTheAlarm : Obligations.TickCountsAndSoundsTheAlarm := by
  intro s hd
  refine ⟨s.secondTick.rendered, renderDisplay_update hd s.secondTick_update, s.secondTick_cfg, ?_, ?_, ?_, ?_⟩
  · rintro (hm | hm)
    all_goals
      rw [State.secondTick_eq, hm]
      exact ⟨rfl, rfl, rfl, rfl, State.rendered_ends_silent hd rfl rfl⟩
  · intro hm hz
    rw [State.secondTick_eq, hm]
    dsimp only
    rw [if_neg hz]
    exact ⟨rfl, rfl, rfl, rfl, State.rendered_ends_silent hd rfl rfl⟩
  · intro hm hz
    rw [State.secondTick_eq, hm]
    dsimp only
    rw [if_pos hz]
    exact ⟨rfl, rfl, rfl, rfl, State.rendered_ends hd rfl rfl⟩
  · intro hm
    rw [State.secondTick_eq, hm, evenSeconds_eq]
    exact ⟨rfl, rfl, rfl, rfl, State.rendered_ends hd rfl rfl⟩

/-- Settles O39: the parity of `sc` inverts at every count, and the entering Tick leaves `sc` 0 and the output on. -/
theorem alarmAlternatesEveryTick : Obligations.AlarmAlternatesEveryTick := by
  intro s t h
  obtain ⟨hd, rfl⟩ := renderDisplay_eq_next h
  rw [State.secondTick_lcdDir] at hd
  obtain ⟨t, ht, _, _, hcounts, henters, halarm⟩ := tickCountsAndSoundsTheAlarm s hd
  obtain rfl := Host.Outcome.next.inj (h.symm.trans ht)
  constructor
  · intro hm hparity
    obtain ⟨hsc, _, hmode, hout, _⟩ := halarm hm
    rw [hout, hsc, hparity]
    exact ⟨hmode, evenSeconds_succ s.sc, rfl⟩
  · intro hm hentered
    by_cases hz : s.counted = 0
    · obtain ⟨hsc, _, _, hout, _⟩ := henters hm hz
      rw [hout, hsc]
      rfl
    · obtain ⟨_, _, hmode, _⟩ := hcounts hm hz
      cases hmode.symm.trans hentered

/-! The ways into Alarm and out of it (41_timekeeper.md R111). -/

/-- Alarm is entered only where `entry` holds, and left only for Stopped, with the output off, where `exit` holds. -/
def AlarmMoves (entry exit : Prop) (s t : State) : Prop :=
  (s.mode ≠ .alarm → t.mode = .alarm → entry) ∧
  (s.mode = .alarm → t.mode ≠ .alarm → t.mode = .stopped ∧ t.alarm = false ∧ exit)

section
variable {entry exit entry' exit' : Prop} {s t u : State}

theorem AlarmMoves.of_mode (h : t.mode = s.mode) : AlarmMoves entry exit s t :=
  ⟨fun hs ht => absurd (h.symm.trans ht) hs, fun hs ht => absurd (h.trans hs) ht⟩

theorem AlarmMoves.imp (h : AlarmMoves entry exit s t) (hentry : entry → entry') (hexit : exit → exit') :
    AlarmMoves entry' exit' s t := by
  obtain ⟨hin, hout⟩ := h
  refine ⟨fun hs ht => hentry (hin hs ht), fun hs ht => ?_⟩
  obtain ⟨hmode, halarm, hx⟩ := hout hs ht
  exact ⟨hmode, halarm, hexit hx⟩

/-- What follows leaves mode and output. -/
theorem AlarmMoves.then_same (h : AlarmMoves entry exit s t) (hmode : u.mode = t.mode) (halarm : u.alarm = t.alarm) :
    AlarmMoves entry exit s u := by
  unfold AlarmMoves
  rw [hmode, halarm]
  exact h

/-- A part that never leaves Alarm, then one that never enters it. -/
theorem AlarmMoves.trans (h : AlarmMoves entry False s t) (k : AlarmMoves False exit t u) :
    AlarmMoves entry exit s u := by
  obtain ⟨hin, hout⟩ := h
  obtain ⟨kin, kout⟩ := k
  by_cases ht : t.mode = .alarm
  · exact ⟨fun hs _ => hin hs ht, fun _ hu => kout ht hu⟩
  · refine ⟨fun _ hu => (kin ht hu).elim, fun hs _ => ?_⟩
    obtain ⟨_, _, hfalse⟩ := hout hs ht
    exact hfalse.elim

theorem renderDisplay_moves (h : AlarmMoves entry exit s u) (e : renderDisplay u = .next t) :
    AlarmMoves entry exit s t := by
  obtain ⟨_, rfl⟩ := renderDisplay_eq_next e
  exact h.then_same rfl rfl

end

theorem State.toggleRun_moves (s : State) : AlarmMoves False True s s.toggleRun := by
  refine ⟨fun _ ht => s.toggleRun_mode ht, fun hs _ => ?_⟩
  obtain ⟨hmode, halarm⟩ := State.toggleRun_leavesAlarm hs
  exact ⟨hmode, halarm, trivial⟩

theorem State.addTime_moves (k : Seconds) (s : State) : AlarmMoves False False s (s.addTime k) :=
  have ⟨hmode, _⟩ := s.addTime_values k
  .of_mode hmode

theorem State.reinitialise_moves (s : State) : AlarmMoves False True s s.reinitialise :=
  ⟨fun _ => nofun, fun _ _ => ⟨rfl, rfl, trivial⟩⟩

theorem State.secondTick_moves (s : State) : AlarmMoves (s.mode = .running ∧ s.counted = 0) False s s.secondTick := by
  unfold AlarmMoves
  rw [State.secondTick_mode]
  split
  next hcount => exact ⟨fun _ _ => hcount, fun _ ht => absurd rfl ht⟩
  next => exact ⟨fun hs ht => absurd ht hs, fun hs ht => absurd hs ht⟩

/-- Of the rows only the gesture and the start lead out of Alarm, and none leads in. -/
theorem State.rowUpdate_moves (row : DispatchRow) (s : State) :
    AlarmMoves False (row = .reset ∨ row = .start) s (s.rowUpdate row) := by
  cases row with
  | reset => exact s.settled.reinitialise_moves.imp id fun _ => .inl rfl
  | start => exact s.toggleRun_moves.imp id fun _ => .inr rfl
  | sec => exact (s.addTime_moves 1).imp id False.elim
  | min => exact (s.addTime_moves 60).imp id False.elim
  | idle => exact .of_mode rfl

/-- A row's whole branch moves the mode as its updates do. -/
theorem State.rowServed_moves (row : DispatchRow) (s : State) :
    AlarmMoves False (row = .reset ∨ row = .start) s ((s.rowUpdate row).rendered.rowEnd row) :=
  have ⟨hmode, halarm⟩ := State.rowEnd_mode row (s.rowUpdate row).rendered
  (s.rowUpdate_moves row).then_same hmode halarm

theorem serveRow_moves {row : DispatchRow} {s t : State} (h : serveRow row s = .next t) :
    AlarmMoves False (row = .reset ∨ row = .start) s t := by
  rcases serveRow_eq_next h with ⟨_, rfl⟩ | ⟨_, _, rfl⟩
  · exact .of_mode rfl
  · exact s.rowServed_moves row

/-- Tick scaling enters Alarm only on the 25th invocation. -/
theorem State.scaled_moves (s : State) :
    AlarmMoves (s.mode = .running ∧ s.counted = 0 ∧ s.tc = 24) False s s.scaled := by
  unfold State.scaled
  split
  next htick =>
    have htc : s.tc = 24 := (BitVec.add_left_inj 1#8).1 htick
    have h : AlarmMoves (s.mode = .running ∧ s.counted = 0) False s { s with tc := 0 }.secondTick :=
      State.secondTick_moves { s with tc := 0 }
    exact (h.then_same rfl rfl).imp (fun ⟨hm, hz⟩ => ⟨hm, hz, htc⟩) id
  next => exact .of_mode rfl

/-- The gesture is dispatched with both levels asserted, the start with its flag set (30_encoding.md R75). -/
theorem dispatchRow_reset_or_start {s : State}
    (h : dispatchRow s.dispatchVector = .reset ∨ dispatchRow s.dispatchVector = .start) :
    (s.lvlSec && s.lvlMin || s.efStart) = true := by
  rw [State.dispatchVector, dispatchTakesFirstMatchingRow] at h
  cases hboth : s.lvlSec && s.lvlMin with
  | true => rfl
  | false =>
    cases hstart : s.efStart with
    | true => rfl
    | false =>
      simp only [hboth, hstart, Bool.false_eq_true, if_false] at h
      split at h
      · simp at h
      · split at h <;> simp at h

theorem execHandler_moves {s t : State} (h : execHandler s = .next t) :
    AlarmMoves (s.mode = .running ∧ s.counted = 0 ∧ s.tc = 24) ((s.lvlSec && s.lvlMin || s.efStart) = true) s t := by
  obtain ⟨_, _, h⟩ := execHandler_eq_next h
  obtain ⟨_, hrow⟩ := invokeHandler_eq_next h
  have hscaled : AlarmMoves (s.mode = .running ∧ s.counted = 0 ∧ s.tc = 24) False s s.enterHandler.scaled :=
    s.enterHandler.scaled_moves
  rcases hrow with ⟨_, rfl⟩ | ⟨_, _, rfl⟩
  · exact (hscaled.then_same rfl rfl).imp id False.elim
  · have hserved := State.rowServed_moves (dispatchRow s.dispatchVector) s.enterHandler.scaled
    exact (hscaled.trans (hserved.imp id dispatchRow_reset_or_start)).then_same rfl rfl

/-- Settles O40, by what each event's updates do to the mode; the handler scales the tick, which never leaves Alarm, and
then serves a row, which never enters it. -/
theorem alarmIsEnteredAndLeftOnlyAsTheTableSays : Obligations.AlarmIsEnteredAndLeftOnlyAsTheTableSays := by
  intro i s t h
  change AlarmMoves _ _ s t
  by_cases hr : isDriverRow i = true
  · obtain ⟨⟨_, _, _, hmode, _⟩, _⟩ := exec_driverRow_keeps hr h
    exact .of_mode hmode
  cases i with
  | startButton => exact (renderDisplay_moves s.toggleRun_moves h).imp False.elim (by simp)
  | secButton | minButton => exact (renderDisplay_moves (s.addTime_moves _) h).imp False.elim False.elim
  | resetGesture => exact (renderDisplay_moves s.reinitialise_moves h).imp False.elim (by simp)
  | tick => exact (renderDisplay_moves s.secondTick_moves h).imp (by simp) False.elim
  | render => exact renderDisplay_moves (.of_mode rfl) h
  | dspReset => exact (serveRow_moves (row := .reset) h).imp False.elim (by simp)
  | dspStart => exact (serveRow_moves (row := .start) h).imp False.elim (by simp)
  | dspSec => exact (serveRow_moves (row := .sec) h).imp False.elim (by simp)
  | dspMin => exact (serveRow_moves (row := .min) h).imp False.elim (by simp)
  | dspNone => exact (serveRow_moves (row := .idle) h).imp False.elim (by simp)
  | handler => exact (execHandler_moves h).imp (by simp) (by simp)
  | _ => exact absurd rfl hr

/-! The display shows the current state (41_timekeeper.md R110, R122). -/

/-- An event on an agreeing display leaves it current. -/
theorem renderDisplay_current {s u t : State} (hl : s.Linked) (hu : TimeUpdate s u) (h : renderDisplay u = .next t) :
    t.Current := by
  obtain ⟨_, rfl⟩ := renderDisplay_eq_next h
  exact (hl.of_update hu).rendered_current

/-- Settles O41: each event is an update of the TimeKeeper and a render. -/
theorem eventsShowTheStateTheyLeave : Obligations.EventsShowTheStateTheyLeave := by
  intro i s t hi hl h
  suffices hcurrent : t.Current by
    obtain ⟨_, hshows, hcursor⟩ := hcurrent
    exact ⟨hshows, hcursor⟩
  rcases hi with rfl | rfl | rfl | rfl | rfl | rfl
  · exact renderDisplay_current hl s.toggleRun_update h
  · exact renderDisplay_current hl (s.addTime_update 1) h
  · exact renderDisplay_current hl (s.addTime_update 60) h
  · exact renderDisplay_current hl s.reinitialise_update h
  · exact renderDisplay_current hl s.secondTick_update h
  · exact renderDisplay_current hl (.refl s) h

/-- What the boot position says of the display: after bring-up driver and controller agree, after the boot render the
display is current (70_reset_and_hazards.md R183, 41_timekeeper.md R122). -/
def State.Showing (s : State) : Prop :=
  (s.boot = .firstRender → s.Linked) ∧ (s.boot = .enableTimer ∨ s.boot = .idle → s.Current)

/-- Two states that differ at most in what the environment sets: flags, levels, the timer's request, the inbox. -/
def InputUpdate (s t : State) : Prop :=
  t = { s with
    efStart := t.efStart, efSec := t.efSec, efMin := t.efMin, tp := t.tp,
    lvlStart := t.lvlStart, lvlSec := t.lvlSec, lvlMin := t.lvlMin, inbox := t.inbox }

theorem State.Showing.of_inputs {s t : State} (h : s.Showing) (u : InputUpdate s t) : t.Showing := by
  obtain ⟨hlinked, hcurrent⟩ := h
  rw [u]
  exact ⟨fun hb => (hlinked hb).of_same rfl rfl rfl rfl, fun hb => (hcurrent hb).of_same rfl rfl rfl rfl rfl⟩

theorem State.react_inputs {input : Input} (hi : input ≠ .powerUp) (s : State) : InputUpdate s (s.react input) := by
  cases input with
  | press b | release b | raise b | setFlag b => cases b <;> rfl
  | hardwareTick | proceed | operation => rfl
  | powerUp => exact absurd rfl hi

/-- The environment's actions: a power-up restarts the boot, every other one leaves the display. -/
theorem State.Showing.react {s : State} (h : s.Showing) (input : Input) : (s.react input).Showing := by
  by_cases hi : input = .powerUp
  · subst hi
    exact ⟨nofun, nofun⟩
  · exact h.of_inputs (s.react_inputs hi)

theorem State.react_inbox (s : State) (input : Input) : (s.react input).inbox = s.inbox := by
  cases input with
  | press b | release b | raise b | setFlag b => cases b <;> rfl
  | hardwareTick | proceed | operation | powerUp => rfl

/-- Everything an operation of the boot sequence can be (70_reset_and_hazards.md R183). -/
theorem bootStep_eq_next {s t : State} (h : bootStep s = .next t) :
    (s.boot = .bringUp ∧ t = { s.bringUpDisplay with boot := .firstRender }) ∨
    (s.boot = .firstRender ∧ t = { s.rendered with boot := .enableTimer }) ∨
    (s.boot = .enableTimer ∧ t = { s with irqEnabled := true, boot := .idle }) ∨
    (s.boot = .idle ∧ t = s) := by
  unfold bootStep at h
  cases hb : s.boot with
  | bringUp =>
    simp only [hb, Host.Outcome.next.injEq] at h
    exact .inl ⟨rfl, h.symm⟩
  | firstRender =>
    simp only [hb, Config.bootRender, if_true] at h
    obtain ⟨u, hu, e⟩ := andThen_eq_next h
    obtain ⟨_, rfl⟩ := renderDisplay_eq_next hu
    exact .inr (.inl ⟨rfl, (Host.Outcome.next.inj e).symm⟩)
  | enableTimer =>
    simp only [hb, Host.Outcome.next.injEq] at h
    exact .inr (.inr (.inl ⟨rfl, h.symm⟩))
  | idle =>
    simp only [hb, Host.Outcome.next.injEq] at h
    exact .inr (.inr (.inr ⟨rfl, h.symm⟩))

/-- The block's operation is one of the boot sequence, which does nothing once it is over, or an invocation of the
handler. -/
theorem blockStep_eq_next {s t : State} (h : blockStep s = .next t) :
    bootStep s = .next t ∨ (s.boot = .idle ∧ execHandler s = .next t) := by
  by_cases hb : s.boot = .idle
  · rw [blockStep_idle hb, idleStep] at h
    split at h
    · exact .inr ⟨hb, h⟩
    · left
      rw [← h, bootStep, hb]
  · rw [blockStep_boot hb] at h
    exact .inl h

theorem bootStep_showing {s t : State} (hs : s.Showing) (h : bootStep s = .next t) : t.Showing := by
  have ⟨hlinked, hcurrent⟩ := hs
  rcases bootStep_eq_next h with ⟨_, rfl⟩ | ⟨hb, rfl⟩ | ⟨hb, rfl⟩ | ⟨_, rfl⟩
  · exact ⟨fun _ => s.bringUpDisplay_linked.of_same rfl rfl rfl rfl, nofun⟩
  · exact ⟨nofun, fun _ => (hlinked hb).rendered_current.of_same rfl rfl rfl rfl rfl⟩
  · exact ⟨nofun, fun _ => (hcurrent (.inl hb)).of_same rfl rfl rfl rfl rfl⟩
  · exact hs

theorem blockStep_showing {s t : State} (hs : s.Showing) (h : blockStep s = .next t) : t.Showing := by
  rcases blockStep_eq_next h with h | ⟨hb, h⟩
  · exact bootStep_showing hs h
  · obtain ⟨_, hcurrent⟩ := hs
    refine ⟨fun hfirst => ?_, fun _ => execHandler_current (hcurrent (.inr hb)) h⟩
    rw [(execHandler_runs h).boot, hb] at hfirst
    cases hfirst

theorem blockStep_inbox {s t : State} (h : blockStep s = .next t) : t.inbox = s.inbox := by
  rcases blockStep_eq_next h with h | ⟨_, h⟩
  · rcases bootStep_eq_next h with ⟨_, rfl⟩ | ⟨_, rfl⟩ | ⟨_, rfl⟩ | ⟨_, rfl⟩
    · obtain ⟨_, _, _, hinbox⟩ := s.bringUpDisplay_runs.environment
      exact hinbox
    all_goals rfl
  · obtain ⟨_, _, _, hinbox⟩ := (execHandler_runs h).environment
    exact hinbox

/-- Settles O56: the invariant of every step, an inbox that only shrinks, and what the environment's actions and the
block's operations do to the display; an operation asked for directly is shut out. -/
theorem theDisplayAlwaysShowsTheCurrentState : Obligations.TheDisplayAlwaysShowsTheCurrentState := by
  intro s t ⟨hinv, hquiet, hlinked, hcurrent⟩ h
  suffices hshow : t.inbox.all (fun i => !i.isOperation) = true ∧ t.Showing by
    obtain ⟨hquiet', hlinked', hcurrent'⟩ := hshow
    exact ⟨everyStepKeepsTheInvariant s t hinv h, hquiet', hlinked', hcurrent'⟩
  have hs (rest : List Input) : State.Showing { s with inbox := rest } :=
    State.Showing.of_inputs (s := s) ⟨hlinked, hcurrent⟩ rfl
  rcases step_cases s with ⟨input, rest, hinbox, _, _, e⟩ | ⟨rest, hinbox, e⟩ | ⟨_, _, _, hinbox, _, _⟩
  · obtain rfl := Host.Outcome.next.inj (e.symm.trans h)
    rw [hinbox, List.all_cons, Bool.and_eq_true] at hquiet
    obtain ⟨_, hrest⟩ := hquiet
    rw [State.react_inbox]
    exact ⟨hrest, (hs rest).react input⟩
  · rw [e] at h
    rw [blockStep_inbox h]
    refine ⟨?_, blockStep_showing (hs rest) h⟩
    rcases hinbox with rfl | hinbox
    · exact hquiet
    · rw [hinbox, List.all_cons, Bool.and_eq_true] at hquiet
      obtain ⟨_, hrest⟩ := hquiet
      exact hrest
  · rw [hinbox] at hquiet
    cases hquiet

end Sys2Proof.Machine

/-! PROOFS. The dispatcher and the interrupt (42_input_dispatcher.md, 60_exceptions.md): what a dispatch row serves, and
what one invocation of the handler does. -/

namespace Sys2Proof.Machine

/-! The dispatch rows (42_input_dispatcher.md R132, R133). -/

/-- After a button's event: the debounce wait, then the clear of its flag. -/
theorem State.debounced_clears (b : Button) (s : State) : s.debounced b =
    State.setFlag b false { s.afterWait 150000 with trace := s.trace ++ [.wait 150000, .clrf b] } := by
  cases b <;> simp [State.debounced, State.setFlag, State.afterWait, Config.tDebounce]

/-- The branch of a button whose event is updates of the TimeKeeper and a render. -/
theorem serveButton_render {s u : State} {event : State → Result} (b : Button) (hd : s.lcdDir = true)
    (hu : TimeUpdate s u) (he : event s = renderDisplay u) :
    ∃ t, event s = .next t ∧ serveButton b event s = .next
      (State.setFlag b false { t.afterWait 150000 with trace := t.trace ++ [.wait 150000, .clrf b] }) := by
  have ht : event s = .next u.rendered := he.trans (renderDisplay_update hd hu)
  refine ⟨u.rendered, ht, ?_⟩
  rw [serveButton_eq, ht, andThen_next, State.debounced_clears]

/-- Settles O42: the gesture's row is ResetGesture on the settled state, a button's row its event and the debounce. -/
theorem dispatchRowsServeTheirEvents : Obligations.DispatchRowsServeTheirEvents := by
  intro s hd
  have hreset : execResetGesture s.settled = .next s.settled.reinitialise.rendered :=
    renderDisplay_update (s := s.settled) hd s.settled.reinitialise_update
  refine ⟨fun _ _ _ => ⟨_, (serveCombo_eq s).trans hreset, hreset⟩, fun _ _ _ _ => ?_, fun _ _ _ => ?_, fun _ _ => ?_,
    fun _ _ => rfl⟩
  · exact serveButton_render .start hd s.toggleRun_update rfl
  · exact serveButton_render .sec hd (s.addTime_update 1) rfl
  · exact serveButton_render .min hd (s.addTime_update 60) rfl

/-! One invocation (42_input_dispatcher.md R130, R131, R134). -/

/-- Settles O43: the handler's parts in their order, its dispatch being the row instruction of the vector. -/
theorem handlerTicksThenDispatchesThenReturns : Obligations.HandlerTicksThenDispatchesThenReturns := by
  intro s hi hc
  have hdispatch : (fun u => exec (dispatchInstr u.dispatchVector) u) = dispatch := funext exec_dispatchInstr
  rw [hdispatch]
  exact execHandler_ready hi hc

/-- A button's event and its debounce leave the timer's request and clear that button's flag alone. -/
theorem TimeUpdate.debounced_flags {s u : State} (h : TimeUpdate s u) (b : Button) :
    (u.rendered.debounced b).tp = s.tp ∧
    (u.rendered.debounced b).efStart = (s.efStart && decide (b ≠ .start)) ∧
    (u.rendered.debounced b).efSec = (s.efSec && decide (b ≠ .sec)) ∧
    (u.rendered.debounced b).efMin = (s.efMin && decide (b ≠ .min)) := by
  rw [h]
  exact ⟨rfl, rfl, rfl, rfl⟩

/-- A row's branch leaves the timer's request and clears the row's own flag, the gesture's those of Sec and Min. -/
theorem serveRow_flags {row : DispatchRow} {s t : State} (h : serveRow row s = .next t) :
    t.tp = s.tp ∧
    t.efStart = (s.efStart && decide (row ≠ .start)) ∧
    t.efSec = (s.efSec && decide (row ≠ .reset ∧ row ≠ .sec)) ∧
    t.efMin = (s.efMin && decide (row ≠ .reset ∧ row ≠ .min)) := by
  rcases serveRow_eq_next h with ⟨rfl, rfl⟩ | ⟨hrow, _, rfl⟩
  · simp
  cases row with
  | reset => simp [State.rowUpdate, State.rowEnd, State.rendered, State.reinitialise_eq, State.settled]
  | start => exact s.toggleRun_update.debounced_flags .start
  | sec => exact (s.addTime_update 1).debounced_flags .sec
  | min => exact (s.addTime_update 60).debounced_flags .min
  | idle => exact absurd rfl hrow

/-- A row spares Start's flag exactly for the gesture, Sec's for Start, Min's for Start or Sec: a set flag waits only for
a row before its own, and the gesture's row clears those of Sec and Min (42_input_dispatcher.md R136). -/
theorem dispatchRow_spares (lvlSec lvlMin efStart efSec efMin : Bool) {row : DispatchRow}
    (h : dispatchRow (dispatchVectorOf lvlSec lvlMin efStart efSec efMin) = row) :
    (efStart && decide (row ≠ .start)) = (efStart && (lvlSec && lvlMin)) ∧
    (efSec && decide (row ≠ .reset ∧ row ≠ .sec)) = (efSec && !(lvlSec && lvlMin) && efStart) ∧
    (efMin && decide (row ≠ .reset ∧ row ≠ .min)) = (efMin && !(lvlSec && lvlMin) && (efStart || efSec)) := by
  rw [dispatchTakesFirstMatchingRow] at h
  subst h
  cases lvlSec && lvlMin with
  | true => simp
  | false =>
    cases efStart with
    | true => simp
    | false =>
      cases efSec with
      | true => simp
      | false => cases efMin <;> simp

/-- Settles O44: what every run keeps, the counter of tick scaling, and the flags the dispatched row leaves. -/
theorem handlerClearsOnlyTheServicedFlags : Obligations.HandlerClearsOnlyTheServicedFlags := by
  intro s hi hc hd
  obtain ⟨_, hlines⟩ := s.enterHandler.scaled_keeps
  obtain ⟨hticks, hstart, hsec, hmin, hrequest⟩ := s.enterHandler.scaled_values
  have hrow := serveRow_eq (dispatchRow s.dispatchVector) (hlines.trans hd)
  obtain ⟨rrequest, rstart, rsec, rmin⟩ := serveRow_flags hrow
  obtain ⟨fstart, fsec, fmin⟩ := dispatchRow_spares _ _ _ _ _ (rfl : dispatchRow s.dispatchVector = _)
  have hrun : exec .handler s = _ := (execHandler_ready hi hc).trans (invokeHandler_eq hd)
  have kept := execHandler_runs hrun
  refine ⟨_, hrun, rrequest.trans hrequest, rfl, kept.interrupt.trans hi, kept.boot, kept.lines hd, kept.environment,
    (serveRow_alarmSafe hrow).ticks.trans hticks, ?_, ?_, ?_⟩
  · exact rstart.trans (hstart ▸ fstart)
  · exact rsec.trans (hsec ▸ fsec)
  · exact rmin.trans (hmin ▸ fmin)

/-- With no flag set and the levels not both asserted the idle row runs. -/
theorem dispatchRow_idle {s : State} (hstart : s.efStart = false) (hsec : s.efSec = false) (hmin : s.efMin = false)
    (hlevels : (s.lvlSec && s.lvlMin) = false) : dispatchRow s.dispatchVector = .idle := by
  rw [State.dispatchVector, dispatchTakesFirstMatchingRow, hlevels, hstart, hsec, hmin]
  rfl

/-- Settles O45: the counter does not restart and the idle row is dispatched; entry and exit meet in the context. -/
theorem idleInvocationChangesOnlyTheTickCounter : Obligations.IdleInvocationChangesOnlyTheTickCounter := by
  intro s hi hc htc hstart hsec hmin hlevels
  have hidle : dispatchRow { s with tp := false, ctx := .inHandler, tc := s.tc + 1 }.dispatchVector = .idle :=
    dispatchRow_idle hstart hsec hmin hlevels
  rw [handlerTicksThenDispatchesThenReturns s hi hc, if_neg htc, andThen_next, exec_dispatchInstr, dispatch, hidle,
    serveRow, andThen_next, ← hc]

end Sys2Proof.Machine

/-! PROOFS. Exceptions and the one interrupt (60_exceptions.md): nothing faults, the device never stops, whose turn a step
is, and when an invocation is refused. -/

namespace Sys2Proof.Machine

/-! No operation and no step faults (60_exceptions.md R150). -/

/-- Operations in sequence fault only where one of them does. -/
theorem andThen_noFault {r : Result} {f : State → Result} {e : Fault} (hr : ∀ e, r ≠ .fault e)
    (hf : ∀ u, f u ≠ .fault e) : andThen r f ≠ .fault e := by
  cases r with
  | next u => exact hf u
  | fault e => exact absurd rfl (hr e)
  | refused => exact nofun

theorem replaceText_noFault (text : List Byte) (s : State) (e : Fault) (hd : s.lcdDir = true) :
    replaceText text s ≠ .fault e := by
  apply putText_noFault
  rw [State.clearDisplay_eq]
  exact hd

theorem scaleTick_noFault (s : State) (e : Fault) : scaleTick s ≠ .fault e := by
  unfold scaleTick
  dsimp only
  split
  · exact renderDisplay_noFault _ e
  · exact nofun

theorem invokeHandler_noFault (s : State) (e : Fault) : invokeHandler s ≠ .fault e :=
  andThen_noFault (fun _ => andThen_noFault (scaleTick_noFault _) fun u => serveRow_noFault _ u _) fun _ => nofun

theorem execHandler_noFault (s : State) (e : Fault) : execHandler s ≠ .fault e := by
  unfold execHandler
  split
  · exact nofun
  split
  · exact nofun
  · exact invokeHandler_noFault s e

/-- A driver operation that is one update of the state. -/
theorem withDriver_update_noFault {s : State} {f : State → State} {e : Fault} :
    (s.withDriver fun u => .next (f u)) ≠ .fault e :=
  s.withDriver_noFault _ e fun _ => nofun

/-- A driver operation reads the cursor only behind U4's refusal; an event ends with such an operation, and a row and the
handler are made of events. -/
theorem exec_noFault (i : Instr) (s : State) (e : Fault) : exec i s ≠ .fault e := by
  intro h
  cases i with
  | initializeDisplay => cases h
  | setText text => exact s.withDriver_noFault _ e (replaceText_noFault text s e) h
  | addText text => exact s.withDriver_noFault _ e (putText_noFault text s e) h
  | writeChar ch => exact s.withDriver_noFault _ e (putChar_noFault ch s e) h
  | lcdClear | lcdHome | lcdEntry | lcdDisplay | lcdFunction | lcdSetAddr | lcdData | nib
  | setCursor | clear | home | writeByte | writeNibble | command | data => exact withDriver_update_noFault h
  | hsNib3 | hsNib2 => exact withDriver_update_noFault (f := fun u => (u.driveSelect _).pulseNibble _) h
  | startButton | secButton | minButton | resetGesture | tick | render => exact renderDisplay_noFault _ e h
  | dspReset => exact serveRow_noFault .reset s e h
  | dspStart => exact serveRow_noFault .start s e h
  | dspSec => exact serveRow_noFault .sec s e h
  | dspMin => exact serveRow_noFault .min s e h
  | dspNone => exact serveRow_noFault .idle s e h
  | handler => exact execHandler_noFault s e h

theorem bootStep_firstRender {s : State} (hb : s.boot = .firstRender) :
    bootStep s = andThen (renderDisplay s) fun t => .next { t with boot := .enableTimer } := by
  rw [bootStep, hb]
  rfl

/-- An operation of the boot sequence runs on, but for the first render where the lines are not out. -/
theorem bootStep_cases (s : State) : (∃ t, bootStep s = .next t) ∨
    (s.boot = .firstRender ∧ s.lcdDir = false ∧ bootStep s = .refused .driverBeforeInitialize) := by
  cases hb : s.boot with
  | bringUp | enableTimer | idle => exact .inl ⟨_, by rw [bootStep, hb]⟩
  | firstRender =>
    rw [bootStep_firstRender hb]
    cases hd : s.lcdDir with
    | true => exact .inl ⟨_, by rw [renderDisplay_eq hd, andThen_next]⟩
    | false => exact .inr ⟨rfl, rfl, by rw [renderDisplay_refused hd, andThen_refused]⟩

theorem blockStep_noFault (s : State) (e : Fault) : blockStep s ≠ .fault e := by
  by_cases hb : s.boot = .idle
  · rw [blockStep_idle hb, idleStep]
    split
    · exact exec_noFault .handler s e
    · exact nofun
  · rw [blockStep_boot hb]
    rcases bootStep_cases s with ⟨t, h⟩ | ⟨_, _, h⟩
    all_goals
      rw [h]
      exact nofun

theorem runRequest_noFault (fmt : Format) (bytes : List Byte) (s : State) (e : Fault) :
    runRequest fmt bytes s ≠ .fault e := by
  cases h : decode fmt bytes with
  | ok i =>
    rw [runRequest_ok h]
    exact exec_noFault i s e
  | error why =>
    rw [runRequest_error h]
    exact nofun

/-- Settles O58, by the instructions and then by what a step can be. -/
theorem nothingEverFaults : Obligations.NothingEverFaults := by
  refine ⟨exec_noFault, fun s e => ?_⟩
  rcases step_cases s with ⟨_, _, _, _, _, h⟩ | ⟨_, _, h⟩ | ⟨_, _, _, _, _, h⟩
  all_goals rw [h]
  · exact nofun
  · exact blockStep_noFault _ e
  · exact runRequest_noFault _ _ _ e

/-! The device never stops (60_exceptions.md section 1, 70_reset_and_hazards.md R195). -/

/-- Under the invariant the boot sequence is never refused: its render comes after bring-up has put the lines out. -/
theorem bootStep_runsOn {s : State} (hs : s.Inv) : ∃ t, bootStep s = .next t := by
  rcases bootStep_cases s with h | ⟨hb, hd, _⟩
  · exact h
  · rw [hs.linesOut, hb] at hd
    cases hd

/-- After boot the lines are out, the interrupt is enabled and the foreground runs, so an invocation runs on. -/
theorem execHandler_runsOn {s : State} (hs : s.Inv) (hb : s.boot = .idle) : ∃ t, execHandler s = .next t := by
  have hlines : s.lcdDir = true := by rw [hs.linesOut, hb]; rfl
  have henabled : s.irqEnabled = true := by rw [hs.interruptOn, hb]; rfl
  exact ⟨_, (execHandler_ready henabled hs.foreground).trans (invokeHandler_eq hlines)⟩

theorem blockStep_runsOn {s : State} (hs : s.Inv) : ∃ t, blockStep s = .next t := by
  by_cases hb : s.boot = .idle
  · rw [blockStep_idle hb, idleStep]
    split
    · exact execHandler_runsOn hs hb
    · exact ⟨s, rfl⟩
  · rw [blockStep_boot hb]
    exact bootStep_runsOn hs

/-- Settles O57: the environment's actions run on, the block's operations do under the invariant, and an operation asked
for directly is shut out. -/
theorem theDeviceNeverStops : Obligations.TheDeviceNeverStops := by
  intro s ⟨hinv, hquiet, _, _⟩
  rcases step_cases s with ⟨_, _, _, _, _, h⟩ | ⟨rest, _, h⟩ | ⟨_, _, _, hinbox, _, _⟩
  · exact ⟨_, h⟩
  · rw [h]
    exact blockStep_runsOn (hinv.withInputs ..)
  · rw [hinbox] at hquiet
    cases hquiet

/-! Whose turn it is (60_exceptions.md R153, R158; log 11). -/

/-- An action of the environment at the head of the inbox is the step. -/
theorem step_environment {s : State} {input : Input} {rest : List Input} (h : s.inbox = input :: rest)
    (hp : input ≠ .proceed) (ho : input.isOperation = false) :
    step s = .next ({ s with inbox := rest }.react input) := by
  rw [step, turn, h]
  cases input with
  | press | release | raise | setFlag | hardwareTick | powerUp => rfl
  | proceed => exact absurd rfl hp
  | operation => cases ho

theorem step_proceed {s : State} {rest : List Input} (h : s.inbox = .proceed :: rest) :
    step s = blockStep { s with inbox := rest } := by
  rw [step, turn, h]

theorem step_quiet {s : State} (h : s.inbox = []) : step s = blockStep s := by
  rw [step, turn, h]

theorem State.requestTaken_iff (s : State) :
    s.requestTaken = true ↔ s.tp = true ∧ s.irqEnabled = true ∧ s.ctx = .foreground := by
  simp [State.requestTaken, and_assoc]

/-- After boot a request that can be taken begins an invocation. -/
theorem blockStep_request {s : State} (hb : s.boot = .idle) (h : s.requestTaken = true) :
    blockStep s = exec .handler s := by
  rw [blockStep_idle hb, idleStep, if_pos h]

/-- After boot the block does nothing while no request can be taken. -/
theorem blockStep_noRequest {s : State} (hb : s.boot = .idle) (h : s.requestTaken = false) : blockStep s = .next s := by
  rw [blockStep_idle hb, idleStep, h]
  rfl

theorem run_succ {s t : State} (h : step s = .next t) (k : Nat) :
    Host.Core.run Sys2Proof.core (k + 1) s = Host.Core.run Sys2Proof.core k t := by
  have hcore : Sys2Proof.core.step s = .next t := h
  simp only [Host.Core.run, hcore]

theorem run_one (s : State) : Host.Core.run Sys2Proof.core 1 s = step s := by
  change _ = Sys2Proof.core.step s
  simp only [Host.Core.run]
  cases Sys2Proof.core.step s <;> rfl

/-- Hardware ticks on a pending request merge into it, one a step (10_state.md R24). -/
theorem run_mergedTicks (n k : Nat) {s : State} {rest : List Input} (ht : s.tp = true)
    (h : s.inbox = List.replicate n .hardwareTick ++ rest) :
    Host.Core.run Sys2Proof.core (n + k) s = Host.Core.run Sys2Proof.core k { s with inbox := rest } := by
  induction n generalizing s with
  | zero =>
    obtain rfl : s.inbox = rest := h
    rw [Nat.zero_add]
  | succ n ih =>
    have htick : step s = .next { s with tp := true, inbox := List.replicate n .hardwareTick ++ rest } :=
      step_environment h nofun rfl
    rw [Nat.add_right_comm, run_succ htick, ih rfl rfl, ← ht]

/-- Settles O49, by what heads the inbox; the first of a run of hardware ticks sets the request, the others merge into it,
and the block then takes it. -/
theorem stepLetsTheEnvironmentActThenTheBlock : Obligations.StepLetsTheEnvironmentActThenTheBlock := by
  refine ⟨fun _ _ _ => step_environment, fun _ _ => step_proceed, fun _ => step_quiet, fun s hb => ⟨fun ht hi hc => ?_,
    blockStep_noRequest hb⟩, fun s n rest hb hi hc h => ?_⟩
  · exact blockStep_request hb (s.requestTaken_iff.mpr ⟨ht, hi, hc⟩)
  · have hfirst : step s =
        .next { s with tp := true, inbox := List.replicate n .hardwareTick ++ .proceed :: rest } :=
      step_environment h nofun rfl
    rw [run_succ hfirst (n + 1), run_mergedTicks n 1 rfl rfl, run_one, step_proceed rfl]
    exact blockStep_request hb ((State.requestTaken_iff _).mpr ⟨rfl, hi, hc⟩)

/-! When an invocation is refused (93_implementation_defined.md U8, 60_exceptions.md R157). -/

theorem execHandler_beforeEnable {s : State} (hi : s.irqEnabled = false) :
    execHandler s = .refused .handlerBeforeEnable := if_pos hi

theorem execHandler_nested {s : State} (hi : s.irqEnabled = true) (hc : s.ctx = .inHandler) :
    execHandler s = .refused .handlerReentered := by
  rw [execHandler, hi, if_neg nofun, if_pos hc]

/-- Settles O46, by the handler's two preconditions. -/
theorem handlerIsRefusedEarlyAndNested : Obligations.HandlerIsRefusedEarlyAndNested :=
  fun _ => ⟨execHandler_beforeEnable, execHandler_nested⟩

end Sys2Proof.Machine

/-! PROOFS. Reset, boot and hazards (70_reset_and_hazards.md): what is refused before bring-up, the least time of each
operation, the boot sequence and what it ends in, and the power-up that restarts it. -/

namespace Sys2Proof.Machine

/-! Nothing drives the display before bring-up (70_reset_and_hazards.md R185, 93_implementation_defined.md U4). -/

/-- A driver operation that is one update of the state. -/
theorem withDriver_update_refused {s : State} {f : State → State} (hd : s.lcdDir = false) :
    (s.withDriver fun u => .next (f u)) = .refused .driverBeforeInitialize := State.withDriver_refused _ hd

/-- An event whose updates touch the TimeKeeper alone is refused with its render. -/
theorem renderDisplay_update_refused {s u : State} (hd : s.lcdDir = false) (hu : TimeUpdate s u) :
    renderDisplay u = .refused .driverBeforeInitialize := renderDisplay_refused (hu.lcdDir.trans hd)

/-- Settles O26: a driver or wire row asks for the lines first, an event at its render, a dispatch row at its event's. -/
theorem driverIsRefusedBeforeInitialize : Obligations.DriverIsRefusedBeforeInitialize := by
  intro i s hd hinit hhandler hnone
  cases i with
  | initializeDisplay => exact absurd rfl hinit
  | handler => exact absurd rfl hhandler
  | dspNone lvlSec lvlMin => exact absurd rfl (hnone lvlSec lvlMin)
  | lcdClear | lcdHome | lcdEntry | lcdDisplay | lcdFunction | lcdSetAddr | lcdData | nib
  | setCursor | clear | home | writeByte | writeNibble | command | data => exact withDriver_update_refused hd
  | hsNib3 | hsNib2 => exact withDriver_update_refused (f := fun u => (u.driveSelect _).pulseNibble _) hd
  | setText | addText | writeChar => exact State.withDriver_refused _ hd
  | startButton => exact renderDisplay_update_refused hd s.toggleRun_update
  | secButton | minButton => exact renderDisplay_update_refused hd (s.addTime_update _)
  | resetGesture => exact renderDisplay_update_refused hd s.reinitialise_update
  | tick => exact renderDisplay_update_refused hd s.secondTick_update
  | render => exact renderDisplay_refused hd
  | dspReset => exact serveRow_refused (row := .reset) hd nofun
  | dspStart => exact serveRow_refused (row := .start) hd nofun
  | dspSec => exact serveRow_refused (row := .sec) hd nofun
  | dspMin => exact serveRow_refused (row := .min) hd nofun

/-! The least time of each operation (70_reset_and_hazards.md R190, R198). -/

/-- A driver operation that is one update of the state and runs on takes the time of that update. -/
theorem withDriver_takes {s t : State} {f : State → State} {n : Nat} (hf : Takes s (f s) n)
    (h : (s.withDriver fun u => .next (f u)) = .next t) : Takes s t n := withDriver_update_eq h ▸ hf

theorem State.pulseNibble_takes (n : Nibble) (s : State) : Takes s (s.pulseNibble n) 102 := by
  rw [State.pulseNibble_eq]
  exact ⟨_, rfl, duration_nibble n⟩

theorem State.sendByte_takes (rs : Bool) (b : Byte) (s : State) : Takes s (s.sendByte rs b) 204 := by
  rw [State.sendByte_eq]
  exact ⟨_, rfl, duration_byte rs b⟩

theorem State.moveCursor_takes (col : Byte) (s : State) : Takes s (s.moveCursor col) 204 := by
  rw [State.moveCursor_eq]
  exact ⟨_, rfl, duration_byte _ _⟩

theorem State.clearDisplay_takes (s : State) : Takes s s.clearDisplay 2204 := by
  rw [State.clearDisplay_eq]
  exact ⟨_, rfl, rfl⟩

theorem State.homeDisplay_takes (s : State) : Takes s s.homeDisplay 2204 := by
  rw [State.homeDisplay_eq]
  exact ⟨_, rfl, rfl⟩

theorem State.bringUpDisplay_takes (s : State) : Takes s s.bringUpDisplay 47524 := by
  rw [State.bringUpDisplay_eq]
  exact ⟨_, rfl, rfl⟩

/-- A character takes one byte transaction, at the row switch two. -/
theorem State.placeChar_takes (ch : Byte) (s : State) :
    Takes s (s.placeChar ch) (if s.cursor = 8 then 408 else 204) := by
  have hcutoff : s.cursor.toNat = 8 ↔ s.cursor = 8 := BitVec.toNat_inj (y := 8#8)
  rw [State.placeChar_eq]
  exact ⟨_, rfl, by simp only [duration_char, hcutoff]⟩

/-- The least time of a dispatch row's branch: settle and render, or render and debounce (70_reset_and_hazards.md R198). -/
def rowTime : DispatchRow → Nat
  | .reset => 53836
  | .start => 153836
  | .sec => 153836
  | .min => 153836
  | .idle => 0

theorem serveRow_takes {row : DispatchRow} {s t : State} (h : serveRow row s = .next t) : Takes s t (rowTime row) := by
  rcases serveRow_eq_next h with ⟨rfl, rfl⟩ | ⟨hrow, _, rfl⟩
  · exact .of_same rfl
  · have htakes := ((s.rowUpdate_takes row).trans (State.rendered_takes _)).trans (State.rowEnd_takes row _)
    cases row with
    | reset | start | sec | min => exact htakes
    | idle => exact absurd rfl hrow

/-- An invocation takes the time of its tick and of the branch it dispatches. -/
theorem execHandler_takes {s t : State} (h : execHandler s = .next t) :
    Takes s t ((if s.tc + 1 = 25 then 3836 else 0) + rowTime (dispatchRow s.dispatchVector)) := by
  obtain ⟨_, _, hinvoke⟩ := execHandler_eq_next h
  obtain ⟨u, hu, hleave⟩ := andThen_eq_next hinvoke
  obtain ⟨v, hv, hserve⟩ := andThen_eq_next hu
  obtain ⟨rfl, _⟩ := scaleTick_eq_next hv
  obtain ⟨hvector, _⟩ := s.enterHandler.scaled_keeps
  obtain rfl := Host.Outcome.next.inj hleave
  rw [dispatch, hvector] at hserve
  have htakes : Takes s u _ := s.enterHandler.scaled_takes.trans (serveRow_takes hserve)
  exact htakes

/-- Settles O30: the events of an operation that runs on take the time of its update, whichever they are. -/
theorem operationsTakeTheirMinimumTime : Obligations.OperationsTakeTheirMinimumTime := by
  intro s t events ht
  refine ⟨fun n h => ?_, fun rs b h => ?_, fun b h => ?_, fun b h => ?_, fun col h => ?_, fun ch h => ?_, fun h => ?_,
    fun h => ?_, fun h => ?_, fun h => ?_, fun h => ?_⟩
  all_goals refine Takes.duration ?_ ht
  · exact withDriver_takes (s.pulseNibble_takes n) h
  · exact withDriver_takes (s.sendByte_takes rs b) h
  · exact withDriver_takes (s.sendByte_takes _ b) h
  · exact withDriver_takes (s.sendByte_takes _ b) h
  · exact withDriver_takes (s.moveCursor_takes col) h
  · obtain ⟨_, hput⟩ := State.withDriver_eq_next h
    obtain ⟨_, _, rfl⟩ := putChar_eq_next hput
    exact s.placeChar_takes ch
  · exact withDriver_takes s.clearDisplay_takes h
  · exact withDriver_takes s.homeDisplay_takes h
  · obtain rfl : s.bringUpDisplay = t := Host.Outcome.next.inj h
    exact s.bringUpDisplay_takes
  · obtain ⟨_, rfl⟩ := renderDisplay_eq_next h
    exact s.rendered_takes
  · exact execHandler_takes h

/-! Boot (70_reset_and_hazards.md R183, R184). -/

/-- The environment has no action at the head of the inbox. -/
def State.Undisturbed (s : State) : Prop := ∀ input rest, s.inbox = input :: rest → input.isOperation = true

theorem State.Undisturbed.of_inbox {s t : State} (h : s.Undisturbed) (hinbox : t.inbox = s.inbox) : t.Undisturbed :=
  fun input rest e => h input rest (hinbox.symm.trans e)

/-- In boot, with no action of the environment before it, a step is the next operation of the boot sequence; an operation
asked for directly waits (log 11). -/
theorem step_inBoot {s : State} (hb : s.boot ≠ .idle) (hq : s.Undisturbed) : step s = bootStep s := by
  cases hinbox : s.inbox with
  | nil => rw [step_quiet hinbox, blockStep_boot hb]
  | cons input rest =>
    cases input with
    | operation fmt bytes => rw [step, turn, hinbox]; exact directStep_boot hb
    | proceed | press | release | raise | setFlag | hardwareTick | powerUp => cases hq _ _ hinbox

/-- Step 2 of the boot sequence: `initialize()`. -/
def State.broughtUp (s : State) : State := { s.bringUpDisplay with boot := .firstRender }

/-- Step 3 of the boot sequence: the one render. -/
def State.firstRendered (s : State) : State := { s.rendered with boot := .enableTimer }

/-- Step 4 of the boot sequence: the timer's interrupt. -/
def State.timerEnabled (s : State) : State := { s with irqEnabled := true, boot := .idle }

section
variable {s : State} (hq : s.Undisturbed)
include hq

theorem step_bringUp (hb : s.boot = .bringUp) : step s = .next s.broughtUp := by
  rw [step_inBoot (hb ▸ nofun) hq, bootStep, hb]
  rfl

theorem step_firstRender (hb : s.boot = .firstRender) (hd : s.lcdDir = true) : step s = .next s.firstRendered := by
  rw [step_inBoot (hb ▸ nofun) hq, bootStep_firstRender hb, renderDisplay_eq hd]
  rfl

theorem step_enableTimer (hb : s.boot = .enableTimer) : step s = .next s.timerEnabled := by
  rw [step_inBoot (hb ▸ nofun) hq, bootStep, hb]
  rfl

end

/-- Everything `initialize()` leaves in boot. -/
theorem State.broughtUp_eq (s : State) : s.broughtUp = { s with
    lcdDir := true
    lcdRs := false
    lcdD := 6
    lcdEn := false
    cursor := 0
    boot := .firstRender
    trace := s.trace ++ bringUpEvents
    controller := s.controller.bringUp } := by
  rw [State.broughtUp, State.bringUpDisplay_eq]

theorem State.Undisturbed.broughtUp {s : State} (h : s.Undisturbed) : s.broughtUp.Undisturbed :=
  h.of_inbox (by rw [State.broughtUp_eq])

theorem State.Undisturbed.firstRendered {s : State} (h : s.Undisturbed) : s.firstRendered.Undisturbed := h.of_inbox rfl

theorem State.broughtUp_linked (s : State) : s.broughtUp.Linked := s.bringUpDisplay_linked.of_same rfl rfl rfl rfl

/-- After step 3 driver and controller agree and the display shows the text. -/
theorem State.Linked.firstRendered_shows {s : State} (h : s.Linked) :
    s.firstRendered.Linked ∧ s.firstRendered.Shows s.text := by
  obtain ⟨hlinked, hshows⟩ := State.rendered_shows h.linesOut h.agrees.ready
  exact ⟨hlinked.of_same rfl rfl rfl rfl, hshows⟩

/-- The state at the end of boot. -/
def State.bootEnded (s : State) : State := s.broughtUp.firstRendered.timerEnabled

/-- Everything the boot sequence leaves. -/
theorem State.bootEnded_eq (s : State) : s.bootEnded = { s with
    lcdDir := true
    lcdRs := true
    lcdD := BitVec.ofNat 4 (secondsOf s.shownSeconds % 10)
    lcdEn := false
    cursor := 8
    irqEnabled := true
    boot := .idle
    trace := s.trace ++ bringUpEvents ++ renderEvents s.text
    controller := ((s.controller.bringUp.send false Config.cmdClear).elapse Config.tClear).putTextAt 0 s.text } := by
  rw [State.bootEnded, State.timerEnabled, State.firstRendered, State.broughtUp_eq]
  rfl

theorem State.bootEnded_shows (s : State) : s.bootEnded.Linked ∧ s.bootEnded.Shows s.text := by
  obtain ⟨hlinked, hshows⟩ := s.broughtUp_linked.firstRendered_shows
  have htext : s.broughtUp.text = s.text := by
    rw [State.broughtUp_eq]
    rfl
  exact ⟨hlinked.of_same rfl rfl rfl rfl, htext ▸ hshows⟩

/-- From the first operation of boot, three steps without the environment run the sequence to its end. -/
theorem boot_steps {s : State} (hb : s.boot = .bringUp) (hq : s.Undisturbed) :
    step s = .next s.broughtUp ∧ step s.broughtUp = .next s.broughtUp.firstRendered ∧
      step s.broughtUp.firstRendered = .next s.bootEnded :=
  ⟨step_bringUp hq hb, step_firstRender hq.broughtUp rfl s.broughtUp_linked.linesOut,
    step_enableTimer hq.broughtUp.firstRendered rfl⟩

/-- Settles O51: each step is an operation of the sequence, and its end is the state with the driver, the boot position and
the interrupt enable updated. -/
theorem bootBringsUpRendersAndEnables : Obligations.BootBringsUpRendersAndEnables := by
  intro s hb hq
  obtain ⟨ht, hu, hv⟩ := boot_steps hb hq
  refine ⟨_, _, _, ht, hu, hv, ?_⟩
  have hend := s.bootEnded_shows
  rw [State.bootEnded_eq] at hend ⊢
  rw [State.broughtUp_eq]
  exact ⟨rfl, rfl, rfl, rfl, rfl, rfl, rfl, rfl, ⟨rfl, rfl, rfl, rfl, rfl⟩, ⟨rfl, rfl, rfl⟩, ⟨rfl, rfl, rfl, rfl⟩,
    rfl, rfl, rfl, rfl, rfl, rfl, hend⟩

/-! How the trace of boot reads back (30_encoding.md R79, R81; 70_reset_and_hazards.md R184). -/

/-- Bring-up at level L2: the handshake units, then the commands. -/
theorem toL2_bringUp (rest : List Event) :
    toL2 (bringUpEvents ++ rest) =
      [.other (.other .dirOut), .other (.other (.wait 40000)),
        .handshake 3, .other (.other (.wait 4100)), .handshake 3, .other (.other (.wait 100)),
        .handshake 3, .other (.other (.wait 100)), .handshake 2,
        .byte false 0x28, .byte false 0x0C, .byte false 0x01, .other (.other (.wait 2000)), .byte false 0x06] ++
      toL2From 0 0 (toL1From false 0 rest) := by
  rfl

/-- A clear at level L2: its command and its wait. -/
theorem toL2_clear (r : Bool) (rest : List Event) :
    toL2From 0 0 (toL1From r 0 (clearEvents ++ rest)) =
      [.byte false 0x01, .other (.other (.wait 2000))] ++ toL2From 0 0 (toL1From false 0 rest) := by
  rfl

/-- A text that stays in the first row reads back as its characters. -/
theorem toL2_text (r : Bool) (cursor : Nat) (text : List Byte) (h : cursor + text.length ≤ 8) :
    toL2From 0 0 (toL1From r 0 (textEvents cursor text)) = text.map (.byte true) := by
  induction text generalizing r cursor with
  | nil => rfl
  | cons ch rest ih =>
    rw [List.length_cons] at h
    obtain ⟨hbyte, _⟩ := byteTransactionReadsBackAsItsByte
    have hrow : cursor ≠ Config.rowCutoff := Nat.ne_of_lt (show cursor < 8 by omega)
    have hchar : charEvents cursor ch = byteEvents true ch := by
      rw [charEvents, if_neg hrow]
      rfl
    rw [textEvents, hchar, hbyte, ih true (cursor + 1) (by omega), List.map_cons]

/-- A render of a text that fits the first row: the clear, then its characters. -/
theorem toL2_render (r : Bool) {text : List Byte} (h : text.length ≤ 8) :
    toL2From 0 0 (toL1From r 0 (renderEvents text)) =
      [.byte false 0x01, .other (.other (.wait 2000))] ++ text.map (.byte true) := by
  rw [renderEvents, toL2_clear, toL2_text false 0 text (by omega)]

/-- Settles O52, by the three steps of boot, what they leave, and how the events of bring-up and of the render of 00:00:00
read back. -/
theorem bootFromResetEndsAsStated : Obligations.BootFromResetEndsAsStated := by
  obtain ⟨hbringUp, hrender, henable⟩ := boot_steps (s := State.reset) rfl nofun
  have hrun : Host.Core.run Sys2Proof.core 3 State.reset = .next State.reset.bootEnded := by
    rw [run_succ hbringUp, run_succ hrender, run_one]
    exact henable
  have htext : State.reset.text = [0x30, 0x30, 0x3A, 0x30, 0x30, 0x3A, 0x30, 0x30] := renderText_zero
  have hbytes : toL2 (bringUpEvents ++ renderEvents State.reset.text) = _ :=
    (toL2_bringUp _).trans (congrArg _ (toL2_render false (Nat.le_of_eq rfl)))
  obtain ⟨_, hshows⟩ := State.reset.bootEnded_shows
  refine ⟨_, hrun, ?_⟩
  rw [htext] at hbytes hshows
  rw [State.bootEnded_eq, htext] at hshows ⊢
  exact ⟨rfl, rfl, rfl, rfl, rfl, rfl, rfl, rfl, rfl, rfl, rfl, rfl, rfl, rfl, rfl, hbytes, hshows⟩

/-! A power-up (70_reset_and_hazards.md R180, R181). -/

/-- A power-up leaves nothing of the block but what the environment owns. -/
theorem State.powerUp_sameBlock {s t : State} (h : KeepsEnvironment s t) : SameBlock s.powerUp t.powerUp := by
  obtain ⟨hstart, hsec, hmin, hinbox⟩ := h
  simp only [SameBlock, State.powerUp, hstart, hsec, hmin, hinbox]

/-- Settles O53: the step takes the power-up at the head of the inbox, and two states with the same levels and inbox leave it
with the same block. -/
theorem powerUpRestartsFromReset : Obligations.PowerUpRestartsFromReset :=
  ⟨fun _ _ h => ⟨_, step_environment h nofun rfl, rfl, rfl, rfl⟩, fun _ _ h => State.powerUp_sameBlock h⟩

end Sys2Proof.Machine

/-! PROOFS. Encodings (30_encoding.md): decoding undoes encoding and encoding undoes decoding, format by format. -/

namespace Sys2Proof

/-! What the decoder reads in each format: a byte narrowed to its bits, then the meaning of the bits. -/

/-- The value, if there is one, read further. -/
def Decoded.bind {α β : Type} (d : Decoded α) (f : α → Decoded β) : Decoded β :=
  match d with
  | .ok a => f a
  | .error e => .error e

theorem decode_wire9 (lo hi : Byte) : decode .wire9 [lo, hi] = (narrow 1 hi).bind fun r => decodeWire9 (r ++ lo) := by
  rw [decode]
  cases narrow 1 hi <;> rfl

theorem decode_hs5 (b : Byte) : decode .hs5 [b] = (narrow 5 b).bind decodeHs5 := by
  rw [decode]
  cases narrow 5 b <;> rfl

theorem decode_nib (b : Byte) : decode .nib [b] = (narrow 4 b).bind fun n => .ok (.nib n) := by
  rw [decode]
  cases narrow 4 b <;> rfl

theorem decode_dispatch5 (b : Byte) : decode .dispatch5 [b] = (narrow 5 b).bind fun v => .ok (dispatchInstr v) := by
  rw [decode]
  cases narrow 5 b <;> rfl

theorem decode_opsel (op : Byte) (args : List Byte) :
    decode .opsel (op :: args) = (narrow 4 op).bind fun o => decodeOpsel o args := by
  rw [decode]
  cases narrow 4 op <;> rfl

/-- A value widened to a byte is read as itself. -/
theorem narrow_setWidth_bind {w : Nat} {β : Type} (v : BitVec w) (hw : w ≤ 8) (f : BitVec w → Decoded β) :
    (narrow w (v.setWidth 8)).bind f = f v := by
  rw [narrow_setWidth v hw, Decoded.bind]

/-- A byte that is read as `w` bits is those bits widened. -/
theorem narrow_bind_ok {w : Nat} {β : Type} {b : Byte} {f : BitVec w → Decoded β} {y : β}
    (h : (narrow w b).bind f = .ok y) : ∃ v, b = v.setWidth 8 ∧ f v = .ok y := by
  cases hv : narrow w b with
  | ok v =>
    rw [hv] at h
    exact ⟨v, narrow_ok hv, h⟩
  | error e =>
    rw [hv] at h
    cases h

/-! Wire words (30_encoding.md R62, R64). -/

/-- Every wire word is read back from its own register-select and byte. -/
theorem lcdOfByte_byte (w : LcdWord) : lcdOfByte w.rs w.byte = some w := by
  cases w with
  | clear | home | data => rfl
  | entry i s => revert i s; decide
  | display d c b => revert d c b; decide
  | function l n f x => revert l n f x; decide
  | setAddr a => revert a; decide

theorem bit_append_getLsbD_eight (r : Bool) (b : Byte) : (bit r ++ b).getLsbD 8 = r := by
  rw [BitVec.getLsbD_append]
  cases r <;> rfl

theorem bit_append_extractLsb' (r : Bool) (b : Byte) : (bit r ++ b).extractLsb' 0 8 = b := by
  rw [BitVec.extractLsb'_append_eq_of_add_le (by decide), BitVec.extractLsb'_eq_self]

theorem decodeWire9_ok_iff {r : Bool} {b : Byte} {i : Instr} :
    decodeWire9 (bit r ++ b) = .ok i ↔ ∃ w, lcdOfByte r b = some w ∧ w.toInstr = i := by
  rw [decodeWire9, bit_append_getLsbD_eight, bit_append_extractLsb']
  cases lcdOfByte r b <;> simp

theorem decode_wire9_bytes (w : LcdWord) : decode .wire9 w.bytes = .ok w.toInstr := by
  rw [LcdWord.bytes, decode_wire9, narrow_setWidth_bind _ (by decide)]
  exact decodeWire9_ok_iff.mpr ⟨w, lcdOfByte_byte w, rfl⟩

theorem decode_wire9_ok {bytes : List Byte} {i : Instr} (h : decode .wire9 bytes = .ok i) :
    i.format = .wire9 ∧ encode i = bytes ∧ i.wellFormed = true := by
  match bytes, h with
  | [lo, hi], h =>
    rw [decode_wire9] at h
    obtain ⟨r, rfl, hr⟩ := narrow_bind_ok h
    rw [← bool_of_bit r] at hr ⊢
    obtain ⟨w, hw, rfl⟩ := decodeWire9_ok_iff.mp hr
    obtain ⟨hrs, hbyte⟩ := lcdOfByte_some hw
    rw [← hrs, ← hbyte]
    exact toInstr_encode w

/-! Handshake units, nibbles and dispatch vectors (30_encoding.md R70, R61, R75). -/

theorem decode_hs5_ok {bytes : List Byte} {i : Instr} (h : decode .hs5 bytes = .ok i) :
    i.format = .hs5 ∧ encode i = bytes ∧ i.wellFormed = true := by
  match bytes, h with
  | [b], h =>
    rw [decode_hs5] at h
    obtain ⟨w, rfl, hw⟩ := narrow_bind_ok h
    unfold decodeHs5 at hw
    split at hw
    next hnib3 => cases hw; exact ⟨rfl, by rw [hnib3]; rfl, rfl⟩
    next =>
      split at hw
      next hnib2 => cases hw; exact ⟨rfl, by rw [hnib2]; rfl, rfl⟩
      next => cases hw

theorem decode_nib_nibble (n : Nibble) : decode .nib [n.setWidth 8] = .ok (.nib n) := by
  rw [decode_nib, narrow_setWidth_bind n (by decide)]

theorem decode_nib_ok {bytes : List Byte} {i : Instr} (h : decode .nib bytes = .ok i) :
    i.format = .nib ∧ encode i = bytes ∧ i.wellFormed = true := by
  match bytes, h with
  | [b], h =>
    rw [decode_nib] at h
    obtain ⟨n, rfl, hn⟩ := narrow_bind_ok h
    cases hn
    exact ⟨rfl, rfl, rfl⟩

theorem decode_dispatch5_vector (v : BitVec 5) : decode .dispatch5 [v.setWidth 8] = .ok (dispatchInstr v) := by
  rw [decode_dispatch5, narrow_setWidth_bind v (by decide)]

theorem decode_dispatch5_ok {bytes : List Byte} {i : Instr} (h : decode .dispatch5 bytes = .ok i) :
    i.format = .dispatch5 ∧ encode i = bytes ∧ i.wellFormed = true := by
  match bytes, h with
  | [b], h =>
    rw [decode_dispatch5] at h
    obtain ⟨v, rfl, hv⟩ := narrow_bind_ok h
    cases hv
    exact dispatchInstr_encode v

theorem dispatchInstr_bothLevels (es ec em : Bool) :
    dispatchInstr (dispatchVectorOf true true es ec em) = .dspReset es ec em := by
  revert es ec em; decide

/-- Without both levels the first edge-flag that is set chooses the row, whose operands are the bits below it. -/
theorem dispatchInstr_flags {ls lm : Bool} (h : (!(ls && lm)) = true) (es ec em : Bool) :
    dispatchInstr (dispatchVectorOf ls lm es ec em) =
      if es then .dspStart ls lm ec em else if ec then .dspSec ls lm em else if em then .dspMin ls lm
      else .dspNone ls lm := by
  revert ls lm es ec em; decide

/-- A dispatch row's vector is read as that row. -/
theorem decode_dispatch5_flags {ls lm : Bool} (h : (!(ls && lm)) = true) (es ec em : Bool) :
    decode .dispatch5 [(dispatchVectorOf ls lm es ec em).setWidth 8] = .ok
      (if es then .dspStart ls lm ec em else if ec then .dspSec ls lm em else if em then .dspMin ls lm
      else .dspNone ls lm) := by
  rw [decode_dispatch5_vector, dispatchInstr_flags h]

/-! Operations (30_encoding.md R76, R77). -/

theorem decode_opsel_writeByte (rs : Bool) (b : Byte) :
    decode .opsel [0x7, (bit rs).setWidth 8, b] = .ok (.writeByte rs b) := by
  cases rs <;> rfl

theorem decode_opsel_writeNibble (n : Nibble) : decode .opsel [0x8, n.setWidth 8] = .ok (.writeNibble n) := by
  have e : decode .opsel [0x8, n.setWidth 8] = writeNibbleOp (n.setWidth 8) := rfl
  rw [e, writeNibbleOp, narrow_setWidth n (by decide)]

theorem decode_opsel_ok {bytes : List Byte} {i : Instr} (h : decode .opsel bytes = .ok i) :
    i.format = .opsel ∧ encode i = bytes ∧ i.wellFormed = true := by
  match bytes, h with
  | op :: args, h =>
    rw [decode_opsel] at h
    obtain ⟨o, rfl, ho⟩ := narrow_bind_ok h
    exact decodeOpsel_ok ho

/-! The statements. -/

/-- Settles O1, by the row's format: a wire word is read from its byte, a dispatch row from its vector, an operation
from its number and operand bytes. -/
theorem decodeOfEncodeIsCanonical : Obligations.DecodeOfEncodeIsCanonical := by
  intro i hwf
  cases i with
  | lcdClear => exact decode_wire9_bytes .clear
  | lcdHome => exact decode_wire9_bytes .home
  | lcdEntry i s => exact decode_wire9_bytes (.entry i s)
  | lcdDisplay d c b => exact decode_wire9_bytes (.display d c b)
  | lcdFunction l n f x => exact decode_wire9_bytes (.function l n f x)
  | lcdSetAddr a => exact decode_wire9_bytes (.setAddr a)
  | lcdData ch => exact decode_wire9_bytes (.data ch)
  | nib n => exact decode_nib_nibble n
  | dspReset es ec em => exact (decode_dispatch5_vector _).trans (congrArg _ (dispatchInstr_bothLevels es ec em))
  | dspStart ls lm ec em => exact decode_dispatch5_flags hwf true ec em
  | dspSec ls lm em => exact decode_dispatch5_flags hwf false true em
  | dspMin ls lm => exact decode_dispatch5_flags hwf false false true
  | dspNone ls lm => exact decode_dispatch5_flags hwf false false false
  | writeByte rs b => exact decode_opsel_writeByte rs b
  | command b => exact decode_opsel_writeByte false b
  | data b => exact decode_opsel_writeByte true b
  | writeNibble n => exact decode_opsel_writeNibble n
  | hsNib3 | hsNib2
  | initializeDisplay | setCursor | clear | home | setText | addText | writeChar
  | startButton | secButton | minButton | resetGesture | tick | render | handler => rfl

/-- Settles O2, by what each format's decoder has read when it answers. -/
theorem encodeOfDecodeIsTheWord : Obligations.EncodeOfDecodeIsTheWord := by
  intro fmt bytes i h
  cases fmt with
  | wire9 => exact decode_wire9_ok h
  | hs5 => exact decode_hs5_ok h
  | nib => exact decode_nib_ok h
  | dispatch5 => exact decode_dispatch5_ok h
  | opsel => exact decode_opsel_ok h

/-- Settles O3: each of the words is the encoding of its instruction, which decodes to it. -/
theorem writtenOutWordsDecode : Obligations.WrittenOutWordsDecode :=
  ⟨decodeOfEncodeIsCanonical .lcdClear rfl, decodeOfEncodeIsCanonical .lcdHome rfl,
    decodeOfEncodeIsCanonical (.lcdEntry true false) rfl, decodeOfEncodeIsCanonical (.lcdDisplay true false false) rfl,
    decodeOfEncodeIsCanonical (.lcdFunction false true false 0) rfl, decodeOfEncodeIsCanonical (.lcdSetAddr 0x47) rfl,
    decodeOfEncodeIsCanonical (.lcdData 0x3A) rfl, decodeOfEncodeIsCanonical .hsNib3 rfl,
    decodeOfEncodeIsCanonical (.nib 0xA) rfl, decodeOfEncodeIsCanonical (.dspStart false false true false) rfl,
    decodeOfEncodeIsCanonical (.setCursor 20) rfl, decodeOfEncodeIsCanonical (.writeByte true 0x3A) rfl⟩

end Sys2Proof

/-! PROOFS. The invariants at reset (10_state.md R35). -/

namespace Sys2Proof.Machine

/-- The reset state meets the invariant: every register is at its reset value, and boot has not brought the lines up. -/
theorem State.reset_inv : State.reset.Inv where
  alarmOff _ := rfl
  ticksBelow := by decide
  cursorRange := by decide
  enableLow := rfl
  foreground := rfl
  linesOut := rfl
  interruptOn := rfl
  memory := Ddram.wf_nil

/-- Settles O54: at reset the inbox is empty and bring-up is still to come, before which the display's clauses ask
nothing. -/
theorem resetMeetsTheInvariants : Obligations.ResetMeetsTheInvariants where
  left := State.reset_inv
  right :=
    { inv := State.reset_inv
      noOperations := rfl
      afterBringUp := nofun
      afterRender := nofun }

end Sys2Proof.Machine
